-- ==== Sys2Proof/Word.lean ====
section
/-! DEFINITION. The widths of the block's values (00_scope.md R6, R7): names for bit vectors and nothing else. -/

namespace Sys2Proof

/-- A byte: 8 bits (R6). -/
abbrev Byte := BitVec 8

/-- A symbol value: 6 bits, 0 to 63 (R6). -/
abbrev Sym := BitVec 6

/-- A 24-bit group: 3 bytes, or 4 symbols (R114). -/
abbrev Group := BitVec 24

/-- A length, position or count register: 32 bits (R31 to R34). -/
abbrev Len := BitVec 32

/-- A padding operand or the register PAD: 9 bits (R23, R96). -/
abbrev PadSel := BitVec 9

/-- A command word: 16 bits (R90). -/
abbrev CmdWord := BitVec 16

end Sys2Proof
end

