-- ==== Sys2Proof/Syntax.lean ====
section
/-! DEFINITION. The four commands (30_encoding.md R90), one constructor per row of spec/opcode_table.json. -/

namespace Sys2Proof

/-- A command with the operands its word carries. The implicit operands (ALEN, ABUF, INLEN, IBUF, the instance) are read
from the state at acceptance (R96). -/
inductive Instr where
  /-- CONFIGURE (R92): STRICT_ARG = W[9], PADSEL = W[8:0]. -/
  | configure (strictArg : Bool) (padsel : PadSel)
  /-- PRESET (R93): ID = W[1:0]. -/
  | preset (id : BitVec 2)
  /-- ENCODE (R94). -/
  | encode
  /-- DECODE (R95). -/
  | decode
  deriving DecidableEq, Repr

end Sys2Proof
end

