-- ==== Sys2Proof/WellFormed.lean ====
section
/-! DEFINITION. Well-formedness. Every value of every operand field is a legal operand (30_encoding.md R96, 40_configuration.md
R137: PADSEL 0x101 to 0x1FF fail construction, they are no illegal word), so an `Instr` carries no check of its own. What can
be ill formed is a command WORD: R97 says which words are illegal, one check per operation code. -/

namespace Sys2Proof

/-- OP = W[15:12] (R91). -/
def CmdWord.op (w : CmdWord) : BitVec 4 := w.extractLsb' 12 4

/-- R97: the operation codes 0x0 and 0x5 to 0xF are reserved. -/
def CmdWord.opLegal (w : CmdWord) : Bool :=
  w.op == 1#4 || w.op == 2#4 || w.op == 3#4 || w.op == 4#4

/-- R92: CONFIGURE's bits 11:10 must be 0. -/
def CmdWord.configureReservedZero (w : CmdWord) : Bool := w.extractLsb' 10 2 == 0#2

/-- R93: PRESET's bits 11:2 must be 0. -/
def CmdWord.presetReservedZero (w : CmdWord) : Bool := w.extractLsb' 2 10 == 0#10

/-- R94, R95: bits 11:0 of ENCODE and DECODE must be 0. -/
def CmdWord.nullReservedZero (w : CmdWord) : Bool := w.extractLsb' 0 12 == 0#12

/-- R97: a word is legal when its OP is one of the four and no bit its format reserves is 1. -/
def CmdWord.legal (w : CmdWord) : Bool :=
  w.opLegal
    && (w.op != 1#4 || CmdWord.configureReservedZero w)
    && (w.op != 2#4 || CmdWord.presetReservedZero w)
    && ((w.op != 3#4 && w.op != 4#4) || CmdWord.nullReservedZero w)

/-- Every command with operands of the stated widths is well formed (R96, R137). -/
def Instr.wellFormed : Instr → Bool
  | .configure _ _ => true
  | .preset _ => true
  | .encode => true
  | .decode => true

end Sys2Proof
end

