-- ==== Sys2Proof/Decode.lean ====
section
/-! DEFINITION. The command decoder and the encoder, written from 30_encoding.md R91 to R100. The decoder needs W[15:12] and
the reserved-bit check only (R98). -/

namespace Sys2Proof

/-- Why a command word is illegal (R97). -/
inductive DecodeReject where
  /-- OP is 0x0 or 0x5 to 0xF. -/
  | reservedOp
  /-- a bit that the format marks "reserved, must be 0" is 1. -/
  | reservedBits
  deriving DecidableEq, Repr

/-- The field `W[lo + n - 1 : lo]` of a command word (R7). -/
def cmdField (w : CmdWord) (lo n : Nat) : BitVec n := w.extractLsb' lo n

/-- The decoder (R91 to R97): total, an illegal word is rejected by name. -/
def decode (w : CmdWord) : Except DecodeReject Instr :=
  if cmdField w 12 4 = 1#4 then
    if cmdField w 10 2 = 0#2 then
      .ok (.configure (decide (cmdField w 9 1 = 1#1)) (cmdField w 0 9))
    else .error .reservedBits
  else if cmdField w 12 4 = 2#4 then
    if cmdField w 2 10 = 0#10 then .ok (.preset (cmdField w 0 2)) else .error .reservedBits
  else if cmdField w 12 4 = 3#4 then
    if cmdField w 0 12 = 0#12 then .ok .encode else .error .reservedBits
  else if cmdField w 12 4 = 4#4 then
    if cmdField w 0 12 = 0#12 then .ok .decode else .error .reservedBits
  else .error .reservedOp

/-- The encoder: the command word of a command, in the fields of R92 to R95. -/
def encode : Instr → CmdWord
  | .configure s p => (1#4 ++ 0#2 ++ BitVec.ofBool s ++ p : BitVec (4 + 2 + 1 + 9))
  | .preset i => (2#4 ++ 0#10 ++ i : BitVec (4 + 10 + 2))
  | .encode => (3#4 ++ 0#12 : BitVec (4 + 12))
  | .decode => (4#4 ++ 0#12 : BitVec (4 + 12))

/-- What the decoder reads from a word whose bits are `w`, of which the table gives `nbits` (every bit above them is 0). A
command word is one 16-bit register write, so there is no byte order to undo (R64). -/
def decodeTableWord (nbits w : Nat) : Option Instr :=
  match decode (BitVec.ofNat 16 (w % 2 ^ nbits)) with
  | .ok i => some i
  | .error _ => none

end Sys2Proof
end

