-- ==== Sys2Proof/Config.lean ====
section
/-! DEFINITION. What the spec leaves open and the model does not choose: the free values (93_implementation_defined.md,
"any value") and the parameter ERRPOS_POLICY (60_exceptions.md R257). Each is an opaque constant with no body, so no proof
can rest on a value of it. IN_MAX, the third parameter, is an argument of the model held in State (log entry 4);
REG_BASE and REG_STRIDE bind nothing in a model that names registers (R44, D3). -/

namespace Sys2Proof

/-- The three byte buffers (R60 to R63): three separate index spaces. -/
inductive BufId where
  | abuf
  | ibuf
  | obuf
  deriving DecidableEq, Repr

/-- The causes of DECODE_ERROR (R255), NONE included. Code 7 is never produced, so it has no constructor (U8). -/
inductive ErrCause where
  | none
  | invalidByte
  | padEarly
  | padIncomplete
  | trailingData
  | truncated
  | noncanonical
  deriving DecidableEq, Repr

/-- Which unspecified value is drawn: every place where a rule writes or reads `unspecified` (R9) has its own name. -/
inductive FreeItem where
  | encTab (i : Nat)              -- R135, R45
  | decTab (b : Nat)              -- R135, R45
  | pad                           -- R135, R45
  | strict                        -- R135, R45
  | outlen                        -- R226
  | statusWhileBusy               -- R30, R300
  | cmdRead                       -- R28
  | cfginfo                       -- R32
  | bufByte (b : BufId) (i : Nat) -- R45, R62, R226
  | ePos                          -- R33
  | eOpos
  | eAcc
  | eRem
  | dPos                          -- R34
  | dOpos
  | dOlim
  | dSlot
  | dAcc
  | dDlen
  | dEnd
  | dLastpos
  | dSym (j : Nat)                -- R35
  deriving DecidableEq, Repr

/-- The `w`-bit value that the `draw`-th free draw gives for `item`: uninterpreted, so a claim about it holds for every
value (log entry 5). -/
opaque Config.free (w : Nat) (draw : Nat) (item : FreeItem) : BitVec w

/-- The decoder's position state at a failure, which ERRPOS_POLICY may look at (R257, U10). `pos` is the reference
position of R257's table. D_LASTPOS is not among them (it is `pos` for NONCANONICAL): the bulk path does not write it, and
R196 says that no position shows which path ran. -/
structure Trigger where
  pos : Len
  dPos : Len
  dOpos : Len
  dSlot : BitVec 3
  inlen : Len
  deriving DecidableEq, Repr

/-- ERRPOS_POLICY (R257, D10): ERRPOS for the causes 2 to 6, a parameter of the block, before the bound by INLEN
(log entry 7). -/
opaque Config.errPosPolicy (cause : ErrCause) (trigger : Trigger) : Len

end Sys2Proof
end

