-- ==== Sys2Proof/Machine/State.lean ====
section
/-! DEFINITION. The state of the block (10_state.md R20 to R36), as plain data, its reset value (R45), and the reasons a
step can stop. The fields `inMax`, `draws`, `rdata` and `host` are the model's own (INVENTORY.md, "## State"). -/

namespace Sys2Proof.Machine

/-- A byte buffer's contents: (index, byte) pairs, indices strictly rising. An index that is not listed has no value: the
spec calls the byte unspecified (R45, R62, R226). -/
abbrev Mem := List Host.Cell

/-- RESULT, STATUS[7:4] (R30). Codes 7 to 15 are never produced and have no constructor (U8). -/
inductive ResultCode where
  | none
  | ok
  | constructionError
  | decodeError
  | notConfigured
  | illegalCommand
  | lengthRange
  deriving DecidableEq, Repr

/-- The working registers of the encoder (R33) and of the decoder (R34, R35). -/
structure Work where
  ePos : Len
  eOpos : Len
  eAcc : Group
  eRem : BitVec 2
  dPos : Len
  dOpos : Len
  dOlim : Len
  dSlot : BitVec 3
  dAcc : Group
  dDlen : BitVec 3
  dEnd : Bool
  dLastpos : Len
  dSym : Vector Sym 4
  deriving DecidableEq, Repr

/-- The nine host-visible registers (R28), number 0 to 8 in this order. Registers 9 and above do not exist (U9). -/
inductive RegId where
  | cmd
  | status
  | inlen
  | outlen
  | errpos
  | errcause
  | cfgerr
  | alen
  | cfginfo
  deriving DecidableEq, Repr

/-- A host write of one register, accessed whole (R64): the data has the register's width (R28). -/
inductive RegWrite where
  | cmd (w : CmdWord)
  | status (v : BitVec 8)
  | inlen (v : Len)
  | outlen (v : Len)
  | errpos (v : Len)
  | errcause (v : BitVec 8)
  | cfgerr (v : BitVec 8)
  | alen (v : BitVec 8)
  | cfginfo (v : BitVec 16)
  deriving DecidableEq, Repr

/-- One access of the host (R12 (a), R28, R63, R290): everything the outside world can do to the block (R305). -/
inductive HostOp where
  | writeReg (r : RegWrite)
  | readReg (r : RegId)
  | writeBuf (b : BufId) (i : Nat) (v : Byte)
  | readBuf (b : BufId) (i : Nat)
  | reset
  deriving DecidableEq, Repr

/-- The whole state. -/
structure State where
  /-- ENC_TAB, the symbol_table (R21). -/
  encTab : Vector Byte 64
  /-- DEC_TAB, the inverse_symbol_table (R22). -/
  decTab : Vector Byte 256
  /-- PAD (R23). -/
  pad : PadSel
  /-- STRICT (R24). -/
  strict : Bool
  /-- CFG_VALID (R25). -/
  cfgValid : Bool
  /-- STATUS.BUSY (R30). -/
  busy : Bool
  /-- STATUS.RESULT (R30). -/
  result : ResultCode
  /-- INLEN (R31). -/
  inlen : Len
  /-- OUTLEN (R31). -/
  outlen : Len
  /-- ERRPOS (R32). -/
  errpos : Len
  /-- ERRCAUSE (R32). -/
  errcause : ErrCause
  /-- CFGERR[5:0] (R32). -/
  cfgerr : BitVec 6
  /-- ALEN (R31). -/
  alen : BitVec 8
  /-- ABUF (R60). -/
  abuf : Mem
  /-- IBUF (R61). -/
  ibuf : Mem
  /-- OBUF (R62). -/
  obuf : Mem
  /-- The working registers (R33 to R35). -/
  work : Work
  /-- The parameter IN_MAX (R6): an argument of the model, written by nothing (log entry 4). -/
  inMax : Nat
  /-- The model's own: the number of the next free draw (log entry 5). -/
  draws : Nat
  /-- The model's own: the data answered to the host's most recent read (log entry 6). -/
  rdata : BitVec 32
  /-- The model's own: the host's accesses still to come, in order (log entry 6). -/
  host : List HostOp
  deriving DecidableEq, Repr

/-- What an engine writes while it runs: the working registers and OBUF (R69). -/
structure Run where
  work : Work
  obuf : Mem
  deriving DecidableEq, Repr

/-- Why a step stops with a fault. -/
inductive Fault where
  /-- Raised by the host port: the host breaks a duty of R70 and R300 (any access but a read of STATUS or the reset input)
  while BUSY = 1. The spec leaves the behaviour unspecified (R29, U6: "A model that wants the safe side instead makes each breach a
  `fault`"). Safe: the machine stops where the hardware goes on. No step leaves BUSY = 1. -/
  | hostDuty
  /-- Raised by the host port: a buffer access at or beyond the buffer's capacity, which is no location of this block (R60
  to R62, U9). Safe: the machine stops. -/
  | noSuchIndex
  deriving DecidableEq, Repr

/-- Why an instruction has no meaning. -/
inductive Refusal where
  /-- Raised by an arm of `exec` that has no meaning yet. Safe: the machine stops. -/
  | notModelled (mnemonic : String)
  deriving DecidableEq, Repr

/-- The working registers at `State.reset`: R45 leaves them unspecified, all 0 is a DESIGN CHOICE (log entry 2). -/
def Work.reset : Work where
  ePos := 0
  eOpos := 0
  eAcc := 0
  eRem := 0
  dPos := 0
  dOpos := 0
  dOlim := 0
  dSlot := 0
  dAcc := 0
  dDlen := 0
  dEnd := false
  dLastpos := 0
  dSym := Vector.replicate 4 0

/-- The block right after reset (R45). The host-interface registers are the spec's 0; ENC_TAB, DEC_TAB, PAD and STRICT are
unspecified there and 0 here (DESIGN CHOICE, log entry 1); the buffers list nothing; the host has no access pending. -/
def State.reset : State where
  encTab := Vector.replicate 64 0
  decTab := Vector.replicate 256 0
  pad := 0
  strict := false
  cfgValid := false
  busy := false
  result := .none
  inlen := 0
  outlen := 0
  errpos := 0
  errcause := .none
  cfgerr := 0
  alen := 0
  abuf := []
  ibuf := []
  obuf := []
  work := Work.reset
  inMax := 2 ^ 28
  draws := 0
  rdata := 0
  host := []

end Sys2Proof.Machine
end

