-- ==== Sys2Proof/Machine/Ops.lean ====
section
/-! DEFINITION. The named operations: the byte buffers (`MemRead`, `MemWrite` of R9), the end of a command (`raise` and
completion, R250, R293), and the outcomes other than OK with what each records (R135, R226, R260 to R262). There is no return
from an outcome (R267): the next command simply overwrites the result registers. -/

namespace Sys2Proof.Machine

/-! ## Buffers -/

/-- MemRead(S, i, 1) (R9): the byte at index `i`, or no value where nothing is listed. -/
def Mem.read : Mem → Nat → Option Byte
  | [], _ => none
  | (k, x) :: m, i => if k = i then some x else Mem.read m i

/-- MemWrite(S, i, 1, v) (R9), keeping the indices strictly rising. -/
def Mem.write : Mem → Nat → Byte → Mem
  | [], i, v => [(i, v)]
  | (k, x) :: m, i, v =>
    if i < k then (i, v) :: (k, x) :: m
    else if i = k then (i, v) :: m
    else (k, x) :: Mem.write m i v

/-- Consecutive writes from index `i` upwards. -/
def Mem.writeBytes : Mem → Nat → List Byte → Mem
  | m, _, [] => m
  | m, i, v :: vs => Mem.writeBytes (Mem.write m i v) (i + 1) vs

/-- The canonical form: indices strictly rising. (An index with no value is not listed, so no entry can repeat it.) -/
def Mem.wf : Mem → Bool
  | [] => true
  | [_] => true
  | (i, _) :: (j, y) :: m => decide (i < j) && Mem.wf ((j, y) :: m)

/-- OUT_MAX = 4 × ⌈IN_MAX / 3⌉ (R6, R62). -/
def outMax (inMax : Nat) : Nat := 4 * ((inMax + 2) / 3)

/-- The capacity of a buffer in bytes (R60 to R62). -/
def State.capacity (s : State) : BufId → Nat
  | .abuf => 255
  | .ibuf => s.inMax
  | .obuf => outMax s.inMax

/-- A buffer by its name (R63). -/
def State.buf (s : State) : BufId → Mem
  | .abuf => s.abuf
  | .ibuf => s.ibuf
  | .obuf => s.obuf

/-- Replace one buffer. -/
def State.setBuf (s : State) (m : Mem) : BufId → State
  | .abuf => { s with abuf := m }
  | .ibuf => { s with ibuf := m }
  | .obuf => { s with obuf := m }

/-- The byte a read of buffer `b` at index `i` gives: the listed byte, or the free value of this draw where the byte is
unspecified (R45, R62, U1, U2, U7). Within one command every read of one index gives the same value (R66). -/
def State.byteAt (s : State) (b : BufId) (i : Nat) : Byte :=
  match Mem.read (s.buf b) i with
  | some v => v
  | none => Config.free 8 s.draws (.bufByte b i)

/-! ## Free values of whole register groups -/

/-- ENC_TAB <- unspecified (R135). -/
@[irreducible] def freeEncTab (draw : Nat) : Vector Byte 64 := Vector.ofFn fun i => Config.free 8 draw (.encTab i.val)

/-- DEC_TAB <- unspecified (R135). -/
@[irreducible] def freeDecTab (draw : Nat) : Vector Byte 256 := Vector.ofFn fun b => Config.free 8 draw (.decTab b.val)

/-- The working registers once a command has completed, or after the reset input: unspecified (R33, R34, R45). -/
def freeWork (draw : Nat) : Work where
  ePos := Config.free 32 draw .ePos
  eOpos := Config.free 32 draw .eOpos
  eAcc := Config.free 24 draw .eAcc
  eRem := Config.free 2 draw .eRem
  dPos := Config.free 32 draw .dPos
  dOpos := Config.free 32 draw .dOpos
  dOlim := Config.free 32 draw .dOlim
  dSlot := Config.free 3 draw .dSlot
  dAcc := Config.free 24 draw .dAcc
  dDlen := Config.free 3 draw .dDlen
  dEnd := (Config.free 1 draw .dEnd).getLsbD 0
  dLastpos := Config.free 32 draw .dLastpos
  dSym := Vector.ofFn fun j => Config.free 6 draw (.dSym j.val)

/-! ## The end of a command -/

/-- The end of every command, whatever its outcome (R250, R293): RESULT is written and BUSY cleared. The draw number moves
on, so that the next command draws fresh free values. -/
def State.complete (r : ResultCode) (s : State) : State :=
  { s with result := r, busy := false, draws := s.draws + 1 }

/-- ENC_TAB, DEC_TAB, PAD, STRICT <- unspecified; CFG_VALID <- 0 (R135, R45). -/
def State.dropInstance (s : State) : State :=
  { s with
    encTab := freeEncTab s.draws
    decTab := freeDecTab s.draws
    pad := Config.free 9 s.draws .pad
    strict := (Config.free 1 s.draws .strict).getLsbD 0
    cfgValid := false }

/-- raise ConstructionError(mask) (R135, R251): CFGERR holds the mask, the instance is gone. -/
def State.raiseConstruction (mask : BitVec 6) (s : State) : State :=
  State.complete .constructionError { s.dropInstance with cfgerr := mask }

/-- raise DecodeError(cause, pos) (R226, R252): ERRCAUSE and ERRPOS are written; OUTLEN and every byte of OBUF become
unspecified, and so do the working registers (R34). -/
def State.raiseDecode (cause : ErrCause) (pos : Len) (s : State) : State :=
  State.complete .decodeError
    { s with
      errcause := cause
      errpos := pos
      outlen := Config.free 32 s.draws .outlen
      obuf := []
      work := freeWork s.draws }

/-- The successful end of ENCODE and DECODE (R160, R225): OUTLEN, ERRPOS <- 0, ERRCAUSE <- 0, RESULT <- OK. OBUF lists the
result bytes only, so every byte at OUTLEN and above is unspecified (R62). -/
def State.finishCodec (outlen : Len) (obuf : Mem) (s : State) : State :=
  State.complete .ok
    { s with
      outlen := outlen
      errpos := 0
      errcause := .none
      obuf := obuf
      work := freeWork s.draws }

/-- The admission checks of ENCODE and DECODE after legality (R263): an instance, then a length within IBUF. -/
def State.admission (s : State) : Option ResultCode :=
  if s.cfgValid = false then some .notConfigured
  else if s.inMax < s.inlen.toNat then some .lengthRange
  else none

/-- The reset input (R290, R45): the host-interface registers to 0, everything R45 leaves unspecified to free values, the
buffers with nothing listed. The parameter IN_MAX and the host's own side stay. -/
def State.hardReset (s : State) : State :=
  { State.reset with
    encTab := freeEncTab s.draws
    decTab := freeDecTab s.draws
    pad := Config.free 9 s.draws .pad
    strict := (Config.free 1 s.draws .strict).getLsbD 0
    work := freeWork s.draws
    inMax := s.inMax
    draws := s.draws + 1
    rdata := s.rdata
    host := s.host }

end Sys2Proof.Machine
end

