-- ==== Sys2Proof/Machine/Operands.lean ====
section
/-! DEFINITION. The operand forms: the alphabet operand of CONFIGURE, the preset ROM (10_state.md R27), the input bytes, the
byte classes (30_encoding.md R113) and the 24-bit group (R114). -/

namespace Sys2Proof.Machine

/-! ## Implicit operands -/

/-- The alphabet operand of CONFIGURE: ABUF[0 .. ALEN - 1] (R60, R130). -/
def State.alphabet (s : State) : List Byte := (List.range s.alen.toNat).map (s.byteAt .abuf)

/-- The input of ENCODE and DECODE: IBUF[0 .. INLEN - 1] (R61). -/
def State.input (s : State) : List Byte := (List.range s.inlen.toNat).map (s.byteAt .ibuf)

/-- IBUF[p] for a position register `p` (R9). -/
def State.inByte (s : State) (p : Len) : Byte := s.byteAt .ibuf p.toNat

/-! ## The preset ROM -/

/-- The symbols 0 to 61 that the two alphabets share: `A`-`Z`, `a`-`z`, `0`-`9` (R110, R111). -/
def sharedSymbols : List Byte :=
  [0x41, 0x42, 0x43, 0x44, 0x45, 0x46, 0x47, 0x48, 0x49, 0x4A, 0x4B, 0x4C, 0x4D] ++
  [0x4E, 0x4F, 0x50, 0x51, 0x52, 0x53, 0x54, 0x55, 0x56, 0x57, 0x58, 0x59, 0x5A] ++
  [0x61, 0x62, 0x63, 0x64, 0x65, 0x66, 0x67, 0x68, 0x69, 0x6A, 0x6B, 0x6C, 0x6D] ++
  [0x6E, 0x6F, 0x70, 0x71, 0x72, 0x73, 0x74, 0x75, 0x76, 0x77, 0x78, 0x79, 0x7A] ++
  [0x30, 0x31, 0x32, 0x33, 0x34, 0x35, 0x36, 0x37, 0x38, 0x39]

/-- The standard alphabet (R110). -/
def stdAlphabet : List Byte := sharedSymbols ++ [0x2B, 0x2F]

/-- The URL-safe alphabet (R111). -/
def urlAlphabet : List Byte := sharedSymbols ++ [0x2D, 0x5F]

/-- PADSEL of "no padding" (R23, R96). -/
def padNone : PadSel := 0x100#9

/-- One entry of the preset ROM (R27). -/
structure PresetEntry where
  alphabet : List Byte
  padsel : PadSel
  strict : Bool
  deriving DecidableEq, Repr

/-- The preset ROM (R27): 0 STD, 1 URL, 2 RAWSTD, 3 RAWURL; strict = 0 in all four (D14). -/
def presetRom (id : BitVec 2) : PresetEntry :=
  if id = 0#2 then ⟨stdAlphabet, 0x03D#9, false⟩
  else if id = 1#2 then ⟨urlAlphabet, 0x03D#9, false⟩
  else if id = 2#2 then ⟨stdAlphabet, padNone, false⟩
  else ⟨urlAlphabet, padNone, false⟩

/-! ## Byte classes -/

/-- "Padding enabled" (R23): PAD ≠ NONE. -/
def State.padEnabled (s : State) : Bool := s.pad != padNone

/-- PAD[7:0] (R23). -/
def State.padByte (s : State) : Byte := s.pad.extractLsb' 0 8

/-- A line-break byte: 0x0A or 0x0D (R112). -/
def isLineBreak (b : Byte) : Bool := b == 0x0A#8 || b == 0x0D#8

/-- The invalid marker of the decode table (R22). -/
def invalidMark : Byte := 0xFF#8

/-- The class of a byte under the configured instance (R113). -/
inductive ByteClass where
  | sym (v : Sym)
  | lb
  | pad
  | bad
  deriving DecidableEq, Repr

/-- DEC_TAB[b] (R193). -/
def State.decEntry (s : State) (b : Byte) : Byte := s.decTab[b.toNat]

/-- class(b) (R113, R193): one table read, then two comparisons. -/
def State.classOf (s : State) (b : Byte) : ByteClass :=
  if s.decEntry b ≠ invalidMark then .sym ((s.decEntry b).setWidth 6)
  else if isLineBreak b then .lb
  else if s.padEnabled = true ∧ b = s.padByte then .pad
  else .bad

/-! ## The 24-bit group -/

/-- {byte0, byte1, byte2}: "byte0<<16 | byte1<<8 | byte2" (R114, R163). -/
def packBytes (b0 b1 b2 : Byte) : Group :=
  b0.setWidth 24 <<< 16 ||| b1.setWidth 24 <<< 8 ||| b2.setWidth 24

/-- {sym0, sym1, sym2, sym3}: "left-shifted by 18/12/6/0 per slot" (R114, R220). -/
def packSyms (s0 s1 s2 s3 : Sym) : Group :=
  s0.setWidth 24 <<< 18 ||| s1.setWidth 24 <<< 12 ||| s2.setWidth 24 <<< 6 ||| s3.setWidth 24

/-- The symbol of slot `j` of a group: bits 23 - 6j : 18 - 6j (R114). -/
def groupSym (g : Group) (j : Nat) : Sym := g.extractLsb' (18 - 6 * j) 6

/-- Byte `k` of a group: bits 23 - 8k : 16 - 8k (R114). -/
def groupByte (g : Group) (k : Nat) : Byte := g.extractLsb' (16 - 8 * k) 8

/-- ENC_TAB[v] (R163): a 6-bit index is always in range. -/
def State.encSym (s : State) (v : Sym) : Byte := s.encTab[v.toNat]

end Sys2Proof.Machine
end

