-- ==== Sys2Proof/Machine/Flags.lean ====
section
/-! DEFINITION. The status computations: the construction invariants (40_configuration.md R131), the codes of RESULT and
ERRCAUSE (R30, R255), and the packed registers STATUS, ERRCAUSE, CFGERR and CFGINFO (R30, R32). The block has no condition
codes (R41). -/

namespace Sys2Proof.Machine

/-- Some symbol occurs twice (R131 bit 2). -/
def hasDuplicate : List Byte → Bool
  | [] => false
  | b :: bs => bs.contains b || hasDuplicate bs

/-- ALPH_LEN (R131 bit 0). -/
def alphLen (a : List Byte) : Bool := a.length != 64

/-- ALPH_LINEBREAK (R131 bit 1). -/
def alphLinebreak (a : List Byte) : Bool := a.any isLineBreak

/-- PAD_IN_ALPHABET (R131 bit 3). -/
def padInAlphabet (a : List Byte) (p : PadSel) : Bool := decide (p ≤ 0x0FF#9) && a.contains (p.extractLsb' 0 8)

/-- PAD_LINEBREAK (R131 bit 4). -/
def padLinebreak (p : PadSel) : Bool := p == 0x00A#9 || p == 0x00D#9

/-- PAD_RANGE (R131 bit 5). -/
def padRange (p : PadSel) : Bool := decide (0x101#9 ≤ p)

/-- Invariants(A, PADSEL) (R131): one bit per construction invariant, set when it is violated; all six are evaluated (R133). -/
def invariantMask (a : List Byte) (p : PadSel) : BitVec 6 :=
  BitVec.ofBool (padRange p) ++ BitVec.ofBool (padLinebreak p) ++ BitVec.ofBool (padInAlphabet a p)
    ++ BitVec.ofBool (hasDuplicate a) ++ BitVec.ofBool (alphLinebreak a) ++ BitVec.ofBool (alphLen a)

/-- The RESULT codes (R30). -/
def resultBits : ResultCode → BitVec 4
  | .none => 0
  | .ok => 1
  | .constructionError => 2
  | .decodeError => 3
  | .notConfigured => 4
  | .illegalCommand => 5
  | .lengthRange => 6

/-- The ERRCAUSE codes, bits 2:0 (R255). -/
def causeBits : ErrCause → BitVec 3
  | .none => 0
  | .invalidByte => 1
  | .padEarly => 2
  | .padIncomplete => 3
  | .trailingData => 4
  | .truncated => 5
  | .noncanonical => 6

/-- STATUS while BUSY = 0 (R30): RESULT in 7:4, 0 in 3:2, CFG_VALID in 1, BUSY in 0. -/
def State.statusIdle (s : State) : BitVec 8 :=
  resultBits s.result ++ 0#2 ++ BitVec.ofBool s.cfgValid ++ 0#1

/-- A read of STATUS (R30, R300): while BUSY = 1 only BUSY is specified. -/
def State.statusRead (s : State) : BitVec 8 :=
  if s.busy then Config.free 7 s.draws .statusWhileBusy ++ 1#1 else s.statusIdle

/-- CFGINFO (R32): a view of PAD and STRICT, unspecified while CFG_VALID = 0. -/
def State.cfginfoRead (s : State) : BitVec 16 :=
  if s.cfgValid then 0#6 ++ BitVec.ofBool s.strict ++ s.pad else Config.free 16 s.draws .cfginfo

/-- ERRCAUSE as read: bits 7:3 are 0 (R32). -/
def State.errcauseRead (s : State) : BitVec 8 := 0#5 ++ causeBits s.errcause

/-- CFGERR as read: bits 7:6 are 0 (R32). -/
def State.cfgerrRead (s : State) : BitVec 8 := 0#2 ++ s.cfgerr

/-- The number of a register (R28). -/
def regNumber : RegId → Nat
  | .cmd => 0
  | .status => 1
  | .inlen => 2
  | .outlen => 3
  | .errpos => 4
  | .errcause => 5
  | .cfgerr => 6
  | .alen => 7
  | .cfginfo => 8

/-- What a host read of a register answers (R28), zero-extended to 32 bits. A read of CMD gives an unspecified value. -/
def State.readReg (s : State) : RegId → BitVec 32
  | .cmd => (Config.free 16 s.draws .cmdRead).setWidth 32
  | .status => s.statusRead.setWidth 32
  | .inlen => s.inlen
  | .outlen => s.outlen
  | .errpos => s.errpos
  | .errcause => s.errcauseRead.setWidth 32
  | .cfgerr => s.cfgerrRead.setWidth 32
  | .alen => s.alen.setWidth 32
  | .cfginfo => s.cfginfoRead.setWidth 32

end Sys2Proof.Machine
end

