-- ==== Sys2Proof/Machine/Configuration.lean ====
section
/-! DEFINITION. The configuration unit (40_configuration.md): CONFIGURE and PRESET. -/

namespace Sys2Proof.Machine

/-- `ENC_TAB[i] <- A[i]` for i = 0 to 63 (R134). -/
def buildEncTab (a : List Byte) : Vector Byte 64 := Vector.ofFn fun i => a.getD i.val 0

/-- `DEC_TAB[ENC_TAB[i]] <- i` for the symbols `syms`, the first of which has index `i` (R134). -/
def invertInto (t : Vector Byte 256) : Nat → List Byte → Vector Byte 256
  | _, [] => t
  | i, b :: bs => invertInto (t.set b.toNat (BitVec.ofNat 8 i)) (i + 1) bs

/-- DEC_TAB: 0xFF everywhere, then the inversion of ENC_TAB (R130, R134). -/
def buildDecTab (enc : Vector Byte 64) : Vector Byte 256 :=
  invertInto (Vector.replicate 256 invalidMark) 0 enc.toList

/-- The success branch of R130: both tables, PAD, STRICT, CFG_VALID <- 1, CFGERR <- 0, RESULT <- OK. -/
def State.loadInstance (a : List Byte) (p : PadSel) (st : Bool) (s : State) : State :=
  State.complete .ok
    { s with
      encTab := buildEncTab a
      decTab := buildDecTab (buildEncTab a)
      pad := p
      strict := st
      cfgValid := true
      cfgerr := 0 }

/-- Construction from (alphabet, padding, strict) (R130, R140): the mask decides. -/
def State.construct (a : List Byte) (p : PadSel) (st : Bool) (s : State) : State :=
  if invariantMask a p = 0 then s.loadInstance a p st else s.raiseConstruction (invariantMask a p)

/-- CONFIGURE (R130). -/
def execConfigure (strictArg : Bool) (padsel : PadSel) (s : State) : Host.Outcome State Fault Refusal :=
  .next (s.construct s.alphabet padsel strictArg)

/-- PRESET (R140): exactly as CONFIGURE with the ROM's alphabet, padding and strict flag; ABUF and ALEN are not read. -/
def execPreset (id : BitVec 2) (s : State) : Host.Outcome State Fault Refusal :=
  .next (s.construct (presetRom id).alphabet (presetRom id).padsel (presetRom id).strict)

end Sys2Proof.Machine
end

