-- ==== Sys2Proof/Machine/Decoder.lean ====
section
/-! DEFINITION. base64_decoder (42_decoder.md): DECODE, in the pseudocode of R190, R195 and R201 over the working registers of
R34 and R35. The engine's functions take the state at acceptance, which no engine changes. -/

namespace Sys2Proof.Machine

/-- What `raise DecodeError(cause, ...)` carries (R252): the cause and the position state at the failure. -/
structure DecErr where
  cause : ErrCause
  trigger : Trigger
  deriving DecidableEq, Repr

/-- `raise DecodeError(cause, ErrPos(cause, pos))` with the working registers as they stand. -/
def decErr (s : State) (w : Work) (cause : ErrCause) (pos : Len) : DecErr :=
  ⟨cause, { pos := pos, dPos := w.dPos, dOpos := w.dOpos, dSlot := w.dSlot, inlen := s.inlen }⟩

/-- ERRPOS of a decode error: the index of the byte for INVALID_BYTE (R256, normative); ERRPOS_POLICY, at most INLEN, for the
other causes (R257, D10). -/
def errPosOf (e : DecErr) : Len :=
  if e.cause = .invalidByte then e.trigger.pos
  else if (Config.errPosPolicy e.cause e.trigger).toNat ≤ e.trigger.inlen.toNat then
    Config.errPosPolicy e.cause e.trigger
  else e.trigger.inlen

/-- `while D_POS < INLEN and class(IBUF[D_POS]) = LB: D_POS <- D_POS + 1` (R206, R208). -/
def skipLb (s : State) : Nat → Len → Len
  | 0, p => p
  | fuel + 1, p =>
    if p.toNat < s.inlen.toNat ∧ s.classOf (s.inByte p) = .lb then skipLb s fuel (p + 1) else p

/-- Passes that are enough for any loop over the input (R228, R306). -/
def decFuel (s : State) : Nat := s.inlen.toNat + 1

/-- After the final pad byte (R208): skip line breaks, then nothing may remain. -/
def padFinal (s : State) (w : Work) : Except DecErr Work :=
  let w := { w with dPos := skipLb s (decFuel s) w.dPos }
  if w.dPos.toNat < s.inlen.toNat then .error (decErr s w .trailingData w.dPos)
  else .ok { w with dDlen := w.dSlot, dEnd := true }

/-- A pad byte at slot 2 has been consumed (R206): skip line breaks, then exactly one more pad byte. -/
def padSecond (s : State) (w : Work) : Except DecErr Work :=
  let w := { w with dPos := skipLb s (decFuel s) w.dPos }
  if w.dPos = s.inlen then .error (decErr s w .padIncomplete s.inlen)
  else if s.classOf (s.inByte w.dPos) ≠ .pad then .error (decErr s w .padIncomplete w.dPos)
  else padFinal s { w with dPos := w.dPos + 1 }

/-- A pad byte at index `p` has been consumed (R205 to R208). -/
def onPad (s : State) (w : Work) (p : Len) : Except DecErr Work :=
  if w.dSlot < 2#3 then .error (decErr s w .padEarly p)
  else if w.dSlot = 2#3 then padSecond s w
  else padFinal s w

/-- The input is exhausted inside a quantum (R210 to R213). -/
def onExhausted (s : State) (w : Work) : Except DecErr Work :=
  if w.dSlot = 0#3 then .ok { w with dDlen := 0, dEnd := true }
  else if w.dSlot = 1#3 then .error (decErr s w .truncated s.inlen)
  else if s.padEnabled then .error (decErr s w .truncated s.inlen)
  else .ok { w with dDlen := w.dSlot, dEnd := true }

/-- A symbol `v` read at index `p` is stored (R202). -/
def storeSym (w : Work) (v : Sym) (p : Len) : Work :=
  { w with
    dSym := w.dSym.setIfInBounds w.dSlot.toNat v
    dLastpos := p
    dSlot := w.dSlot + 1 }

/-- The slot loop of R201: one input byte a pass, with `fuel` passes at most. -/
def slotLoop (s : State) : Nat → Work → Except DecErr Work
  | 0, w => .ok w
  | fuel + 1, w =>
    if ¬ w.dSlot < 4#3 then .ok w
    else if w.dPos = s.inlen then onExhausted s w
    else
      let p := w.dPos
      let w := { w with dPos := p + 1 }
      match s.classOf (s.inByte p) with
      | .sym v => slotLoop s fuel (storeSym w v p)
      | .lb => slotLoop s fuel w
      | .bad => .error (decErr s w .invalidByte p)
      | .pad => onPad s w p

/-- The reassembled group (R220). -/
def reassemble (w : Work) : Group := packSyms w.dSym[0] w.dSym[1] w.dSym[2] w.dSym[3]

/-- The strict-flag validator (R222): the bits of the group that belong to no emitted byte. -/
def strictViolation (s : State) (dlen : BitVec 3) (acc : Group) : Bool :=
  s.strict && ((dlen == 2#3 && acc.extractLsb' 0 16 != 0#16) || (dlen == 3#3 && acc.extractLsb' 0 8 != 0#8))

/-- The bytes a finished quantum emits (R221): D_DLEN - 1 of them. -/
def emitted (dlen : BitVec 3) (acc : Group) : List Byte :=
  if dlen = 4#3 then [groupByte acc 0, groupByte acc 1, groupByte acc 2]
  else if dlen = 3#3 then [groupByte acc 0, groupByte acc 1]
  else [groupByte acc 0]

/-- The end of a quantum (R201): reassembly, strict check, emission. A quantum with D_DLEN = 0 emits nothing (R210). -/
def closeQuantum (s : State) (w : Work) (obuf : Mem) : Except DecErr Run :=
  if w.dDlen = 0#3 then .ok ⟨w, obuf⟩
  else
    let acc := reassemble w
    let w := { w with dAcc := acc }
    if strictViolation s w.dDlen acc then .error (decErr s w .noncanonical w.dLastpos)
    else
      .ok { work := { w with dOpos := w.dOpos + BitVec.ofNat 32 (emitted w.dDlen acc).length }
            obuf := Mem.writeBytes obuf w.dOpos.toNat (emitted w.dDlen acc) }

/-- The start of a quantum (R200). -/
def openQuantum (w : Work) : Work := { w with dSlot := 0, dSym := Vector.replicate 4 0, dDlen := 4 }

/-- `Quantum()` (R201). -/
def quantum (s : State) (r : Run) : Except DecErr Run :=
  match slotLoop s (decFuel s) (openQuantum r.work) with
  | .error e => .error e
  | .ok w => closeQuantum s w r.obuf

/-- Whether a byte class is SYM. -/
def ByteClass.isSym : ByteClass → Bool
  | .sym _ => true
  | .lb => false
  | .pad => false
  | .bad => false

/-- `BulkClean(p)` (R194): the four bytes from index `p` on are all SYM. -/
def bulkClean (s : State) (p : Len) : Bool :=
  (s.classOf (s.inByte p)).isSym && (s.classOf (s.inByte (p + 1))).isSym
    && (s.classOf (s.inByte (p + 2))).isSym && (s.classOf (s.inByte (p + 3))).isSym

/-- The condition of the bulk path (R194): at least 4 input bytes, at least 4 output slots, four clean bytes. -/
def bulkReady (s : State) (w : Work) : Bool :=
  decide (4 ≤ (s.inlen - w.dPos).toNat) && decide (4 ≤ (w.dOlim - w.dOpos).toNat) && bulkClean s w.dPos

/-- DEC_TAB[b] as a symbol value, for a byte of class SYM (R195). -/
def State.symValue (s : State) (b : Byte) : Sym := (s.decEntry b).setWidth 6

/-- `BulkGroup()` (R195): 4 bytes in, 3 bytes out. -/
def bulkGroup (s : State) (r : Run) : Run :=
  let p := r.work.dPos
  let acc := packSyms (s.symValue (s.inByte p)) (s.symValue (s.inByte (p + 1)))
    (s.symValue (s.inByte (p + 2))) (s.symValue (s.inByte (p + 3)))
  { work := { r.work with dAcc := acc, dPos := p + 4, dOpos := r.work.dOpos + 3 }
    obuf := Mem.writeBytes r.obuf r.work.dOpos.toNat [groupByte acc 0, groupByte acc 1, groupByte acc 2] }

/-- The outer loop of R190 and R194, with `fuel` passes at most. `bulk = false` is the decoder with the bulk path removed
(R196). -/
def decLoop (bulk : Bool) (s : State) : Nat → Run → Except DecErr Run
  | 0, r => .ok r
  | fuel + 1, r =>
    if r.work.dPos.toNat < s.inlen.toNat ∧ r.work.dEnd = false then
      if bulk && bulkReady s r.work then decLoop bulk s fuel (bulkGroup s r)
      else
        match quantum s r with
        | .error e => .error e
        | .ok r' => decLoop bulk s fuel r'
    else .ok r

/-- D_OLIM (R191): ⌊INLEN / 4⌋ × 3 with padding enabled, ⌊INLEN × 6 / 8⌋ without, over the naturals (R232). -/
def outputBound (s : State) : Len :=
  BitVec.ofNat 32 (if s.padEnabled then s.inlen.toNat / 4 * 3 else s.inlen.toNat * 6 / 8)

/-- The start of DECODE (R190). OBUF starts with nothing listed: what the command does not write is unspecified (R62). -/
def decStart (s : State) : Run :=
  { work := { s.work with dPos := 0, dOpos := 0, dOlim := outputBound s, dEnd := false }, obuf := [] }

/-- The whole engine (R190), with or without the bulk path. -/
def decodeRunWith (bulk : Bool) (s : State) : Except DecErr Run := decLoop bulk s (decFuel s) (decStart s)

/-- The engine of DECODE (R190). -/
def decodeRun (s : State) : Except DecErr Run := decodeRunWith true s

/-- DECODE (R190): admission (R263), the engine, then R225 or R226. -/
def execDecode (s : State) : Host.Outcome State Fault Refusal :=
  match s.admission with
  | some r => .next (s.complete r)
  | none =>
    match decodeRun s with
    | .error e => .next (s.raiseDecode e.cause (errPosOf e))
    | .ok r => .next (s.finishCodec r.work.dOpos r.obuf)

end Sys2Proof.Machine
end

