-- ==== Sys2Proof/Machine/Encoder.lean ====
section
/-! DEFINITION. base64_encoder (41_encoder.md): ENCODE, in the pseudocode of R160 over the working registers of R33. The
engine's functions take the state at acceptance, which no engine changes, and a `Run` of what the engine writes. -/

namespace Sys2Proof.Machine

/-- One pass of the loop of R160 (R164): 3 bytes in, 4 symbols out. -/
def encChunk (s : State) (r : Run) : Run :=
  let p := r.work.ePos
  let o := r.work.eOpos.toNat
  let acc := packBytes (s.inByte p) (s.inByte (p + 1)) (s.inByte (p + 2))
  { work := { r.work with eAcc := acc, ePos := p + 3, eOpos := r.work.eOpos + 4 }
    obuf := Mem.writeBytes r.obuf o
      [s.encSym (groupSym acc 0), s.encSym (groupSym acc 1), s.encSym (groupSym acc 2), s.encSym (groupSym acc 3)] }

/-- `while INLEN - E_POS ≥ 3` (R162), with `fuel` passes at most. -/
def encLoop (s : State) : Nat → Run → Run
  | 0, r => r
  | fuel + 1, r => if 3 ≤ (s.inlen - r.work.ePos).toNat then encLoop s fuel (encChunk s r) else r

/-- Write the bytes of a final partial chunk and advance E_OPOS past them (R165 to R167), and E_POS past its E_REM input
bytes, so that E_POS ends at INLEN (10_state.md R40; DEDUCED, log entry 11). -/
def encTail (r : Run) (acc : Group) (bytes : List Byte) : Run :=
  { work := { r.work with
      eAcc := acc
      ePos := r.work.ePos + r.work.eRem.setWidth 32
      eOpos := r.work.eOpos + BitVec.ofNat 32 bytes.length }
    obuf := Mem.writeBytes r.obuf r.work.eOpos.toNat bytes }

/-- The final partial chunk (R160): 2 bytes give 3 symbols and 1 pad (R165), 1 byte gives 2 symbols and 2 pads (R166), the
pads only with padding enabled (R167). -/
def encFinal (s : State) (r : Run) : Run :=
  let rem : BitVec 2 := (s.inlen - r.work.ePos).setWidth 2
  let r := { r with work := { r.work with eRem := rem } }
  let p := r.work.ePos
  if rem = 2#2 then
    let acc := packBytes (s.inByte p) (s.inByte (p + 1)) 0
    encTail r acc
      ([s.encSym (groupSym acc 0), s.encSym (groupSym acc 1), s.encSym (groupSym acc 2)]
        ++ if s.padEnabled then [s.padByte] else [])
  else if rem = 1#2 then
    let acc := packBytes (s.inByte p) 0 0
    encTail r acc
      ([s.encSym (groupSym acc 0), s.encSym (groupSym acc 1)]
        ++ if s.padEnabled then [s.padByte, s.padByte] else [])
  else r

/-- The start of ENCODE (R160). OBUF starts with nothing listed: what the command does not write is unspecified (R62). -/
def encStart (s : State) : Run := { work := { s.work with ePos := 0, eOpos := 0 }, obuf := [] }

/-- The whole engine: ⌊INLEN / 3⌋ full chunks (R162), then the final partial chunk. -/
def encodeRun (s : State) : Run := encFinal s (encLoop s (s.inlen.toNat / 3) (encStart s))

/-- ENCODE (R160): admission (R263), the engine, OUTLEN <- E_OPOS. -/
def execEncode (s : State) : Host.Outcome State Fault Refusal :=
  match s.admission with
  | some r => .next (s.complete r)
  | none => .next (s.finishCodec (encodeRun s).work.eOpos (encodeRun s).obuf)

end Sys2Proof.Machine
end

