-- ==== Sys2Proof/Machine/HostPort.lean ====
section
/-! DEFINITION. The host port: what the block does with one access of the host (10_state.md R28 to R32, 20_memory.md R60 to R63,
70_reset_and_hazards.md R290, R300). -/

namespace Sys2Proof.Machine

/-- The block takes a command: BUSY becomes 1 (R293). -/
def State.accept (s : State) : State := { s with busy := true }

/-- An accepted write of CMD (R29, R263): first legality, then the command. An illegal word writes RESULT and nothing else
(R97, R261). -/
def issueCommand (w : CmdWord) (s : State) : Host.Outcome State Fault Refusal :=
  match decode w with
  | .ok i => exec i s.accept
  | .error _ => .next (s.accept.complete .illegalCommand)

/-- The answer of a host read: the data, and the draw number moves on, so that two reads of an unspecified value need not
agree (93_implementation_defined.md). -/
def State.answer (v : BitVec 32) (s : State) : State := { s with rdata := v, draws := s.draws + 1 }

/-- A host write of a register (R28): a read-only register ignores it. -/
def writeRegister (r : RegWrite) (s : State) : Host.Outcome State Fault Refusal :=
  match r with
  | .cmd w => issueCommand w s
  | .status _ => .next s
  | .inlen v => .next { s with inlen := v }
  | .outlen _ => .next s
  | .errpos _ => .next s
  | .errcause _ => .next s
  | .cfgerr _ => .next s
  | .alen v => .next { s with alen := v }
  | .cfginfo _ => .next s

/-- An access of the host while BUSY = 0 (R70). -/
def idleAccess (op : HostOp) (s : State) : Host.Outcome State Fault Refusal :=
  match op with
  | .writeReg r => writeRegister r s
  | .readReg r => .next (s.answer (s.readReg r))
  | .writeBuf b i v =>
    if i < s.capacity b then .next (s.setBuf (Mem.write (s.buf b) i v) b) else .fault .noSuchIndex
  | .readBuf b i => if i < s.capacity b then .next (s.answer ((s.byteAt b i).setWidth 32)) else .fault .noSuchIndex
  | .reset => .next s.hardReset

/-- An access of the host while BUSY = 1 (R70, R300): a read of STATUS and the reset input are allowed (R290), anything else
breaks a duty. -/
def busyAccess (op : HostOp) (s : State) : Host.Outcome State Fault Refusal :=
  match op with
  | .readReg .status => .next (s.answer (s.readReg .status))
  | .reset => .next s.hardReset
  | _ => .fault .hostDuty

/-- One access of the host. -/
def hostAccess (op : HostOp) (s : State) : Host.Outcome State Fault Refusal :=
  if s.busy then busyAccess op s else idleAccess op s

/-- The next access of the host is a write of the command word `w` to CMD. -/
def State.withCommand (w : CmdWord) (s : State) : State := { s with host := .writeReg (.cmd w) :: s.host }

end Sys2Proof.Machine
end

