-- ==== Sys2Proof/Machine/Step.lean ====
section
/-! DEFINITION. One step: the block serves the host's next access (R12, R305). With no access pending it is idle and holds
its state (R273). There is no program counter and no fetch (R40): log entry 8 says how a command comes to run. -/

namespace Sys2Proof.Machine

/-- One step of the machine. -/
def step (s : State) : Host.Outcome State Fault Refusal :=
  match s.host with
  | [] => .next s
  | op :: rest => hostAccess op { s with host := rest }

/-- `s` with the command word `w`, of which the table gives `nbits` bits, as the host's next access: a write of CMD. -/
def State.withFetchWord (s : State) (nbits w : Nat) : State := s.withCommand (BitVec.ofNat 16 (w % 2 ^ nbits))

end Sys2Proof.Machine
end

