-- ==== Sys2Proof/Codec.lean ====
section
/-! DEFINITION. The codec in the terms the claims use, written a second time from other rules than the engines follow: the
encoder's output slice by slice (41_encoder.md R163 to R167), the decoder as the state machine of 42_decoder.md R227, and
the accepted language of R229. No step calls anything here. -/

namespace Sys2Proof.Codec

open Sys2Proof.Machine

/-! ## The encoder's output -/

/-- Slice 0 of a chunk: `b0[7:2]` (R163). -/
def slice0 (b0 : Byte) : Sym := b0.extractLsb' 2 6

/-- Slice 1 of a chunk: `{b0[1:0], b1[7:4]}` (R163). -/
def slice1 (b0 b1 : Byte) : Sym := b0.extractLsb' 0 2 ++ b1.extractLsb' 4 4

/-- Slice 2 of a chunk: `{b1[3:0], b2[7:6]}` (R163). -/
def slice2 (b1 b2 : Byte) : Sym := b1.extractLsb' 0 4 ++ b2.extractLsb' 6 2

/-- Slice 3 of a chunk: `b2[5:0]` (R163). -/
def slice3 (b2 : Byte) : Sym := b2.extractLsb' 0 6

/-- The symbols of an input (R164 to R166). -/
def symbolsOf : List Byte → List Sym
  | [] => []
  | [b0] => [slice0 b0, slice1 b0 0]
  | [b0, b1] => [slice0 b0, slice1 b0 b1, slice2 b1 0]
  | b0 :: b1 :: b2 :: rest => slice0 b0 :: slice1 b0 b1 :: slice2 b1 b2 :: slice3 b2 :: symbolsOf rest

/-- How many pad bytes follow the symbols of an `n`-byte input with padding enabled (R167). -/
def padCount (n : Nat) : Nat := if n % 3 = 1 then 2 else if n % 3 = 2 then 1 else 0

/-- The pad bytes written (R167): none with padding disabled. -/
def padsFor (s : State) (n : Nat) : List Byte :=
  if s.padEnabled then List.replicate (padCount n) s.padByte else []

/-- The bytes ENCODE produces for an input (R160). -/
def encodedBytes (s : State) (bs : List Byte) : List Byte :=
  (symbolsOf bs).map s.encSym ++ padsFor s bs.length

/-! ## The decoder's output -/

/-- Byte 0 of a group: `{s0[5:0], s1[5:4]}` (R220). -/
def byte0 (s0 s1 : Sym) : Byte := s0 ++ s1.extractLsb' 4 2

/-- Byte 1 of a group: `{s1[3:0], s2[5:2]}` (R220). -/
def byte1 (s1 s2 : Sym) : Byte := s1.extractLsb' 0 4 ++ s2.extractLsb' 2 4

/-- Byte 2 of a group: `{s2[1:0], s3[5:0]}` (R220). -/
def byte2 (s2 s3 : Sym) : Byte := s2.extractLsb' 0 2 ++ s3

/-- What the symbols alone decode to (R229): groups of 4, the last may have 2 or 3 (R221). -/
def bytesOf : List Sym → List Byte
  | s0 :: s1 :: s2 :: s3 :: rest => byte0 s0 s1 :: byte1 s1 s2 :: byte2 s2 s3 :: bytesOf rest
  | [s0, s1, s2] => [byte0 s0 s1, byte1 s1 s2]
  | [s0, s1] => [byte0 s0 s1]
  | [_] => []
  | [] => []

/-- The symbols of the last group when it is partial. -/
def tailOf (vs : List Sym) : List Sym := vs.drop (vs.length / 4 * 4)

/-- The unused bits of a partial group are 0 (R115, R222): the 4 low bits of symbol 1, or the 2 low bits of symbol 2. -/
def unusedZero : List Sym → Bool
  | [_, s1] => s1.extractLsb' 0 4 == 0#4
  | [_, _, s2] => s2.extractLsb' 0 2 == 0#2
  | _ => true

/-! ## The accepted language -/

/-- The classes of the input's bytes with every LB taken out (R203: a line break is consumed and changes nothing else). -/
def significant (s : State) (bs : List Byte) : List ByteClass := (bs.map s.classOf).filter (· ≠ .lb)

/-- The end of an input with `n` symbols and `k` pad bytes after them is one R229 allows. In R229's forms `L*` stands in
every gap, so the form of an input is the form of its significant classes. -/
abbrev tailAllowed (padEnabled : Bool) (n k : Nat) : Prop :=
  (n % 4 = 0 ∧ k = 0)
    ∨ (padEnabled = true ∧ ((n % 4 = 2 ∧ k = 2) ∨ (n % 4 = 3 ∧ k = 1)))
    ∨ (padEnabled = false ∧ (n % 4 = 2 ∨ n % 4 = 3) ∧ k = 0)

/-- The input `bs` has the form of R229 for STRICT = 0, and its symbols are `vs`. -/
def HasForm (s : State) (bs : List Byte) (vs : List Sym) : Prop :=
  ∃ k, significant s bs = vs.map ByteClass.sym ++ List.replicate k ByteClass.pad
    ∧ tailAllowed s.padEnabled vs.length k

/-- The input `bs` is in the language DECODE accepts (R229), strict mode included. -/
def Accepted (s : State) (bs : List Byte) (vs : List Sym) : Prop :=
  HasForm s bs vs ∧ (s.strict = true → unusedZero (tailOf vs) = true)

/-! ## The quantum path as a state machine (R227) -/

/-- The rows of R227's table: Q0 to Q3 are `q` with 0 to 3 symbols held. -/
inductive Phase where
  | q
  | p2
  | t
  deriving DecidableEq, Repr

/-- The machine of R227 between two bytes. -/
structure Fsm where
  phase : Phase
  held : List Sym
  lastpos : Nat
  out : List Byte
  deriving DecidableEq, Repr

/-- The start state Q0. -/
def Fsm.start : Fsm := ⟨.q, [], 0, []⟩

/-- "Finish with n symbols": reassemble, strict check, emit (R227). An error is its cause and its reference position (R257). -/
def Fsm.finish (s : State) (f : Fsm) : Except (ErrCause × Nat) (List Byte) :=
  if s.strict = true ∧ unusedZero f.held = false then .error (.noncanonical, f.lastpos)
  else .ok (f.out ++ bytesOf f.held)

/-- One entry of R227's table: the byte at index `p` has class `c`. -/
def Fsm.next (p : Nat) (c : ByteClass) (f : Fsm) : Except (ErrCause × Nat) Fsm :=
  match f.phase, c with
  | .q, .sym v =>
    if f.held.length = 3 then .ok { f with held := [], lastpos := p, out := f.out ++ bytesOf (f.held ++ [v]) }
    else .ok { f with held := f.held ++ [v], lastpos := p }
  | .q, .lb => .ok f
  | .q, .pad =>
    if f.held.length < 2 then .error (.padEarly, p)
    else if f.held.length = 2 then .ok { f with phase := .p2 }
    else .ok { f with phase := .t }
  | .q, .bad => .error (.invalidByte, p)
  | .p2, .lb => .ok f
  | .p2, .pad => .ok { f with phase := .t }
  | .p2, .sym _ => .error (.padIncomplete, p)
  | .p2, .bad => .error (.padIncomplete, p)
  | .t, .lb => .ok f
  | .t, .sym _ => .error (.trailingData, p)
  | .t, .pad => .error (.trailingData, p)
  | .t, .bad => .error (.trailingData, p)

/-- The EOI column of R227's table, for an input of `n` bytes. -/
def Fsm.eoi (s : State) (n : Nat) (f : Fsm) : Except (ErrCause × Nat) (List Byte) :=
  match f.phase with
  | .q =>
    if f.held.length = 0 then .ok f.out
    else if f.held.length = 1 then .error (.truncated, n)
    else if s.padEnabled then .error (.truncated, n)
    else f.finish s
  | .p2 => .error (.padIncomplete, n)
  | .t => f.finish s

/-- The machine run over the bytes from index `p` on. -/
def Fsm.run (s : State) : Nat → List Byte → Fsm → Except (ErrCause × Nat) (List Byte)
  | p, [], f => f.eoi s p
  | p, b :: bs, f =>
    match f.next p (s.classOf b) with
    | .error e => .error e
    | .ok f' => Fsm.run s (p + 1) bs f'

/-- An outcome of the engine in the terms of R227: the cause and the reference position, or the bytes OBUF lists. -/
def engineView (o : Except DecErr Run) : Except (ErrCause × Nat) Mem :=
  match o with
  | .error e => .error (e.cause, e.trigger.pos.toNat)
  | .ok r => .ok r.obuf

/-- An outcome of the state machine in the same terms: its bytes at OBUF[0 ..]. -/
def fsmView (o : Except (ErrCause × Nat) (List Byte)) : Except (ErrCause × Nat) Mem :=
  match o with
  | .error e => .error e
  | .ok bs => .ok (Mem.writeBytes [] 0 bs)

end Sys2Proof.Codec
end

