-- ==== Sys2Proof/Safety.lean ====
section
/-! DEFINITION. What a sound state is, in the terms the claims use: the parts of the invariant that every step keeps. -/

namespace Sys2Proof.Machine

/-- The parameter IN_MAX is in its range (R6). -/
abbrev State.ParamsOk (s : State) : Prop := 1 ≤ s.inMax ∧ s.inMax ≤ 2 ^ 28

/-- The configuration state holds a valid instance (R22, R23, R134): the two tables are inverse to each other, every other
entry of DEC_TAB is the marker, no line-break byte and no pad byte is a symbol, and PAD is NONE or a byte that is no line
break. -/
abbrev State.InstanceOk (s : State) : Prop :=
  (∀ v : Sym, s.decEntry (s.encSym v) = v.setWidth 8)
    ∧ (∀ b : Byte, s.decEntry b ≠ invalidMark → s.encSym ((s.decEntry b).setWidth 6) = b ∧ (s.decEntry b).toNat < 64)
    ∧ s.decEntry 0x0A#8 = invalidMark
    ∧ s.decEntry 0x0D#8 = invalidMark
    ∧ (s.pad ≠ padNone →
        s.pad.toNat < 256 ∧ isLineBreak s.padByte = false ∧ s.decEntry s.padByte = invalidMark)

/-- While CFG_VALID = 1 the instance is valid (R25). -/
abbrev State.ConfigOk (s : State) : Prop := s.cfgValid = true → s.InstanceOk

/-- The three buffers are in canonical form. -/
abbrev State.BuffersWf (s : State) : Prop :=
  Mem.wf s.abuf = true ∧ Mem.wf s.ibuf = true ∧ Mem.wf s.obuf = true

/-- Every index a buffer lists is below `n`. -/
abbrev Mem.Below (m : Mem) (n : Nat) : Prop := ∀ c ∈ m, c.1 < n

/-- No buffer lists an index at or beyond its capacity (R60 to R62). -/
abbrev State.BuffersFit (s : State) : Prop :=
  Mem.Below s.abuf (s.capacity .abuf) ∧ Mem.Below s.ibuf (s.capacity .ibuf) ∧ Mem.Below s.obuf (s.capacity .obuf)

/-- The invariant: between two accesses of the host no command is running (R11), IN_MAX is in range, the configuration is
sound, the buffers are canonical and within capacity. -/
abbrev State.Inv (s : State) : Prop :=
  s.busy = false ∧ s.ParamsOk ∧ s.ConfigOk ∧ s.BuffersWf ∧ s.BuffersFit

/-- ENCODE or DECODE is admitted (R263): an instance exists and INLEN is within IBUF. -/
abbrev State.Admitted (s : State) : Prop := s.cfgValid = true ∧ s.inlen.toNat ≤ s.inMax

/-- What ENCODE and DECODE leave unchanged, whatever their outcome (R160, R190): the configuration state, CFGERR, INLEN, ALEN,
ABUF, IBUF, the parameter, and the host's side. -/
abbrev State.CodecFrame (s t : State) : Prop :=
  t.encTab = s.encTab ∧ t.decTab = s.decTab ∧ t.pad = s.pad ∧ t.strict = s.strict ∧ t.cfgValid = s.cfgValid
    ∧ t.cfgerr = s.cfgerr ∧ t.inlen = s.inlen ∧ t.alen = s.alen ∧ t.abuf = s.abuf ∧ t.ibuf = s.ibuf
    ∧ t.inMax = s.inMax ∧ t.rdata = s.rdata ∧ t.host = s.host

/-- What CONFIGURE and PRESET leave unchanged (R130, R140): OUTLEN, ERRPOS, ERRCAUSE, INLEN, ALEN, the three buffers, the
working registers, the parameter, and the host's side. -/
abbrev State.ConfigFrame (s t : State) : Prop :=
  t.outlen = s.outlen ∧ t.errpos = s.errpos ∧ t.errcause = s.errcause ∧ t.inlen = s.inlen ∧ t.alen = s.alen
    ∧ t.abuf = s.abuf ∧ t.ibuf = s.ibuf ∧ t.obuf = s.obuf ∧ t.work = s.work
    ∧ t.inMax = s.inMax ∧ t.rdata = s.rdata ∧ t.host = s.host

/-- The configuration state of two states is the same (R20 (a)). -/
abbrev State.SameConfig (s t : State) : Prop :=
  t.encTab = s.encTab ∧ t.decTab = s.decTab ∧ t.pad = s.pad ∧ t.strict = s.strict ∧ t.cfgValid = s.cfgValid

/-- OBUF[0 .. OUTLEN - 1], as a host reads it. -/
def State.output (s : State) : List Byte := (List.range s.outlen.toNat).map (s.byteAt .obuf)

/-- The pseudo-operation OUT2IN (R99): copy `OBUF[0 .. OUTLEN - 1]` to `IBUF[0 ..]` and INLEN <- OUTLEN. -/
def State.outToIn (s : State) : State :=
  { s with ibuf := Mem.writeBytes s.ibuf 0 s.output, inlen := s.outlen }

end Sys2Proof.Machine
end

