-- ==== Sys2Proof/Certificates/Slice0/Obligations.lean ====
section
/-! DEFINITION. The statements for the provers, from the numbered rules of spec/. Each docstring names the rule. Where a
statement speaks of a free value (log entry 5) or of ERRPOS_POLICY (log entry 7) it holds for every value of it. -/

open Sys2Proof
open Sys2Proof.Machine
open Sys2Proof.Codec

/-! ## Command words (30_encoding.md) -/

/-- R91 to R95, R99: decoding the word of a command gives the command back, every operand at every value. -/
def Obligations.DecodeOfEncodeIsTheCommand : Prop :=
  ∀ i : Instr, i.wellFormed = true → decode (encode i) = .ok i

/-- R91 to R95: a word that decodes is the word of the command it decodes to, so no bit of a legal word is ignored. -/
def Obligations.EncodeOfDecodeIsTheWord : Prop :=
  ∀ (w : CmdWord) (i : Instr), decode w = .ok i → encode i = w

/-- The sample words of 95_test_vectors.md section 4.3 and R99, each written out from its format. -/
def Obligations.SampleWordsDecodeAsTheSpecSays : Prop :=
  decode 0x103D#16 = .ok (.configure false 0x03D#9) ∧ decode 0x123D#16 = .ok (.configure true 0x03D#9)
    ∧ decode 0x1100#16 = .ok (.configure false 0x100#9) ∧ decode 0x13FF#16 = .ok (.configure true 0x1FF#9)
    ∧ decode 0x2003#16 = .ok (.preset 3#2) ∧ decode 0x3000#16 = .ok .encode ∧ decode 0x4000#16 = .ok .decode
    ∧ decode 0x1400#16 = .error .reservedBits ∧ decode 0x2004#16 = .error .reservedBits
    ∧ decode 0x3001#16 = .error .reservedBits ∧ decode 0x4001#16 = .error .reservedBits
    ∧ decode 0x0000#16 = .error .reservedOp ∧ decode 0x5000#16 = .error .reservedOp

/-- R97: every one of the 65536 words is one of the four commands or illegal, and the legal words are 0x1000 to 0x13FF, 0x2000
to 0x2003, 0x3000 and 0x4000; an accepted illegal word is refused with ILLEGAL_COMMAND and changes nothing else. -/
def Obligations.EveryWordIsACommandOrIllegal : Prop :=
  (∀ w : CmdWord, (∃ i, decode w = .ok i) ↔ CmdWord.legal w = true)
    ∧ (∀ w : CmdWord, (∃ st p, decode w = .ok (.configure st p)) ↔ 0x1000#16 ≤ w ∧ w ≤ 0x13FF#16)
    ∧ (∀ w : CmdWord, (∃ id, decode w = .ok (.preset id)) ↔ 0x2000#16 ≤ w ∧ w ≤ 0x2003#16)
    ∧ (∀ w : CmdWord, decode w = .ok .encode ↔ w = 0x3000#16)
    ∧ (∀ w : CmdWord, decode w = .ok .decode ↔ w = 0x4000#16)
    ∧ (∀ (w : CmdWord) (s : State), CmdWord.legal w = false → s.busy = false →
        issueCommand w s = .next { s with result := .illegalCommand, draws := s.draws + 1 })

/-! ## The step and the host port (10_state.md, 60_exceptions.md, 70_reset_and_hazards.md) -/

/-- R29, R293: when the host's next access writes a legal word to CMD while BUSY = 0, the step takes the access off the
host's list, sets BUSY and runs the command the word decodes to. -/
def Obligations.StepRunsTheIssuedCommand : Prop :=
  ∀ (s : State) (w : CmdWord) (rest : List HostOp) (i : Instr),
    s.busy = false → s.host = .writeReg (.cmd w) :: rest → decode w = .ok i →
      step s = exec i { s with host := rest, busy := true }

/-- R261: an accepted write of an illegal command word writes RESULT <- ILLEGAL_COMMAND and changes no other register, table
or buffer; CFG_VALID and the instance are kept. (`draws` and `host` are the model's own.) -/
def Obligations.IllegalCommandIsRefused : Prop :=
  ∀ (s : State) (w : CmdWord) (rest : List HostOp),
    s.busy = false → s.host = .writeReg (.cmd w) :: rest → CmdWord.legal w = false →
      step s = .next { s with host := rest, result := .illegalCommand, draws := s.draws + 1 }

/-- R273: an idle block holds its state. -/
def Obligations.IdleBlockHoldsItsState : Prop :=
  ∀ s : State, s.host = [] → step s = .next s

/-- R45: the state right after reset, in the values R45 gives. -/
def Obligations.ResetLeavesTheSpecifiedValues : Prop :=
  State.reset.statusRead = 0x00#8 ∧ State.reset.busy = false ∧ State.reset.cfgValid = false
    ∧ State.reset.result = .none ∧ State.reset.inlen = 0 ∧ State.reset.outlen = 0 ∧ State.reset.errpos = 0
    ∧ State.reset.errcauseRead = 0x00#8 ∧ State.reset.cfgerrRead = 0x00#8 ∧ State.reset.alen = 0

/-- R290, R45: the reset input, at any time, a running command included, leaves the values of R45; every byte of the three
buffers is an unspecified value, and so is CFGINFO. IN_MAX and the host's other accesses stay. -/
def Obligations.ResetInputLeavesTheResetState : Prop :=
  ∀ (s : State) (rest : List HostOp), s.host = .reset :: rest →
    ∃ t, step s = .next t
      ∧ t.statusRead = 0x00#8 ∧ t.busy = false ∧ t.cfgValid = false ∧ t.result = .none
      ∧ t.inlen = 0 ∧ t.outlen = 0 ∧ t.errpos = 0 ∧ t.errcauseRead = 0x00#8 ∧ t.cfgerrRead = 0x00#8 ∧ t.alen = 0
      ∧ t.cfginfoRead = Config.free 16 t.draws .cfginfo
      ∧ (∀ b i, t.byteAt b i = Config.free 8 t.draws (.bufByte b i))
      ∧ t.inMax = s.inMax ∧ t.host = rest

/-- R30: the fields of STATUS. BUSY is bit 0; while BUSY = 0, CFG_VALID is bit 1, bits 3:2 read 0, RESULT is bits 7:4 with the
codes 0 to 6. -/
def Obligations.StatusHoldsItsFields : Prop :=
  (∀ s : State, s.statusRead.getLsbD 0 = s.busy)
    ∧ (∀ s : State, s.busy = false →
        s.statusRead.getLsbD 1 = s.cfgValid ∧ s.statusRead.extractLsb' 2 2 = 0#2
          ∧ s.statusRead.extractLsb' 4 4 = resultBits s.result)
    ∧ resultBits .none = 0#4 ∧ resultBits .ok = 1#4 ∧ resultBits .constructionError = 2#4
    ∧ resultBits .decodeError = 3#4 ∧ resultBits .notConfigured = 4#4 ∧ resultBits .illegalCommand = 5#4
    ∧ resultBits .lengthRange = 6#4

/-- R32, R255: ERRCAUSE reads 0 in bits 7:3 and the cause code, 0 to 6, in 2:0; CFGERR reads 0 in bits 7:6; CFGINFO reads PAD in 8:0,
STRICT in 9 and 0 in 15:10 while CFG_VALID = 1. -/
def Obligations.ResultRegistersHoldTheirFields : Prop :=
  (∀ s : State,
    s.errcauseRead.extractLsb' 3 5 = 0#5 ∧ s.errcauseRead.extractLsb' 0 3 = causeBits s.errcause
      ∧ s.cfgerrRead.extractLsb' 6 2 = 0#2 ∧ s.cfgerrRead.extractLsb' 0 6 = s.cfgerr
      ∧ (s.cfgValid = true →
          s.cfginfoRead.extractLsb' 0 9 = s.pad ∧ s.cfginfoRead.getLsbD 9 = s.strict
            ∧ s.cfginfoRead.extractLsb' 10 6 = 0#6))
    ∧ causeBits .none = 0#3 ∧ causeBits .invalidByte = 1#3 ∧ causeBits .padEarly = 2#3
    ∧ causeBits .padIncomplete = 3#3 ∧ causeBits .trailingData = 4#3 ∧ causeBits .truncated = 5#3
    ∧ causeBits .noncanonical = 6#3

/-- R28: a host write of a read-only register is ignored; a write of INLEN or ALEN writes it and nothing else. -/
def Obligations.RegisterWritesReachInlenAndAlenOnly : Prop :=
  ∀ (s : State) (rest : List HostOp) (r : RegWrite), s.busy = false → s.host = .writeReg r :: rest →
    match r with
    | .cmd _ => True
    | .status _ => step s = .next { s with host := rest }
    | .inlen v => step s = .next { s with host := rest, inlen := v }
    | .outlen _ => step s = .next { s with host := rest }
    | .errpos _ => step s = .next { s with host := rest }
    | .errcause _ => step s = .next { s with host := rest }
    | .cfgerr _ => step s = .next { s with host := rest }
    | .alen v => step s = .next { s with host := rest, alen := v }
    | .cfginfo _ => step s = .next { s with host := rest }

/-- R28, R31: a host read of a readable register answers the register (STATUS, ERRCAUSE, CFGERR and CFGINFO as packed), and a
read of a byte the buffer lists answers that byte; a read changes nothing but the model's own answer and draw number. -/
def Obligations.HostReadsAnswerTheRegister : Prop :=
  ∀ (s : State) (rest : List HostOp), s.busy = false →
    (s.host = .readReg .inlen :: rest →
        step s = .next { s with host := rest, rdata := s.inlen, draws := s.draws + 1 })
      ∧ (s.host = .readReg .status :: rest →
        step s = .next { s with host := rest, rdata := s.statusRead.setWidth 32, draws := s.draws + 1 })
      ∧ (s.host = .readReg .errcause :: rest →
        step s = .next { s with host := rest, rdata := s.errcauseRead.setWidth 32, draws := s.draws + 1 })
      ∧ (s.host = .readReg .cfgerr :: rest →
        step s = .next { s with host := rest, rdata := s.cfgerrRead.setWidth 32, draws := s.draws + 1 })
      ∧ (s.host = .readReg .cfginfo :: rest →
        step s = .next { s with host := rest, rdata := s.cfginfoRead.setWidth 32, draws := s.draws + 1 })
      ∧ (s.host = .readReg .outlen :: rest →
        step s = .next { s with host := rest, rdata := s.outlen, draws := s.draws + 1 })
      ∧ (s.host = .readReg .errpos :: rest →
        step s = .next { s with host := rest, rdata := s.errpos, draws := s.draws + 1 })
      ∧ (s.host = .readReg .alen :: rest →
        step s = .next { s with host := rest, rdata := s.alen.setWidth 32, draws := s.draws + 1 })
      ∧ (∀ b i v, s.host = .readBuf b i :: rest → i < s.capacity b → Mem.read (s.buf b) i = some v →
        step s = .next { s with host := rest, rdata := v.setWidth 32, draws := s.draws + 1 })

/-- R9, R60 to R63: a host write of a byte within a buffer's capacity changes that byte of that buffer and no other byte of
any buffer, and no register, table or parameter (R73: the tables are copies, not views). -/
def Obligations.BufferWriteChangesOneByte : Prop :=
  ∀ (s : State) (rest : List HostOp) (b : BufId) (i : Nat) (v : Byte),
    s.busy = false → s.host = .writeBuf b i v :: rest → i < s.capacity b →
      ∃ t, step s = .next t ∧ t.byteAt b i = v
        ∧ (∀ c j, ¬(c = b ∧ j = i) → t.byteAt c j = s.byteAt c j)
        ∧ s.SameConfig t ∧ t.busy = false ∧ t.result = s.result ∧ t.inlen = s.inlen ∧ t.outlen = s.outlen
        ∧ t.errpos = s.errpos ∧ t.errcause = s.errcause ∧ t.cfgerr = s.cfgerr ∧ t.alen = s.alen
        ∧ t.work = s.work ∧ t.inMax = s.inMax ∧ t.host = rest

/-- R70, R300, U6: while BUSY = 1 any access but a read of STATUS and the reset input stops with the fault `hostDuty`; a read of
STATUS answers BUSY = 1. The fault is the model's treatment (log entry 9). -/
def Obligations.BreachOfAHostDutyStops : Prop :=
  ∀ (s : State) (op : HostOp) (rest : List HostOp), s.busy = true → s.host = op :: rest →
    (op ≠ .reset → op ≠ .readReg .status → step s = .fault .hostDuty)
      ∧ (op = .readReg .status → ∃ t, step s = .next t ∧ t.rdata.getLsbD 0 = true ∧ t.busy = true)

/-- R60 to R62, U9: an access at or beyond a buffer's capacity (255, IN_MAX, 4 × ⌈IN_MAX / 3⌉) stops with `noSuchIndex`. -/
def Obligations.IndexBeyondCapacityStops : Prop :=
  ∀ (s : State) (rest : List HostOp) (b : BufId) (i : Nat) (v : Byte), s.busy = false →
    (match b with | .abuf => 255 | .ibuf => s.inMax | .obuf => 4 * ((s.inMax + 2) / 3)) ≤ i →
      (s.host = .writeBuf b i v :: rest → step s = .fault .noSuchIndex)
        ∧ (s.host = .readBuf b i :: rest → step s = .fault .noSuchIndex)

/-! ## Outcomes and refusals (60_exceptions.md) -/

/-- R250: every command ends in exactly one outcome, with BUSY cleared, and only the commands of R250's table raise each
outcome: CONSTRUCTION_ERROR from CONFIGURE, DECODE_ERROR from DECODE, NOT_CONFIGURED and LENGTH_RANGE from ENCODE and DECODE,
and no command that runs gives NONE or ILLEGAL_COMMAND. -/
def Obligations.EveryCommandEndsInOneOutcome : Prop :=
  ∀ (i : Instr) (s : State), ∃ t, exec i s = .next t ∧ t.busy = false
    ∧ t.result ≠ .none ∧ t.result ≠ .illegalCommand
    ∧ (t.result = .constructionError → ∃ st p, i = .configure st p)
    ∧ (t.result = .decodeError → i = .decode)
    ∧ (t.result = .notConfigured → i = .encode ∨ i = .decode)
    ∧ (t.result = .lengthRange → i = .encode ∨ i = .decode)

/-- R260, R263: an ENCODE or DECODE accepted while CFG_VALID = 0, whatever INLEN is, writes RESULT <- NOT_CONFIGURED and
changes no other register, table or buffer. (BUSY is cleared; `draws` is the model's own.) -/
def Obligations.NotConfiguredIsRefused : Prop :=
  ∀ (s : State) (i : Instr), (i = .encode ∨ i = .decode) → s.cfgValid = false →
    exec i s = .next { s with result := .notConfigured, busy := false, draws := s.draws + 1 }

/-- R262: an ENCODE or DECODE accepted while CFG_VALID = 1 and INLEN > IN_MAX writes RESULT <- LENGTH_RANGE and changes no
other register, table or buffer. -/
def Obligations.LengthRangeIsRefused : Prop :=
  ∀ (s : State) (i : Instr), (i = .encode ∨ i = .decode) → s.cfgValid = true → s.inMax < s.inlen.toNat →
    exec i s = .next { s with result := .lengthRange, busy := false, draws := s.draws + 1 }

/-- R256: for INVALID_BYTE, ERRPOS is below INLEN and the byte there is of class BAD. For the causes 2 to 6, ERRPOS is at most
INLEN whatever ERRPOS_POLICY is: that bound is the model's clamp in `errPosOf` (log entry 7), taken from R32 (an index into
the input, or INLEN) and from the table of open parameters of 92_eei_decisions.md (the policy's values are ≤ INLEN). -/
def Obligations.ErrorPositionLiesWithinTheInput : Prop :=
  ∀ s t : State, s.Admitted → exec .decode s = .next t → t.result = .decodeError →
    t.errpos.toNat ≤ s.inlen.toNat ∧ t.errcause ≠ .none
      ∧ (t.errcause = .invalidByte →
          t.errpos.toNat < s.inlen.toNat ∧ s.classOf (s.byteAt .ibuf t.errpos.toNat) = .bad)

/-! ## CONFIGURE and PRESET (40_configuration.md) -/

/-- R131: the six bits of `Invariants(A, PADSEL)`, each set exactly when its invariant is violated; with PADSEL = NONE bits 3,
4 and 5 are clear; CONFIGURE's instance is valid exactly when the mask is 0. -/
def Obligations.InvariantMaskHasOneBitPerViolation : Prop :=
  (∀ (a : List Byte) (p : PadSel),
    ((invariantMask a p).getLsbD 0 = true ↔ a.length ≠ 64)
      ∧ ((invariantMask a p).getLsbD 1 = true ↔
          ∃ i, ∃ h : i < a.length, a[i] = 0x0A#8 ∨ a[i] = 0x0D#8)
      ∧ ((invariantMask a p).getLsbD 2 = true ↔
          ∃ i j, ∃ hij : i < j, ∃ hj : j < a.length, a[i]'(Nat.lt_trans hij hj) = a[j])
      ∧ ((invariantMask a p).getLsbD 3 = true ↔
          p.toNat ≤ 0x0FF ∧ ∃ i, ∃ h : i < a.length, a[i] = p.extractLsb' 0 8)
      ∧ ((invariantMask a p).getLsbD 4 = true ↔ p = 0x00A#9 ∨ p = 0x00D#9)
      ∧ ((invariantMask a p).getLsbD 5 = true ↔ 0x101 ≤ p.toNat)
      ∧ (p = 0x100#9 → (invariantMask a p).extractLsb' 3 3 = 0#3))
    ∧ ∀ (s t : State) (st : Bool) (p : PadSel), exec (.configure st p) s = .next t →
        (t.cfgValid = true ↔ invariantMask s.alphabet p = 0)

/-- R130, R134, the success of CONFIGURE (its completion): when no invariant is violated it answers a next state with RESULT =
OK, CFGERR = 0, CFG_VALID = 1, PAD = PADSEL, STRICT = STRICT_ARG, ENC_TAB[i] = A[i], DEC_TAB[A[i]] = i, and 0xFF at every byte
that is no symbol; everything else is unchanged. -/
def Obligations.ConfigureBuildsTheInstance : Prop :=
  ∀ (s : State) (st : Bool) (p : PadSel), invariantMask s.alphabet p = 0 →
    ∃ t, exec (.configure st p) s = .next t
      ∧ t.result = .ok ∧ t.busy = false ∧ t.cfgerr = 0 ∧ t.cfgValid = true ∧ t.pad = p ∧ t.strict = st
      ∧ s.alphabet.length = 64
      ∧ (∀ i, ∀ h : i < 64, s.alphabet[i]? = some t.encTab[i])
      ∧ (∀ i, ∀ h : i < 64, t.decEntry t.encTab[i] = BitVec.ofNat 8 i)
      ∧ (∀ b : Byte, b ∉ s.alphabet → t.decEntry b = 0xFF#8)
      ∧ s.ConfigFrame t

/-- R135, R251: a CONFIGURE that violates an invariant writes RESULT <- CONSTRUCTION_ERROR and CFGERR <- the mask, clears
CFG_VALID, and leaves ENC_TAB, DEC_TAB, PAD and STRICT unspecified (free values); nothing else changes. -/
def Obligations.FailedConfigureDropsTheInstance : Prop :=
  ∀ (s : State) (st : Bool) (p : PadSel), invariantMask s.alphabet p ≠ 0 →
    ∃ t, exec (.configure st p) s = .next t
      ∧ t.result = .constructionError ∧ t.busy = false
      ∧ t.cfgerrRead = (invariantMask s.alphabet p).setWidth 8 ∧ t.cfgValid = false
      ∧ (∀ i, ∀ h : i < 64, t.encTab[i] = Config.free 8 s.draws (.encTab i))
      ∧ (∀ b, ∀ h : b < 256, t.decTab[b] = Config.free 8 s.draws (.decTab b))
      ∧ t.pad = Config.free 9 s.draws .pad ∧ t.strict = (Config.free 1 s.draws .strict).getLsbD 0
      ∧ s.ConfigFrame t

/-- R22, R23, R134: after a CONFIGURE or PRESET that ends in OK the tables are inverse to each other, every other entry of
DEC_TAB is 0xFF, the line-break bytes and the pad byte are no symbols, and PAD is NONE or a byte that is no line break. -/
def Obligations.ConstructedInstanceIsValid : Prop :=
  ∀ (s t : State) (i : Instr), ((∃ st p, i = .configure st p) ∨ (∃ id, i = .preset id)) →
    exec i s = .next t → t.result = .ok → t.InstanceOk

/-- R136: CONFIGURE depends on its operands alone: from two states with the same alphabet operand it gives the same RESULT,
CFGERR and CFG_VALID, and on success the same configuration state. -/
def Obligations.ConfigureIsAFunctionOfItsOperands : Prop :=
  ∀ (s s' t t' : State) (st : Bool) (p : PadSel), s.alphabet = s'.alphabet →
    exec (.configure st p) s = .next t → exec (.configure st p) s' = .next t' →
      t.result = t'.result ∧ t.cfgerr = t'.cfgerr ∧ t.cfgValid = t'.cfgValid
        ∧ (t.cfgValid = true → t.SameConfig t')

/-- R141: every entry of the preset ROM satisfies every invariant: 64 distinct bytes, none a line break, the pad byte in
neither alphabet and no line break, PADSEL at most 0x100; so PRESET never fails. -/
def Obligations.EveryPresetSatisfiesEveryInvariant : Prop :=
  (∀ id : BitVec 2,
    (presetRom id).alphabet.length = 64 ∧ (presetRom id).alphabet.Nodup
      ∧ 0x0A#8 ∉ (presetRom id).alphabet ∧ 0x0D#8 ∉ (presetRom id).alphabet
      ∧ 0x3D#8 ∉ (presetRom id).alphabet
      ∧ ((presetRom id).padsel = 0x03D#9 ∨ (presetRom id).padsel = 0x100#9)
      ∧ invariantMask (presetRom id).alphabet (presetRom id).padsel = 0)
    ∧ ∀ (s t : State) (id : BitVec 2), exec (.preset id) s = .next t → t.result = .ok

/-- R140 (the completion of PRESET): from every state it answers a next state with RESULT = OK, CFGERR = 0, CFG_VALID = 1, and
the ROM's alphabet, padding and strict flag; everything else is unchanged. -/
def Obligations.PresetLoadsTheRomEntry : Prop :=
  ∀ (s : State) (id : BitVec 2), ∃ t, exec (.preset id) s = .next t
    ∧ t.result = .ok ∧ t.busy = false ∧ t.cfgerr = 0 ∧ t.cfgValid = true
    ∧ t.pad = (if id = 0#2 ∨ id = 1#2 then 0x03D#9 else 0x100#9) ∧ t.strict = false
    ∧ t.encTab.toList = (if id = 0#2 ∨ id = 2#2 then stdAlphabet else urlAlphabet)
    ∧ s.ConfigFrame t

/-- R142: the decode tables of the presets, in full. -/
def Obligations.PresetDecodeTables : Prop :=
  ∀ (s t : State) (id : BitVec 2), exec (.preset id) s = .next t →
    (∀ k, k < 26 → t.decEntry (BitVec.ofNat 8 (0x41 + k)) = BitVec.ofNat 8 k)
      ∧ (∀ k, k < 26 → t.decEntry (BitVec.ofNat 8 (0x61 + k)) = BitVec.ofNat 8 (26 + k))
      ∧ (∀ k, k < 10 → t.decEntry (BitVec.ofNat 8 (0x30 + k)) = BitVec.ofNat 8 (52 + k))
      ∧ (id = 0#2 ∨ id = 2#2 → t.decEntry 0x2B#8 = 62#8 ∧ t.decEntry 0x2F#8 = 63#8
          ∧ t.classOf 0x2D#8 = .bad ∧ t.classOf 0x5F#8 = .bad)
      ∧ (id = 1#2 ∨ id = 3#2 → t.decEntry 0x2D#8 = 62#8 ∧ t.decEntry 0x5F#8 = 63#8
          ∧ t.classOf 0x2B#8 = .bad ∧ t.classOf 0x2F#8 = .bad)
      ∧ (∀ b : Byte, b ∉ (if id = 0#2 ∨ id = 2#2 then stdAlphabet else urlAlphabet) → t.decEntry b = 0xFF#8)

/-! ## Data encodings (30_encoding.md part B) -/

/-- R114: the 24-bit group is {byte0, byte1, byte2} and {sym0, sym1, sym2, sym3}, byte k at bits 23 - 8k : 16 - 8k and symbol j
at bits 23 - 6j : 18 - 6j. -/
def Obligations.GroupLayout : Prop :=
  (∀ b0 b1 b2 : Byte, packBytes b0 b1 b2 = (b0 ++ b1 ++ b2 : BitVec (8 + 8 + 8))
      ∧ groupByte (packBytes b0 b1 b2) 0 = b0 ∧ groupByte (packBytes b0 b1 b2) 1 = b1
      ∧ groupByte (packBytes b0 b1 b2) 2 = b2)
    ∧ ∀ s0 s1 s2 s3 : Sym, packSyms s0 s1 s2 s3 = (s0 ++ s1 ++ s2 ++ s3 : BitVec (6 + 6 + 6 + 6))
      ∧ groupSym (packSyms s0 s1 s2 s3) 0 = s0 ∧ groupSym (packSyms s0 s1 s2 s3) 1 = s1
      ∧ groupSym (packSyms s0 s1 s2 s3) 2 = s2 ∧ groupSym (packSyms s0 s1 s2 s3) 3 = s3

/-- R113: in a valid instance the classes SYM, LB and PAD are disjoint, so the order of the three tests does not matter; with
PAD = NONE no byte is of class PAD. -/
def Obligations.ByteClassesAreDisjoint : Prop :=
  ∀ (s : State) (b : Byte), s.InstanceOk →
    (s.decEntry b ≠ 0xFF#8 → isLineBreak b = false ∧ ¬(s.pad ≠ padNone ∧ b = s.padByte))
      ∧ ¬(isLineBreak b = true ∧ s.pad ≠ padNone ∧ b = s.padByte)
      ∧ (∀ v, s.classOf b = .sym v ↔ s.decEntry b = v.setWidth 8)
      ∧ (s.classOf b = .lb ↔ isLineBreak b = true)
      ∧ (s.classOf b = .pad ↔ s.pad ≠ padNone ∧ b = s.padByte)
      ∧ (s.classOf b = .bad ↔
          s.decEntry b = 0xFF#8 ∧ isLineBreak b = false ∧ ¬(s.pad ≠ padNone ∧ b = s.padByte))

/-! ## ENCODE (41_encoder.md) -/

/-- R160 with R163 to R167 (the completion of ENCODE and the refinement of its engine): an admitted ENCODE answers a next state
with RESULT = OK, OUTLEN the number of bytes that the slices of R163 and the pads of R167 give, those bytes at OBUF[0 ..
OUTLEN - 1], ERRPOS and ERRCAUSE 0, and everything else unchanged. OBUF lists nothing at OUTLEN and above: R62 calls those
bytes unspecified, and listing nothing is how the model says so (log entry 3). -/
def Obligations.EncodeWritesTheEncodedBytes : Prop :=
  ∀ s : State, s.ParamsOk → s.Admitted →
    ∃ t, exec .encode s = .next t
      ∧ t.result = .ok ∧ t.busy = false ∧ t.errpos = 0 ∧ t.errcause = .none
      ∧ t.outlen.toNat = (encodedBytes s s.input).length
      ∧ t.output = encodedBytes s s.input
      ∧ (∀ i, t.outlen.toNat ≤ i → Mem.read t.obuf i = none)
      ∧ s.CodecFrame t

/-- R161: OUTLEN = ⌈INLEN / 3⌉ × 4 with padding enabled, ⌈INLEN × 8 / 6⌉ without; in both cases at most OUT_MAX. -/
def Obligations.EncodeOutputLength : Prop :=
  ∀ s : State, s.ParamsOk → s.Admitted →
    ∃ t, exec .encode s = .next t ∧ t.result = .ok
      ∧ (s.padEnabled = true → t.outlen.toNat = (s.inlen.toNat + 2) / 3 * 4)
      ∧ (s.padEnabled = false → t.outlen.toNat = (s.inlen.toNat * 8 + 5) / 6)
      ∧ t.outlen.toNat ≤ outMax s.inMax

/-- R164 to R167: chunk by chunk, what stands in OBUF: the four slices of each full chunk; after a final chunk of 2 bytes three
slices and, with padding enabled, one pad byte; after a final chunk of 1 byte two slices and two pad bytes; after neither,
nothing. The unused low bits of the last slice are 0. -/
def Obligations.EncodeChunkByChunk : Prop :=
  ∀ s t : State, s.ParamsOk → s.Admitted → exec .encode s = .next t →
    (∀ j k, j < s.inlen.toNat / 3 → k < 4 →
      t.byteAt .obuf (4 * j + k)
        = s.encSym (groupSym (packBytes (s.byteAt .ibuf (3 * j)) (s.byteAt .ibuf (3 * j + 1))
            (s.byteAt .ibuf (3 * j + 2))) k))
    ∧ (s.inlen.toNat % 3 = 0 → t.outlen.toNat = 4 * (s.inlen.toNat / 3))
    ∧ (s.inlen.toNat % 3 = 2 →
        (∀ k, k < 3 →
          t.byteAt .obuf (4 * (s.inlen.toNat / 3) + k)
            = s.encSym (groupSym (packBytes (s.byteAt .ibuf (3 * (s.inlen.toNat / 3)))
                (s.byteAt .ibuf (3 * (s.inlen.toNat / 3) + 1)) 0) k))
        ∧ (groupSym (packBytes (s.byteAt .ibuf (3 * (s.inlen.toNat / 3)))
            (s.byteAt .ibuf (3 * (s.inlen.toNat / 3) + 1)) 0) 2).extractLsb' 0 2 = 0#2
        ∧ t.outlen.toNat = 4 * (s.inlen.toNat / 3) + 3 + (if s.padEnabled then 1 else 0)
        ∧ (s.padEnabled = true → t.byteAt .obuf (4 * (s.inlen.toNat / 3) + 3) = s.padByte))
    ∧ (s.inlen.toNat % 3 = 1 →
        (∀ k, k < 2 →
          t.byteAt .obuf (4 * (s.inlen.toNat / 3) + k)
            = s.encSym (groupSym (packBytes (s.byteAt .ibuf (3 * (s.inlen.toNat / 3))) 0 0) k))
        ∧ (groupSym (packBytes (s.byteAt .ibuf (3 * (s.inlen.toNat / 3))) 0 0) 1).extractLsb' 0 4 = 0#4
        ∧ t.outlen.toNat = 4 * (s.inlen.toNat / 3) + 2 + (if s.padEnabled then 2 else 0)
        ∧ (s.padEnabled = true →
            t.byteAt .obuf (4 * (s.inlen.toNat / 3) + 2) = s.padByte
              ∧ t.byteAt .obuf (4 * (s.inlen.toNat / 3) + 3) = s.padByte))

/-- R169 (b): under a valid instance every output byte of ENCODE is of class SYM except the last 0, 1 or 2 bytes, which are of
class PAD exactly when padding is enabled and INLEN mod 3 is 0, 2 or 1; no output byte is a line break. -/
def Obligations.EncodeOutputClasses : Prop :=
  ∀ s t : State, s.ParamsOk → s.Admitted → s.InstanceOk → exec .encode s = .next t →
    ∃ vs : List Sym, t.output.map s.classOf
        = vs.map ByteClass.sym
          ++ List.replicate (if s.padEnabled then padCount s.inlen.toNat else 0) ByteClass.pad
      ∧ ∀ b ∈ t.output, isLineBreak b = false

/-- R162: the chunks are independent: for an input `X ++ Y` with the length of `X` a multiple of 3, the output is the output
for `X` followed by the output for `Y`. -/
def Obligations.EncodeChunksAreIndependent : Prop :=
  ∀ s x y t tx ty : State, s.ParamsOk → x.ParamsOk → y.ParamsOk → s.Admitted → x.Admitted → y.Admitted →
    s.SameConfig x → s.SameConfig y → s.input = x.input ++ y.input → x.inlen.toNat % 3 = 0 →
    exec .encode s = .next t → exec .encode x = .next tx → exec .encode y = .next ty →
      t.output = tx.output ++ ty.output

/-! ## DECODE (42_decoder.md) -/

/-- R229 with R190 and R225 (the completion of DECODE): an admitted DECODE of an input in the accepted language answers a next
state with RESULT = OK, OUTLEN and OBUF what the symbols alone decode to, ERRPOS and ERRCAUSE 0, everything else unchanged;
and it answers RESULT = OK on no other input. OBUF lists nothing at OUTLEN and above: R62 calls those bytes unspecified, and
listing nothing is how the model says so (log entry 3). -/
def Obligations.DecodeAcceptsExactlyTheLanguage : Prop :=
  ∀ s : State, s.Admitted →
    (∀ vs, Accepted s s.input vs →
      ∃ t, exec .decode s = .next t
        ∧ t.result = .ok ∧ t.busy = false ∧ t.errpos = 0 ∧ t.errcause = .none
        ∧ t.outlen.toNat = (bytesOf vs).length ∧ t.output = bytesOf vs
        ∧ (∀ i, t.outlen.toNat ≤ i → Mem.read t.obuf i = none)
        ∧ s.CodecFrame t)
    ∧ (∀ t, exec .decode s = .next t → t.result = .ok → ∃ vs, Accepted s s.input vs)

/-- R227: DECODE's engine, bulk path and working registers, computes what the state table of R227 computes: the same cause at
the same reference position (the table of R257), or the same output bytes. -/
def Obligations.DecodeIsTheStateMachine : Prop :=
  ∀ s : State, engineView (decodeRun s) = fsmView (Fsm.run s 0 s.input Fsm.start)

/-- R196: with the bulk path removed DECODE gives the same outcome: the same error with the same position state (so the same
ERRCAUSE and, under any ERRPOS_POLICY, the same ERRPOS), or the same OUTLEN and output bytes. That ERRPOS agrees rests on the
model's choice that D_LASTPOS is no part of what a policy may look at (log entry 7). -/
def Obligations.BulkPathIsNotObservable : Prop :=
  ∀ s : State,
    (decodeRunWith true s).map (fun r => (r.work.dOpos, r.obuf))
      = (decodeRunWith false s).map (fun r => (r.work.dOpos, r.obuf))

/-- R191, R192: at every pass of the outer loop, and at a failure, D_OPOS ≤ D_OLIM, where D_OLIM is ⌊INLEN / 4⌋ × 3 with
padding enabled and ⌊INLEN × 6 / 8⌋ without. -/
def Obligations.DecodeKeepsWithinItsOutputBound : Prop :=
  ∀ (s : State) (fuel : Nat),
    (outputBound s).toNat = (if s.padEnabled then s.inlen.toNat / 4 * 3 else s.inlen.toNat * 6 / 8)
      ∧ (∀ r, decLoop true s fuel (decStart s) = .ok r →
          r.work.dOpos.toNat ≤ (outputBound s).toNat ∧ r.work.dOlim = outputBound s)
      ∧ (∀ e, decLoop true s fuel (decStart s) = .error e → e.trigger.dOpos.toNat ≤ (outputBound s).toNat)

/-- R228, R293, R40: after any number of passes of the outer loop, and at a failure, D_POS does not exceed INLEN, and one more
pass does not move it back; when DECODE succeeds it is INLEN; the loop ends within INLEN passes: more fuel changes nothing. -/
def Obligations.DecodeConsumesTheWholeInput : Prop :=
  ∀ s : State,
    (∀ fuel r, decLoop true s fuel (decStart s) = .ok r → r.work.dPos.toNat ≤ s.inlen.toNat)
      ∧ (∀ fuel e, decLoop true s fuel (decStart s) = .error e → e.trigger.dPos.toNat ≤ s.inlen.toNat)
      ∧ (∀ fuel r r', decLoop true s fuel (decStart s) = .ok r → decLoop true s (fuel + 1) (decStart s) = .ok r' →
          r.work.dPos.toNat ≤ r'.work.dPos.toNat)
      ∧ (∀ r, decodeRun s = .ok r → r.work.dPos = s.inlen)
      ∧ (∀ fuel, s.inlen.toNat ≤ fuel → decLoop true s fuel (decStart s) = decodeRun s)

/-- R226, R252: a DECODE whose engine fails writes RESULT <- DECODE_ERROR, ERRCAUSE <- the cause, ERRPOS <- the position, makes
OUTLEN and every byte of OBUF unspecified (free values), and changes nothing else; the instance stays valid. -/
def Obligations.FailedDecodeLeavesOutputUnspecified : Prop :=
  ∀ (s : State) (e : DecErr), s.Admitted → decodeRun s = .error e →
    ∃ t, exec .decode s = .next t
      ∧ t.result = .decodeError ∧ t.busy = false ∧ t.errcause = e.cause ∧ t.errpos = errPosOf e
      ∧ t.outlen = Config.free 32 s.draws .outlen
      ∧ (∀ i, t.byteAt .obuf i = Config.free 8 t.draws (.bufByte .obuf i))
      ∧ s.CodecFrame t

/-- R204, R256: the first BAD byte, with only symbols and line breaks before it, fails with INVALID_BYTE at its own index,
whatever ERRPOS_POLICY is. -/
def Obligations.BadByteIsInvalidByte : Prop :=
  ∀ (s : State) (i : Nat), s.Admitted → i < s.inlen.toNat → s.classOf (s.byteAt .ibuf i) = .bad →
    (∀ j, j < i → s.classOf (s.byteAt .ibuf j) = .lb ∨ ∃ v, s.classOf (s.byteAt .ibuf j) = .sym v) →
      ∃ t, exec .decode s = .next t ∧ t.result = .decodeError ∧ t.errcause = .invalidByte ∧ t.errpos.toNat = i
        ∧ s.CodecFrame t

/-- R205: a pad byte met after 0 or 1 symbols of its quantum, whatever line breaks stand around, fails with PAD_EARLY. -/
def Obligations.PadBeforeSlotTwoIsEarly : Prop :=
  ∀ (s : State) (vs : List Sym) (rest : List ByteClass), s.Admitted →
    significant s s.input = vs.map ByteClass.sym ++ .pad :: rest → vs.length % 4 < 2 →
      ∃ t, exec .decode s = .next t ∧ t.result = .decodeError ∧ t.errcause = .padEarly ∧ s.CodecFrame t

/-- R206: after a pad byte at slot 2, the end of the input or any byte that is neither a line break nor the pad byte fails with
PAD_INCOMPLETE, a BAD byte included (R223). -/
def Obligations.MissingSecondPadIsIncomplete : Prop :=
  ∀ (s : State) (vs : List Sym) (rest : List ByteClass), s.Admitted →
    significant s s.input = vs.map ByteClass.sym ++ .pad :: rest → vs.length % 4 = 2 → rest.head? ≠ some .pad →
      ∃ t, exec .decode s = .next t ∧ t.result = .decodeError ∧ t.errcause = .padIncomplete ∧ s.CodecFrame t

/-- R207, R208: after the final pad byte, reached by the slot-2 path or by the slot-3 path, any byte that is not a line break
fails with TRAILING_DATA, a BAD byte or a third pad byte included, and before any strict check (R223). -/
def Obligations.DataAfterPaddingIsTrailing : Prop :=
  ∀ (s : State) (vs : List Sym) (c : ByteClass) (rest : List ByteClass), s.Admitted →
    ((vs.length % 4 = 2 ∧ significant s s.input = vs.map ByteClass.sym ++ .pad :: .pad :: c :: rest)
      ∨ (vs.length % 4 = 3 ∧ significant s s.input = vs.map ByteClass.sym ++ .pad :: c :: rest)) →
      ∃ t, exec .decode s = .next t ∧ t.result = .decodeError ∧ t.errcause = .trailingData ∧ s.CodecFrame t

/-- R211, R213: an input that ends with 1 symbol in its last quantum, or with 2 or 3 and no padding while padding is enabled,
fails with TRUNCATED, strict or not. -/
def Obligations.UnfinishedQuantumIsTruncated : Prop :=
  ∀ (s : State) (vs : List Sym), s.Admitted → significant s s.input = vs.map ByteClass.sym →
    (vs.length % 4 = 1 ∨ (s.padEnabled = true ∧ (vs.length % 4 = 2 ∨ vs.length % 4 = 3))) →
      ∃ t, exec .decode s = .next t ∧ t.result = .decodeError ∧ t.errcause = .truncated ∧ s.CodecFrame t

/-- R222, R230 (c): an input of the form R229 allows fails with NONCANONICAL when STRICT = 1 and its last group is partial with
non-zero unused bits; in every other case (STRICT = 0, unused bits 0, or no partial group) it decodes to what its symbols
give, so in non-strict mode the unused bits are dropped. -/
def Obligations.StrictModeRejectsNonCanonicalInput : Prop :=
  ∀ (s : State) (vs : List Sym), s.Admitted → HasForm s s.input vs →
    ∃ t, exec .decode s = .next t ∧ s.CodecFrame t
      ∧ (s.strict = true ∧ unusedZero (tailOf vs) = false → t.result = .decodeError ∧ t.errcause = .noncanonical)
      ∧ (¬(s.strict = true ∧ unusedZero (tailOf vs) = false) → t.result = .ok ∧ t.output = bytesOf vs)

/-- R230 (a): round trip. Under every valid instance, strict or not, ENCODE then OUT2IN then DECODE ends with RESULT = OK,
OUTLEN = the original INLEN and the output equal to the original input, for every input whose encoding fits IBUF. -/
def Obligations.DecodeOfEncodeIsTheInput : Prop :=
  ∀ s t : State, s.ParamsOk → s.Admitted → s.InstanceOk → exec .encode s = .next t → t.outlen.toNat ≤ s.inMax →
    ∃ u, exec .decode t.outToIn = .next u ∧ u.result = .ok ∧ u.outlen = s.inlen ∧ u.output = s.input

/-- R230 (b), R203: line-break tolerance. Two inputs that differ only in their line breaks, wherever they stand, have the same
RESULT and ERRCAUSE under the same instance, and when they decode, the same output. -/
def Obligations.LineBreaksDoNotChangeTheResult : Prop :=
  ∀ s s' t t' : State, s.Admitted → s'.Admitted → s.SameConfig s' →
    s.input.filter (fun b => s.classOf b ≠ .lb) = s'.input.filter (fun b => s'.classOf b ≠ .lb) →
    exec .decode s = .next t → exec .decode s' = .next t' →
      t.result = t'.result ∧ t.errcause = t'.errcause ∧ (t.result = .ok → t.output = t'.output)

/-! ## The whole machine -/

/-- R26: in every step, the configuration state changes only by the reset input or by a CONFIGURE or PRESET command: ENCODE,
DECODE, refused commands and every other access of the host write none of it. -/
def Obligations.OnlyConfigurationCommandsWriteTheInstance : Prop :=
  ∀ s t : State, step s = .next t →
    s.SameConfig t
      ∨ (∃ rest, s.host = .reset :: rest)
      ∨ (∃ w rest, s.host = .writeReg (.cmd w) :: rest
          ∧ ((∃ st p, decode w = .ok (.configure st p)) ∨ (∃ id, decode w = .ok (.preset id))))

/-- R41: RESULT, ERRCAUSE, ERRPOS, CFGERR, OUTLEN and OBUF are outputs only: a command run from two states that differ in
nothing else ends with the same RESULT and the same configuration state, and an ENCODE or DECODE that ends in OK with the
same OUTLEN and OBUF. -/
def Obligations.ResultRegistersAreOutputsOnly : Prop :=
  ∀ (i : Instr) (s t t' : State) (r : ResultCode) (c : ErrCause) (ep : Len) (ce : BitVec 6) (ol : Len) (ob : Mem),
    exec i s = .next t →
    exec i { s with result := r, errcause := c, errpos := ep, cfgerr := ce, outlen := ol, obuf := ob } = .next t' →
      t'.result = t.result ∧ t.SameConfig t'
        ∧ ((i = .encode ∨ i = .decode) → t.result = .ok → t'.outlen = t.outlen ∧ t'.obuf = t.obuf)
        ∧ (t.result = .decodeError → t'.errcause = t.errcause ∧ t'.errpos = t.errpos)

/-- R36: no engine state survives a command: what ENCODE and DECODE compute depends only on the configuration state, INLEN and
IBUF[0 .. INLEN - 1]. Two states that agree on those, whatever their working registers and all else, give the same output, or
the same error at the same position. -/
def Obligations.EnginesDependOnConfigurationAndInputOnly : Prop :=
  ∀ s s' : State, s.SameConfig s' → s'.inlen = s.inlen → s'.input = s.input →
    (encodeRun s').work.eOpos = (encodeRun s).work.eOpos ∧ (encodeRun s').obuf = (encodeRun s).obuf
      ∧ (decodeRun s').map (fun r => (r.work.dOpos, r.obuf))
          = (decodeRun s).map (fun r => (r.work.dOpos, r.obuf))

/-- R6: no step writes the parameter IN_MAX. (Its place in State is the model's choice, log entry 4.) -/
def Obligations.NoStepWritesInMax : Prop :=
  ∀ s t : State, step s = .next t → t.inMax = s.inMax

/-- The invariant (R22, R23, R25, R60 to R62, canonical buffers, BUSY = 0, IN_MAX in range) holds at reset. IN_MAX = 2^28 there
is the model's choice (log entry 4). -/
def Obligations.InvariantHoldsAtReset : Prop := State.reset.Inv

/-- R25 with R22, R23, R134: every step from a state whose configuration is sound leaves a sound one: while CFG_VALID = 1 the
instance is valid. -/
def Obligations.StepKeepsTheConfigurationSound : Prop :=
  ∀ s t : State, s.ConfigOk → step s = .next t → t.ConfigOk

/-- Every step keeps the three buffers in canonical form (indices strictly rising). -/
def Obligations.StepKeepsBuffersCanonical : Prop :=
  ∀ s t : State, s.BuffersWf → step s = .next t → t.BuffersWf

/-- R60 to R62, R68: every step keeps every listed index below its buffer's capacity: no command and no access of the host
writes beyond 254, IN_MAX - 1 or OUT_MAX - 1. -/
def Obligations.StepKeepsBuffersWithinCapacity : Prop :=
  ∀ s t : State, s.ParamsOk → s.BuffersFit → step s = .next t → t.BuffersFit

/-- R11, R293: a step from a state with no command running leaves none running: BUSY = 1 is never seen between two accesses. -/
def Obligations.NoStepLeavesACommandRunning : Prop :=
  ∀ s t : State, s.busy = false → step s = .next t → t.busy = false

/-- R293 (every command completes), with R60 to R62 and U6, U9: from a state with no command running, so that no duty of U6 can
be broken, a step stops only on an access beyond a buffer's capacity. That stop is the model's choice (log entry 9). -/
def Obligations.OnlyAnIndexBeyondCapacityStopsAStep : Prop :=
  ∀ s : State, s.busy = false →
    (∃ t, step s = .next t)
      ∨ (step s = .fault .noSuchIndex
          ∧ ∃ b i rest, s.capacity b ≤ i ∧ (s.host = .readBuf b i :: rest ∨ ∃ v, s.host = .writeBuf b i v :: rest))

/-! ## The position counter of ENCODE (10_state.md R40, 41_encoder.md R162) -/

/-- R40, R162: E_POS advances by 3 per full chunk, ⌊INLEN / 3⌋ times; after the loop INLEN - E_POS = INLEN mod 3, and that is
E_REM; after the final partial chunk E_POS = INLEN, which R40 says and the pseudocode of R160 leaves out (log entry 11). -/
def Obligations.EncodeConsumesTheWholeInput : Prop :=
  ∀ s : State,
    (∀ k, k ≤ s.inlen.toNat / 3 → (encLoop s k (encStart s)).work.ePos.toNat = 3 * k)
      ∧ (s.inlen - (encLoop s (s.inlen.toNat / 3) (encStart s)).work.ePos).toNat = s.inlen.toNat % 3
      ∧ (encodeRun s).work.eRem.toNat = s.inlen.toNat % 3
      ∧ (encodeRun s).work.ePos = s.inlen
end

