-- ==== Sys2Proof/Laws/Group.lean ====
section
/-! SUPPORT. Bit-level laws of the 24-bit group (30_encoding.md R114): the packed group against the slice and byte formulas
of R163 and R220, and the two directions against each other. -/

namespace Sys2Proof.Machine

open Sys2Proof.Codec

theorem groupSym_packBytes_0 (b0 b1 b2 : Byte) : groupSym (packBytes b0 b1 b2) 0 = slice0 b0 := by
  refine BitVec.eq_of_getLsbD_eq fun i hi => ?_
  interval_cases i <;> simp [groupSym, packBytes, slice0]

theorem groupSym_packBytes_1 (b0 b1 b2 : Byte) : groupSym (packBytes b0 b1 b2) 1 = slice1 b0 b1 := by
  refine BitVec.eq_of_getLsbD_eq fun i hi => ?_
  simp only [slice1, BitVec.getLsbD_append]
  interval_cases i <;> simp [groupSym, packBytes]

theorem groupSym_packBytes_2 (b0 b1 b2 : Byte) : groupSym (packBytes b0 b1 b2) 2 = slice2 b1 b2 := by
  refine BitVec.eq_of_getLsbD_eq fun i hi => ?_
  simp only [slice2, BitVec.getLsbD_append]
  interval_cases i <;> simp [groupSym, packBytes]

theorem groupSym_packBytes_3 (b0 b1 b2 : Byte) : groupSym (packBytes b0 b1 b2) 3 = slice3 b2 := by
  refine BitVec.eq_of_getLsbD_eq fun i hi => ?_
  interval_cases i <;> simp [groupSym, packBytes, slice3]

theorem groupByte_packSyms_0 (s0 s1 s2 s3 : Sym) : groupByte (packSyms s0 s1 s2 s3) 0 = byte0 s0 s1 := by
  refine BitVec.eq_of_getLsbD_eq fun i hi => ?_
  simp only [byte0, BitVec.getLsbD_append]
  interval_cases i <;> simp [groupByte, packSyms]

theorem groupByte_packSyms_1 (s0 s1 s2 s3 : Sym) : groupByte (packSyms s0 s1 s2 s3) 1 = byte1 s1 s2 := by
  refine BitVec.eq_of_getLsbD_eq fun i hi => ?_
  simp only [byte1, BitVec.getLsbD_append]
  interval_cases i <;> simp [groupByte, packSyms]

theorem groupByte_packSyms_2 (s0 s1 s2 s3 : Sym) : groupByte (packSyms s0 s1 s2 s3) 2 = byte2 s2 s3 := by
  refine BitVec.eq_of_getLsbD_eq fun i hi => ?_
  simp only [byte2, BitVec.getLsbD_append]
  interval_cases i <;> simp [groupByte, packSyms]

/-- The strict check of R222 on a 2-symbol group is on the 4 low bits of symbol 1. -/
theorem packSyms_low16 (s0 s1 : Sym) :
    ((packSyms s0 s1 0 0).extractLsb' 0 16 = 0#16) ↔ s1.extractLsb' 0 4 = 0#4 := by
  have h : (packSyms s0 s1 0 0).extractLsb' 0 16 = (s1.extractLsb' 0 4 ++ 0#12 : BitVec (4 + 12)) := by
    refine BitVec.eq_of_getLsbD_eq fun i hi => ?_
    simp only [BitVec.getLsbD_append]
    interval_cases i <;> simp [packSyms]
  rw [h]
  generalize s1.extractLsb' 0 4 = x
  revert x
  decide

/-- The strict check of R222 on a 3-symbol group is on the 2 low bits of symbol 2. -/
theorem packSyms_low8 (s0 s1 s2 : Sym) :
    ((packSyms s0 s1 s2 0).extractLsb' 0 8 = 0#8) ↔ s2.extractLsb' 0 2 = 0#2 := by
  have h : (packSyms s0 s1 s2 0).extractLsb' 0 8 = (s2.extractLsb' 0 2 ++ 0#6 : BitVec (2 + 6)) := by
    refine BitVec.eq_of_getLsbD_eq fun i hi => ?_
    simp only [BitVec.getLsbD_append]
    interval_cases i <;> simp [packSyms]
  rw [h]
  generalize s2.extractLsb' 0 2 = x
  revert x
  decide

/-- Decoding the slices of a chunk gives its bytes back (R163, R220). -/
theorem byte0_slices (b0 b1 : Byte) : byte0 (slice0 b0) (slice1 b0 b1) = b0 := by
  refine BitVec.eq_of_getLsbD_eq fun i hi => ?_
  simp only [byte0, slice0, slice1, BitVec.getLsbD_append, BitVec.getLsbD_extractLsb']
  interval_cases i <;> simp

theorem byte1_slices (b0 b1 b2 : Byte) : byte1 (slice1 b0 b1) (slice2 b1 b2) = b1 := by
  refine BitVec.eq_of_getLsbD_eq fun i hi => ?_
  simp only [byte1, slice1, slice2, BitVec.getLsbD_append, BitVec.getLsbD_extractLsb']
  interval_cases i <;> simp

theorem byte2_slices (b1 b2 : Byte) : byte2 (slice2 b1 b2) (slice3 b2) = b2 := by
  refine BitVec.eq_of_getLsbD_eq fun i hi => ?_
  simp only [byte2, slice2, slice3, BitVec.getLsbD_append, BitVec.getLsbD_extractLsb']
  interval_cases i <;> simp

/-- Decoding the symbols of an input gives the input back (the list level of R230 (a)). -/
theorem bytesOf_symbolsOf (bs : List Byte) : bytesOf (symbolsOf bs) = bs := by
  induction bs using symbolsOf.induct with
  | case1 => rfl
  | case2 b0 => simp [symbolsOf, bytesOf, byte0_slices]
  | case3 b0 b1 => simp [symbolsOf, bytesOf, byte0_slices, byte1_slices]
  | case4 b0 b1 b2 rest ih => simp [symbolsOf, bytesOf, byte0_slices, byte1_slices, byte2_slices, ih]

end Sys2Proof.Machine
end

