-- ==== Sys2Proof/Laws/Mem.lean ====
section
/-! SUPPORT. The laws of the byte buffers: read after write, the canonical form kept, indices kept below a capacity, and
consecutive writes. -/

namespace Sys2Proof.Machine

theorem Mem.read_write_same (m : Mem) (i : Nat) (v : Byte) : Mem.read (Mem.write m i v) i = some v := by
  induction m with
  | nil => simp [Mem.write, Mem.read]
  | cons c m ih =>
    obtain ⟨k, x⟩ := c
    simp only [Mem.write]
    split
    · simp [Mem.read]
    · split
      · simp [Mem.read]
      · rename_i _ hne
        simp [Mem.read, Ne.symm hne, ih]

theorem Mem.read_write_ne (m : Mem) {i j : Nat} (v : Byte) (h : j ≠ i) :
    Mem.read (Mem.write m i v) j = Mem.read m j := by
  induction m with
  | nil => simp [Mem.write, Mem.read, Ne.symm h]
  | cons c m ih =>
    obtain ⟨k, x⟩ := c
    simp only [Mem.write]
    split
    · simp [Mem.read, Ne.symm h]
    · split
      · rename_i _ he
        subst he
        simp [Mem.read, Ne.symm h]
      · simp [Mem.read, ih]

/-- A write changes the byte at its own index and no other. -/
theorem Mem.read_write (m : Mem) (i j : Nat) (v : Byte) :
    Mem.read (Mem.write m i v) j = if j = i then some v else Mem.read m j := by
  split
  · rename_i h
    rw [h, Mem.read_write_same]
  · rename_i h
    exact Mem.read_write_ne m v h

/-- Canonical form, said of the whole list at once. -/
theorem Mem.wf_iff (m : Mem) : Mem.wf m = true ↔ List.Pairwise (· < ·) (m.map Prod.fst) := by
  induction m with
  | nil => simp [Mem.wf]
  | cons c m ih =>
    cases m with
    | nil => simp [Mem.wf]
    | cons d m =>
      obtain ⟨i, x⟩ := c
      obtain ⟨j, y⟩ := d
      simp only [Mem.wf, Bool.and_eq_true, decide_eq_true_eq, ih, List.map_cons, List.pairwise_cons,
        List.mem_cons, forall_eq_or_imp]
      constructor
      · rintro ⟨hij, hj, hp⟩
        exact ⟨⟨hij, fun a ha => Nat.lt_trans hij (hj a ha)⟩, hj, hp⟩
      · rintro ⟨⟨hij, -⟩, hj, hp⟩
        exact ⟨hij, hj, hp⟩

/-- What a write lists: the index written and what was listed before. -/
theorem Mem.mem_fst_write (m : Mem) (i : Nat) (v : Byte) (a : Nat) (h : a ∈ (Mem.write m i v).map Prod.fst) :
    a = i ∨ a ∈ m.map Prod.fst := by
  induction m with
  | nil => simpa [Mem.write] using h
  | cons c m ih =>
    obtain ⟨k, x⟩ := c
    simp only [Mem.write] at h
    split at h
    · simpa using h
    · split at h
      · simp only [List.map_cons, List.mem_cons] at h ⊢
        tauto
      · simp only [List.map_cons, List.mem_cons] at h ⊢
        rcases h with h | h
        · exact .inr (.inl h)
        · rcases ih h with h | h
          · exact .inl h
          · exact .inr (.inr h)

/-- A write keeps the canonical form. -/
theorem Mem.wf_write {m : Mem} (h : Mem.wf m = true) (i : Nat) (v : Byte) : Mem.wf (Mem.write m i v) = true := by
  rw [Mem.wf_iff] at h ⊢
  induction m with
  | nil => simp [Mem.write]
  | cons c m ih =>
    obtain ⟨k, x⟩ := c
    simp only [List.map_cons, List.pairwise_cons] at h
    simp only [Mem.write]
    split
    · rename_i hik
      simp only [List.map_cons, List.pairwise_cons, List.mem_cons, forall_eq_or_imp]
      exact ⟨⟨hik, fun a ha => Nat.lt_trans hik (h.1 a ha)⟩, h⟩
    · split
      · rename_i _ he
        subst he
        simpa only [List.map_cons, List.pairwise_cons] using h
      · simp only [List.map_cons, List.pairwise_cons]
        refine ⟨fun a ha => ?_, ih h.2⟩
        rcases Mem.mem_fst_write m i v a ha with ha | ha
        · omega
        · exact h.1 a ha

theorem Mem.wf_writeBytes {m : Mem} (h : Mem.wf m = true) (i : Nat) (vs : List Byte) :
    Mem.wf (Mem.writeBytes m i vs) = true := by
  induction vs generalizing m i with
  | nil => exact h
  | cons v vs ih => exact ih (Mem.wf_write h i v) (i + 1)

theorem Mem.below_write {m : Mem} {n i : Nat} (h : Mem.Below m n) (hi : i < n) (v : Byte) :
    Mem.Below (Mem.write m i v) n := by
  intro c hc
  rcases Mem.mem_fst_write m i v c.1 (List.mem_map_of_mem hc) with he | hm
  · omega
  · obtain ⟨d, hd, he⟩ := List.mem_map.1 hm
    exact he ▸ h d hd

theorem Mem.below_writeBytes {m : Mem} {n i : Nat} (h : Mem.Below m n) (vs : List Byte) (hi : i + vs.length ≤ n) :
    Mem.Below (Mem.writeBytes m i vs) n := by
  induction vs generalizing m i with
  | nil => exact h
  | cons v vs ih =>
    simp only [List.length_cons] at hi
    exact ih (Mem.below_write h (by omega) v) (by omega)

/-- What consecutive writes leave: the bytes written, and every other index as before. -/
theorem Mem.read_writeBytes (m : Mem) (i : Nat) (vs : List Byte) (j : Nat) :
    Mem.read (Mem.writeBytes m i vs) j
      = if h : i ≤ j ∧ j < i + vs.length then some (vs[j - i]'(by omega)) else Mem.read m j := by
  induction vs generalizing m i with
  | nil =>
    simp only [Mem.writeBytes, List.length_nil]
    rw [dif_neg (by omega)]
  | cons v vs ih =>
    simp only [Mem.writeBytes, ih, Mem.read_write, List.length_cons]
    by_cases h1 : j = i
    · subst h1
      rw [dif_neg (by omega), if_pos rfl, dif_pos (by omega)]
      simp
    · by_cases h2 : i + 1 ≤ j ∧ j < i + 1 + vs.length
      · rw [dif_pos h2, dif_pos (by omega)]
        have : j - i = (j - (i + 1)) + 1 := by omega
        simp [this]
      · rw [dif_neg h2, if_neg h1, dif_neg (by omega)]

theorem Mem.writeBytes_append (m : Mem) (i : Nat) (xs ys : List Byte) :
    Mem.writeBytes m i (xs ++ ys) = Mem.writeBytes (Mem.writeBytes m i xs) (i + xs.length) ys := by
  induction xs generalizing m i with
  | nil => simp [Mem.writeBytes]
  | cons x xs ih =>
    simp only [List.cons_append, Mem.writeBytes, ih, List.length_cons]
    congr 1
    omega

/-- A host write of buffer `b` at index `i`, seen byte by byte. -/
theorem State.byteAt_setBuf (s : State) (b c : BufId) (i j : Nat) (v : Byte) :
    (s.setBuf (Mem.write (s.buf b) i v) b).byteAt c j = if c = b ∧ j = i then v else s.byteAt c j := by
  by_cases h : j = i
  · subst h
    cases b <;> cases c <;> simp [State.byteAt, State.setBuf, State.buf, Mem.read_write_same]
  · cases b <;> cases c <;> simp [State.byteAt, State.setBuf, State.buf, Mem.read_write_ne _ _ h, h]

theorem State.reset_buffersWf : State.reset.BuffersWf := ⟨rfl, rfl, rfl⟩

end Sys2Proof.Machine
end

