-- ==== Sys2Proof/Laws/Encoder.lean ====
section
/-! SUPPORT. What the encoder's loop and its final chunk can do (41_encoder.md R160 to R167), in the slices of R163. -/

namespace Sys2Proof.Machine

open Sys2Proof.Codec

/-- Advancing a position register by a small amount does not wrap. -/
theorem toNat_add_of_lt {p : Len} {k : Nat} (h : p.toNat + k < 2 ^ 32) :
    (p + BitVec.ofNat 32 k).toNat = p.toNat + k := by
  rw [BitVec.toNat_add, BitVec.toNat_ofNat, Nat.mod_eq_of_lt (by omega : k < 2 ^ 32), Nat.mod_eq_of_lt h]

/-- The four output bytes of the full chunk that starts at index `p`. -/
def chunkBytes (s : State) (p : Nat) : List Byte :=
  [s.encSym (slice0 (s.byteAt .ibuf p)), s.encSym (slice1 (s.byteAt .ibuf p) (s.byteAt .ibuf (p + 1))),
    s.encSym (slice2 (s.byteAt .ibuf (p + 1)) (s.byteAt .ibuf (p + 2))), s.encSym (slice3 (s.byteAt .ibuf (p + 2)))]

/-- The output bytes of `n` full chunks from index `p` on. -/
def chunksBytes (s : State) : Nat → Nat → List Byte
  | _, 0 => []
  | p, n + 1 => chunkBytes s p ++ chunksBytes s (p + 3) n

@[simp] theorem length_chunksBytes (s : State) (p n : Nat) : (chunksBytes s p n).length = 4 * n := by
  induction n generalizing p with
  | zero => rfl
  | succ n ih =>
    simp only [chunksBytes, chunkBytes, List.length_append, List.length_cons, List.length_nil, ih]
    omega

/-- One pass of the encoder's loop: 3 bytes consumed, the chunk's 4 bytes written. -/
theorem encChunk_spec (s : State) (r : Run) (hp : r.work.ePos.toNat + 3 < 2 ^ 32)
    (ho : r.work.eOpos.toNat + 4 < 2 ^ 32) :
    (encChunk s r).work.ePos.toNat = r.work.ePos.toNat + 3
      ∧ (encChunk s r).work.eOpos.toNat = r.work.eOpos.toNat + 4
      ∧ (encChunk s r).obuf = Mem.writeBytes r.obuf r.work.eOpos.toNat (chunkBytes s r.work.ePos.toNat) := by
  have h1 : (r.work.ePos + 1).toNat = r.work.ePos.toNat + 1 := toNat_add_of_lt (k := 1) (by omega)
  have h2 : (r.work.ePos + 2).toNat = r.work.ePos.toNat + 2 := toNat_add_of_lt (k := 2) (by omega)
  refine ⟨toNat_add_of_lt (k := 3) hp, toNat_add_of_lt (k := 4) ho, ?_⟩
  simp only [encChunk, chunkBytes, State.inByte, h1, h2, groupSym_packBytes_0, groupSym_packBytes_1,
    groupSym_packBytes_2, groupSym_packBytes_3]

/-- `n` passes of the encoder's loop, where `n` full chunks are left and at most 2 bytes after them. -/
theorem encLoop_spec (s : State) (n : Nat) (r : Run) (hn : r.work.ePos.toNat + 3 * n ≤ s.inlen.toNat)
    (hlen : s.inlen.toNat + 4 < 2 ^ 32) (ho : r.work.eOpos.toNat + 4 * n < 2 ^ 32) :
    (encLoop s n r).work.ePos.toNat = r.work.ePos.toNat + 3 * n
      ∧ (encLoop s n r).work.eOpos.toNat = r.work.eOpos.toNat + 4 * n
      ∧ (encLoop s n r).obuf = Mem.writeBytes r.obuf r.work.eOpos.toNat (chunksBytes s r.work.ePos.toNat n) := by
  induction n generalizing r with
  | zero => exact ⟨rfl, rfl, rfl⟩
  | succ n ih =>
    have hsub : (s.inlen - r.work.ePos).toNat = s.inlen.toNat - r.work.ePos.toNat :=
      BitVec.toNat_sub_of_le (BitVec.le_def.2 (by omega))
    obtain ⟨c1, c2, c3⟩ := encChunk_spec s r (by omega) (by omega)
    obtain ⟨d1, d2, d3⟩ := ih (encChunk s r) (by omega) (by omega)
    rw [encLoop, if_pos (by omega)]
    refine ⟨by omega, by omega, ?_⟩
    rw [d3, c3, c1, c2, chunksBytes, Mem.writeBytes_append]
    rfl

/-- Two bytes left, both consumed (R40): three slices, and one pad byte with padding enabled (R165, R167). -/
theorem encFinal_two (s : State) (r : Run) (h : (s.inlen - r.work.ePos).setWidth 2 = 2#2)
    (hp : r.work.ePos.toNat + 1 < 2 ^ 32) :
    (encFinal s r).obuf = Mem.writeBytes r.obuf r.work.eOpos.toNat
        ([s.encSym (slice0 (s.byteAt .ibuf r.work.ePos.toNat)),
          s.encSym (slice1 (s.byteAt .ibuf r.work.ePos.toNat) (s.byteAt .ibuf (r.work.ePos.toNat + 1))),
          s.encSym (slice2 (s.byteAt .ibuf (r.work.ePos.toNat + 1)) 0)]
          ++ if s.padEnabled then [s.padByte] else [])
      ∧ (encFinal s r).work.eOpos = r.work.eOpos + BitVec.ofNat 32 (3 + if s.padEnabled then 1 else 0)
      ∧ (encFinal s r).work.ePos = r.work.ePos + 2 := by
  have h1 : (r.work.ePos + 1).toNat = r.work.ePos.toNat + 1 := toNat_add_of_lt (k := 1) hp
  simp only [encFinal, h, if_true, encTail, State.inByte, h1, groupSym_packBytes_0, groupSym_packBytes_1,
    groupSym_packBytes_2]
  refine ⟨trivial, ?_, rfl⟩
  cases s.padEnabled <;> simp

/-- One byte left, consumed (R40): two slices, and two pad bytes with padding enabled (R166, R167). -/
theorem encFinal_one (s : State) (r : Run) (h : (s.inlen - r.work.ePos).setWidth 2 = 1#2) :
    (encFinal s r).obuf = Mem.writeBytes r.obuf r.work.eOpos.toNat
        ([s.encSym (slice0 (s.byteAt .ibuf r.work.ePos.toNat)),
          s.encSym (slice1 (s.byteAt .ibuf r.work.ePos.toNat) 0)]
          ++ if s.padEnabled then [s.padByte, s.padByte] else [])
      ∧ (encFinal s r).work.eOpos = r.work.eOpos + BitVec.ofNat 32 (2 + if s.padEnabled then 2 else 0)
      ∧ (encFinal s r).work.ePos = r.work.ePos + 1 := by
  simp only [encFinal, h, show ¬((1#2 : BitVec 2) = 2#2) by decide, if_false, if_true, encTail, State.inByte,
    groupSym_packBytes_0, groupSym_packBytes_1]
  refine ⟨trivial, ?_, rfl⟩
  cases s.padEnabled <;> simp

/-- Nothing left: nothing is written (R167) and nothing is consumed. -/
theorem encFinal_zero (s : State) (r : Run) (h : (s.inlen - r.work.ePos).setWidth 2 = 0#2) :
    (encFinal s r).obuf = r.obuf ∧ (encFinal s r).work.eOpos = r.work.eOpos
      ∧ (encFinal s r).work.ePos = r.work.ePos := by
  simp only [encFinal, h, show ¬((0#2 : BitVec 2) = 2#2) by decide, show ¬((0#2 : BitVec 2) = 1#2) by decide, if_false]
  exact ⟨trivial, trivial, trivial⟩

end Sys2Proof.Machine
end

