-- ==== Sys2Proof/Laws/Decoder.lean ====
section
/-! SUPPORT. What each part of the decoder can do (42_decoder.md R190 to R228): one lemma per function, and the position
laws of its loops. -/

namespace Sys2Proof.Machine

open Sys2Proof.Codec

/-- Advancing a position below INLEN by one does not wrap and stays within INLEN. -/
theorem toNat_succ_of_lt {p n : Len} (h : p.toNat < n.toNat) : (p + 1).toNat = p.toNat + 1 := by
  have := n.isLt
  exact toNat_add_of_lt (k := 1) (by omega)

/-- Skipping line breaks (R206, R208): from `p` up to the first byte that is no line break, or to the end of the input. -/
theorem skipLb_spec (s : State) (fuel : Nat) (p : Len) (hp : p.toNat ≤ s.inlen.toNat)
    (hf : s.inlen.toNat - p.toNat ≤ fuel) :
    p.toNat ≤ (skipLb s fuel p).toNat ∧ (skipLb s fuel p).toNat ≤ s.inlen.toNat
      ∧ (∀ i, p.toNat ≤ i → i < (skipLb s fuel p).toNat → s.classOf (s.byteAt .ibuf i) = .lb)
      ∧ ((skipLb s fuel p).toNat < s.inlen.toNat → s.classOf (s.byteAt .ibuf (skipLb s fuel p).toNat) ≠ .lb) := by
  induction fuel generalizing p with
  | zero => exact ⟨Nat.le_refl _, hp, fun i h1 h2 => by simp only [skipLb] at h2; omega, fun h => by
      simp only [skipLb] at h; omega⟩
  | succ fuel ih =>
    rw [skipLb]
    split
    · rename_i h
      have h1 := toNat_succ_of_lt h.1
      obtain ⟨i1, i2, i3, i4⟩ := ih (p + 1) (by omega) (by omega)
      refine ⟨by omega, i2, fun i hi hlt => ?_, i4⟩
      by_cases he : i = p.toNat
      · exact he ▸ h.2
      · exact i3 i (by omega) hlt
    · rename_i h
      refine ⟨Nat.le_refl _, hp, fun i h1 h2 => by omega, fun hlt hc => h ⟨hlt, hc⟩⟩

/-- After the final pad byte (R208): the end of the input, or a byte that is no line break. -/
theorem padFinal_cases (s : State) (w : Work) :
    ((skipLb s (decFuel s) w.dPos).toNat < s.inlen.toNat
        ∧ padFinal s w = .error (decErr s { w with dPos := skipLb s (decFuel s) w.dPos } .trailingData
            (skipLb s (decFuel s) w.dPos)))
      ∨ (¬ (skipLb s (decFuel s) w.dPos).toNat < s.inlen.toNat
        ∧ padFinal s w = .ok { w with dPos := skipLb s (decFuel s) w.dPos, dDlen := w.dSlot, dEnd := true }) := by
  unfold padFinal
  by_cases h : (skipLb s (decFuel s) w.dPos).toNat < s.inlen.toNat
  · exact .inl ⟨h, if_pos h⟩
  · exact .inr ⟨h, if_neg h⟩

/-- After a pad byte at slot 2 (R206): the end of the input, a byte that is not the pad byte, or the second pad byte. -/
theorem padSecond_cases (s : State) (w : Work) :
    (skipLb s (decFuel s) w.dPos = s.inlen
        ∧ padSecond s w = .error (decErr s { w with dPos := skipLb s (decFuel s) w.dPos } .padIncomplete s.inlen))
      ∨ (skipLb s (decFuel s) w.dPos ≠ s.inlen
        ∧ s.classOf (s.inByte (skipLb s (decFuel s) w.dPos)) ≠ .pad
        ∧ padSecond s w = .error (decErr s { w with dPos := skipLb s (decFuel s) w.dPos } .padIncomplete
            (skipLb s (decFuel s) w.dPos)))
      ∨ (skipLb s (decFuel s) w.dPos ≠ s.inlen
        ∧ s.classOf (s.inByte (skipLb s (decFuel s) w.dPos)) = .pad
        ∧ padSecond s w = padFinal s { w with dPos := skipLb s (decFuel s) w.dPos + 1 }) := by
  unfold padSecond
  by_cases h : skipLb s (decFuel s) w.dPos = s.inlen
  · exact .inl ⟨h, if_pos h⟩
  · by_cases hc : s.classOf (s.inByte (skipLb s (decFuel s) w.dPos)) = .pad
    · exact .inr (.inr ⟨h, hc, (if_neg h).trans (if_neg (not_not_intro hc))⟩)
    · exact .inr (.inl ⟨h, hc, (if_neg h).trans (if_pos hc)⟩)

/-- A pad byte in the slot loop (R205 to R207). -/
theorem onPad_cases (s : State) (w : Work) (p : Len) :
    (w.dSlot < 2#3 ∧ onPad s w p = .error (decErr s w .padEarly p))
      ∨ (w.dSlot = 2#3 ∧ onPad s w p = padSecond s w)
      ∨ (2#3 < w.dSlot ∧ onPad s w p = padFinal s w) := by
  unfold onPad
  by_cases h1 : w.dSlot < 2#3
  · exact .inl ⟨h1, if_pos h1⟩
  · by_cases h2 : w.dSlot = 2#3
    · exact .inr (.inl ⟨h2, (if_neg h1).trans (if_pos h2)⟩)
    · exact .inr (.inr ⟨by bv_omega, (if_neg h1).trans (if_neg h2)⟩)

/-- The end of the input inside a quantum (R210 to R213). -/
theorem onExhausted_cases (s : State) (w : Work) :
    (w.dSlot = 0#3 ∧ onExhausted s w = .ok { w with dDlen := 0, dEnd := true })
      ∨ (w.dSlot ≠ 0#3 ∧ (w.dSlot = 1#3 ∨ s.padEnabled = true)
        ∧ onExhausted s w = .error (decErr s w .truncated s.inlen))
      ∨ (w.dSlot ≠ 0#3 ∧ w.dSlot ≠ 1#3 ∧ s.padEnabled = false
        ∧ onExhausted s w = .ok { w with dDlen := w.dSlot, dEnd := true }) := by
  unfold onExhausted
  by_cases h0 : w.dSlot = 0#3
  · exact .inl ⟨h0, if_pos h0⟩
  · by_cases h1 : w.dSlot = 1#3
    · exact .inr (.inl ⟨h0, .inl h1, (if_neg h0).trans (if_pos h1)⟩)
    · cases hp : s.padEnabled with
      | true => exact .inr (.inl ⟨h0, .inr rfl, by simp [h0, h1]⟩)
      | false => exact .inr (.inr ⟨h0, h1, rfl, by simp [h0, h1]⟩)

/-- One pass of the slot loop (R201): the quantum is full, the input has ended, or one byte of some class is read. -/
theorem slotLoop_succ_cases (s : State) (fuel : Nat) (w : Work) :
    (¬ w.dSlot < 4#3 ∧ slotLoop s (fuel + 1) w = .ok w)
      ∨ (w.dSlot < 4#3 ∧ w.dPos = s.inlen ∧ slotLoop s (fuel + 1) w = onExhausted s w)
      ∨ (w.dSlot < 4#3 ∧ w.dPos ≠ s.inlen ∧ ∃ v, s.classOf (s.inByte w.dPos) = .sym v
        ∧ slotLoop s (fuel + 1) w = slotLoop s fuel (storeSym { w with dPos := w.dPos + 1 } v w.dPos))
      ∨ (w.dSlot < 4#3 ∧ w.dPos ≠ s.inlen ∧ s.classOf (s.inByte w.dPos) = .lb
        ∧ slotLoop s (fuel + 1) w = slotLoop s fuel { w with dPos := w.dPos + 1 })
      ∨ (w.dSlot < 4#3 ∧ w.dPos ≠ s.inlen ∧ s.classOf (s.inByte w.dPos) = .bad
        ∧ slotLoop s (fuel + 1) w = .error (decErr s { w with dPos := w.dPos + 1 } .invalidByte w.dPos))
      ∨ (w.dSlot < 4#3 ∧ w.dPos ≠ s.inlen ∧ s.classOf (s.inByte w.dPos) = .pad
        ∧ slotLoop s (fuel + 1) w = onPad s { w with dPos := w.dPos + 1 } w.dPos) := by
  by_cases hs : w.dSlot < 4#3
  · by_cases hp : w.dPos = s.inlen
    · exact .inr (.inl ⟨hs, hp, by simp [slotLoop, hs, hp]⟩)
    · refine .inr (.inr ?_)
      cases hc : s.classOf (s.inByte w.dPos) with
      | sym v => exact .inl ⟨hs, hp, v, rfl, by simp [slotLoop, hs, hp, hc]⟩
      | lb => exact .inr (.inl ⟨hs, hp, rfl, by simp [slotLoop, hs, hp, hc]⟩)
      | bad => exact .inr (.inr (.inl ⟨hs, hp, rfl, by simp [slotLoop, hs, hp, hc]⟩))
      | pad => exact .inr (.inr (.inr ⟨hs, hp, rfl, by simp [slotLoop, hs, hp, hc]⟩))
  · exact .inl ⟨hs, by simp [slotLoop, hs]⟩

/-- The end of a quantum (R201): nothing held, a strict violation, or the bytes emitted. -/
theorem closeQuantum_cases (s : State) (w : Work) (m : Mem) :
    (w.dDlen = 0#3 ∧ closeQuantum s w m = .ok ⟨w, m⟩)
      ∨ (w.dDlen ≠ 0#3 ∧ strictViolation s w.dDlen (reassemble w) = true
        ∧ closeQuantum s w m = .error (decErr s { w with dAcc := reassemble w } .noncanonical w.dLastpos))
      ∨ (w.dDlen ≠ 0#3 ∧ strictViolation s w.dDlen (reassemble w) = false
        ∧ closeQuantum s w m = .ok
          { work := { w with
              dAcc := reassemble w
              dOpos := w.dOpos + BitVec.ofNat 32 (emitted w.dDlen (reassemble w)).length }
            obuf := Mem.writeBytes m w.dOpos.toNat (emitted w.dDlen (reassemble w)) }) := by
  unfold closeQuantum
  by_cases h0 : w.dDlen = 0#3
  · exact .inl ⟨h0, if_pos h0⟩
  · cases hv : strictViolation s w.dDlen (reassemble w) with
    | true => exact .inr (.inl ⟨h0, rfl, by simp [h0, hv]⟩)
    | false => exact .inr (.inr ⟨h0, rfl, by simp [h0, hv]⟩)

/-- A quantum (R201): its slot loop fails, or its end decides. -/
theorem quantum_cases (s : State) (r : Run) :
    (∃ e, slotLoop s (decFuel s) (openQuantum r.work) = .error e ∧ quantum s r = .error e)
      ∨ (∃ w, slotLoop s (decFuel s) (openQuantum r.work) = .ok w ∧ quantum s r = closeQuantum s w r.obuf) := by
  unfold quantum
  cases h : slotLoop s (decFuel s) (openQuantum r.work) with
  | error e => exact .inl ⟨e, rfl, rfl⟩
  | ok w => exact .inr ⟨w, rfl, rfl⟩

/-- One pass of the outer loop (R190, R194): it ends, takes the bulk path, or runs a quantum. -/
theorem decLoop_succ_cases (bulk : Bool) (s : State) (fuel : Nat) (r : Run) :
    (¬(r.work.dPos.toNat < s.inlen.toNat ∧ r.work.dEnd = false) ∧ decLoop bulk s (fuel + 1) r = .ok r)
      ∨ (r.work.dPos.toNat < s.inlen.toNat ∧ r.work.dEnd = false ∧ bulk = true ∧ bulkReady s r.work = true
        ∧ decLoop bulk s (fuel + 1) r = decLoop bulk s fuel (bulkGroup s r))
      ∨ (r.work.dPos.toNat < s.inlen.toNat ∧ r.work.dEnd = false ∧ (bulk && bulkReady s r.work) = false
        ∧ ∃ e, quantum s r = .error e ∧ decLoop bulk s (fuel + 1) r = .error e)
      ∨ (r.work.dPos.toNat < s.inlen.toNat ∧ r.work.dEnd = false ∧ (bulk && bulkReady s r.work) = false
        ∧ ∃ r', quantum s r = .ok r' ∧ decLoop bulk s (fuel + 1) r = decLoop bulk s fuel r') := by
  by_cases h : r.work.dPos.toNat < s.inlen.toNat ∧ r.work.dEnd = false
  · refine .inr ?_
    cases hb : (bulk && bulkReady s r.work) with
    | true =>
      obtain ⟨h1, h2⟩ := Bool.and_eq_true_iff.1 hb
      exact .inl ⟨h.1, h.2, h1, h2, by simp [decLoop, h, hb]⟩
    | false =>
      cases hq : quantum s r with
      | error e => exact .inr (.inl ⟨h.1, h.2, rfl, e, rfl, by simp [decLoop, h, hb, hq]⟩)
      | ok r' => exact .inr (.inr ⟨h.1, h.2, rfl, r', rfl, by simp [decLoop, h, hb, hq]⟩)
  · exact .inl ⟨h, by rw [decLoop, if_neg h]⟩

/-- The position at the end of the final padding (R208): the end of the input. -/
theorem padFinal_ok {s : State} {w w' : Work} (hp : w.dPos.toNat ≤ s.inlen.toNat) (h : padFinal s w = .ok w') :
    w' = { w with dPos := s.inlen, dDlen := w.dSlot, dEnd := true } := by
  obtain ⟨-, hle, -⟩ := skipLb_spec s (decFuel s) w.dPos hp (by simp only [decFuel]; omega)
  rcases padFinal_cases s w with ⟨-, he⟩ | ⟨hn, he⟩
  · rw [he] at h
    cases h
  · have hq : skipLb s (decFuel s) w.dPos = s.inlen := BitVec.eq_of_toNat_eq (by omega)
    rw [he, hq] at h
    exact (Except.ok.inj h).symm

/-- What the slot loop leaves when it does not fail, started within the input (R228): it never goes back, it stays within the
input, the output position, the bound and the output count stay; it ends at a full quantum with D_END and D_DLEN as they were,
or at the end of the input with D_END set and D_DLEN the number of symbols held. -/
theorem slotLoop_ok {s : State} {fuel : Nat} {w w' : Work} (hp : w.dPos.toNat ≤ s.inlen.toNat)
    (hs : w.dSlot.toNat ≤ 4) (hf : s.inlen.toNat - w.dPos.toNat < fuel) (h : slotLoop s fuel w = .ok w') :
    w.dPos.toNat ≤ w'.dPos.toNat ∧ w'.dPos.toNat ≤ s.inlen.toNat ∧ w'.dOpos = w.dOpos ∧ w'.dOlim = w.dOlim
      ∧ ((w'.dSlot = 4#3 ∧ w'.dEnd = w.dEnd ∧ w'.dDlen = w.dDlen)
        ∨ (w'.dPos = s.inlen ∧ w'.dEnd = true ∧ w'.dDlen = w'.dSlot ∧ w'.dSlot ≠ 1#3 ∧ w'.dSlot < 4#3)) := by
  induction fuel generalizing w with
  | zero => omega
  | succ fuel ih =>
    have hlt : ∀ {x : Work}, x.dPos ≠ s.inlen → x.dPos.toNat ≤ s.inlen.toNat → x.dPos.toNat < s.inlen.toNat :=
      fun hne hle => Nat.lt_of_le_of_ne hle fun he => hne (BitVec.eq_of_toNat_eq he)
    rcases slotLoop_succ_cases s fuel w with ⟨hn, he⟩ | ⟨hl, hpe, he⟩ | ⟨hl, hpn, v, -, he⟩ | ⟨hl, hpn, -, he⟩ |
      ⟨-, -, -, he⟩ | ⟨hl, hpn, -, he⟩ <;> rw [he] at h
    · cases h
      exact ⟨Nat.le_refl _, hp, rfl, rfl, .inl ⟨by bv_omega, rfl, rfl⟩⟩
    · rcases onExhausted_cases s w with ⟨h0, ho⟩ | ⟨-, -, ho⟩ | ⟨h0, h1, -, ho⟩ <;> rw [ho] at h
      · cases h
        exact ⟨Nat.le_refl _, hp, rfl, rfl, .inr ⟨hpe, rfl, h0.symm, by rw [h0]; decide, hl⟩⟩
      · cases h
      · cases h
        exact ⟨Nat.le_refl _, hp, rfl, rfl, .inr ⟨hpe, rfl, rfl, h1, hl⟩⟩
    · have h1 := toNat_succ_of_lt (hlt hpn hp)
      have hl' := hlt hpn hp
      have hsl : (w.dSlot + 1).toNat ≤ 4 := by
        have : w.dSlot.toNat < 4 := BitVec.lt_def.1 hl
        rw [BitVec.toNat_add]
        exact Nat.le_trans (Nat.mod_le _ _) (by simp; omega)
      obtain ⟨i1, i2, i3, i4, i5⟩ := ih (w := storeSym { w with dPos := w.dPos + 1 } v w.dPos)
        (show (w.dPos + 1).toNat ≤ _ by omega) hsl (show s.inlen.toNat - (w.dPos + 1).toNat < fuel by omega) h
      exact ⟨Nat.le_trans (show w.dPos.toNat ≤ (w.dPos + 1).toNat by omega) i1, i2, i3, i4, i5⟩
    · have h1 := toNat_succ_of_lt (hlt hpn hp)
      have hl' := hlt hpn hp
      obtain ⟨i1, i2, i3, i4, i5⟩ := ih (w := { w with dPos := w.dPos + 1 })
        (show (w.dPos + 1).toNat ≤ _ by omega) hs (show s.inlen.toNat - (w.dPos + 1).toNat < fuel by omega) h
      exact ⟨Nat.le_trans (show w.dPos.toNat ≤ (w.dPos + 1).toNat by omega) i1, i2, i3, i4, i5⟩
    · cases h
    · have h1 := toNat_succ_of_lt (hlt hpn hp)
      have hl' := hlt hpn hp
      have hp1 : (w.dPos + 1).toNat ≤ s.inlen.toNat := by omega
      rcases onPad_cases s { w with dPos := w.dPos + 1 } w.dPos with ⟨-, ho⟩ | ⟨h2, ho⟩ | ⟨h2, ho⟩ <;> rw [ho] at h
      · cases h
      · obtain ⟨-, hle, -, -⟩ := skipLb_spec s (decFuel s) (w.dPos + 1) hp1 (by simp only [decFuel]; omega)
        rcases padSecond_cases s { w with dPos := w.dPos + 1 } with ⟨-, hq⟩ | ⟨-, -, hq⟩ | ⟨hne, -, hq⟩ <;> rw [hq] at h
        · cases h
        · cases h
        · have hlt2 : (skipLb s (decFuel s) (w.dPos + 1)).toNat < s.inlen.toNat :=
            Nat.lt_of_le_of_ne hle fun he => hne (BitVec.eq_of_toNat_eq he)
          have h3 := toNat_succ_of_lt hlt2
          have := padFinal_ok (show (skipLb s (decFuel s) (w.dPos + 1) + 1).toNat ≤ _ by omega) h
          subst this
          refine ⟨hp, Nat.le_refl _, rfl, rfl, .inr ⟨rfl, rfl, rfl, ?_, hl⟩⟩
          show w.dSlot ≠ 1#3
          rw [show w.dSlot = 2#3 from h2]
          decide
      · have := padFinal_ok hp1 h
        subst this
        refine ⟨hp, Nat.le_refl _, rfl, rfl, .inr ⟨rfl, rfl, rfl, ?_, hl⟩⟩
        have h2' : 2#3 < w.dSlot := h2
        show w.dSlot ≠ 1#3
        intro hc
        rw [hc] at h2'
        exact absurd h2' (by decide)

end Sys2Proof.Machine
end

