-- ==== Sys2Proof/Laws/State.lean ====
section
/-! SUPPORT. One lemma per field per update of State, true by unfolding the update once, so that no later proof unfolds a record update. -/

namespace Sys2Proof.Machine

/-! ## State.complete -/

@[simp] theorem State.complete_encTab (r : ResultCode) (s : State) : (s.complete r).encTab = s.encTab := by cases s; rfl
@[simp] theorem State.complete_decTab (r : ResultCode) (s : State) : (s.complete r).decTab = s.decTab := by cases s; rfl
@[simp] theorem State.complete_pad (r : ResultCode) (s : State) : (s.complete r).pad = s.pad := by cases s; rfl
@[simp] theorem State.complete_strict (r : ResultCode) (s : State) : (s.complete r).strict = s.strict := by cases s; rfl
@[simp] theorem State.complete_cfgValid (r : ResultCode) (s : State) : (s.complete r).cfgValid = s.cfgValid := by cases s; rfl
@[simp] theorem State.complete_busy (r : ResultCode) (s : State) : (s.complete r).busy = false := by cases s; rfl
@[simp] theorem State.complete_result (r : ResultCode) (s : State) : (s.complete r).result = r := by cases s; rfl
@[simp] theorem State.complete_inlen (r : ResultCode) (s : State) : (s.complete r).inlen = s.inlen := by cases s; rfl
@[simp] theorem State.complete_outlen (r : ResultCode) (s : State) : (s.complete r).outlen = s.outlen := by cases s; rfl
@[simp] theorem State.complete_errpos (r : ResultCode) (s : State) : (s.complete r).errpos = s.errpos := by cases s; rfl
@[simp] theorem State.complete_errcause (r : ResultCode) (s : State) : (s.complete r).errcause = s.errcause := by cases s; rfl
@[simp] theorem State.complete_cfgerr (r : ResultCode) (s : State) : (s.complete r).cfgerr = s.cfgerr := by cases s; rfl
@[simp] theorem State.complete_alen (r : ResultCode) (s : State) : (s.complete r).alen = s.alen := by cases s; rfl
@[simp] theorem State.complete_abuf (r : ResultCode) (s : State) : (s.complete r).abuf = s.abuf := by cases s; rfl
@[simp] theorem State.complete_ibuf (r : ResultCode) (s : State) : (s.complete r).ibuf = s.ibuf := by cases s; rfl
@[simp] theorem State.complete_obuf (r : ResultCode) (s : State) : (s.complete r).obuf = s.obuf := by cases s; rfl
@[simp] theorem State.complete_work (r : ResultCode) (s : State) : (s.complete r).work = s.work := by cases s; rfl
@[simp] theorem State.complete_inMax (r : ResultCode) (s : State) : (s.complete r).inMax = s.inMax := by cases s; rfl
@[simp] theorem State.complete_draws (r : ResultCode) (s : State) : (s.complete r).draws = s.draws + 1 := by cases s; rfl
@[simp] theorem State.complete_rdata (r : ResultCode) (s : State) : (s.complete r).rdata = s.rdata := by cases s; rfl
@[simp] theorem State.complete_host (r : ResultCode) (s : State) : (s.complete r).host = s.host := by cases s; rfl

/-! ## State.dropInstance -/

@[simp] theorem State.dropInstance_encTab (s : State) : (s.dropInstance).encTab = freeEncTab s.draws := by cases s; rfl
@[simp] theorem State.dropInstance_decTab (s : State) : (s.dropInstance).decTab = freeDecTab s.draws := by cases s; rfl
@[simp] theorem State.dropInstance_pad (s : State) : (s.dropInstance).pad = Config.free 9 s.draws .pad := by cases s; rfl
@[simp] theorem State.dropInstance_strict (s : State) : (s.dropInstance).strict = (Config.free 1 s.draws .strict).getLsbD 0 := by cases s; rfl
@[simp] theorem State.dropInstance_cfgValid (s : State) : (s.dropInstance).cfgValid = false := by cases s; rfl
@[simp] theorem State.dropInstance_busy (s : State) : (s.dropInstance).busy = s.busy := by cases s; rfl
@[simp] theorem State.dropInstance_result (s : State) : (s.dropInstance).result = s.result := by cases s; rfl
@[simp] theorem State.dropInstance_inlen (s : State) : (s.dropInstance).inlen = s.inlen := by cases s; rfl
@[simp] theorem State.dropInstance_outlen (s : State) : (s.dropInstance).outlen = s.outlen := by cases s; rfl
@[simp] theorem State.dropInstance_errpos (s : State) : (s.dropInstance).errpos = s.errpos := by cases s; rfl
@[simp] theorem State.dropInstance_errcause (s : State) : (s.dropInstance).errcause = s.errcause := by cases s; rfl
@[simp] theorem State.dropInstance_cfgerr (s : State) : (s.dropInstance).cfgerr = s.cfgerr := by cases s; rfl
@[simp] theorem State.dropInstance_alen (s : State) : (s.dropInstance).alen = s.alen := by cases s; rfl
@[simp] theorem State.dropInstance_abuf (s : State) : (s.dropInstance).abuf = s.abuf := by cases s; rfl
@[simp] theorem State.dropInstance_ibuf (s : State) : (s.dropInstance).ibuf = s.ibuf := by cases s; rfl
@[simp] theorem State.dropInstance_obuf (s : State) : (s.dropInstance).obuf = s.obuf := by cases s; rfl
@[simp] theorem State.dropInstance_work (s : State) : (s.dropInstance).work = s.work := by cases s; rfl
@[simp] theorem State.dropInstance_inMax (s : State) : (s.dropInstance).inMax = s.inMax := by cases s; rfl
@[simp] theorem State.dropInstance_draws (s : State) : (s.dropInstance).draws = s.draws := by cases s; rfl
@[simp] theorem State.dropInstance_rdata (s : State) : (s.dropInstance).rdata = s.rdata := by cases s; rfl
@[simp] theorem State.dropInstance_host (s : State) : (s.dropInstance).host = s.host := by cases s; rfl

/-! ## State.raiseConstruction -/

@[simp] theorem State.raiseConstruction_encTab (m : BitVec 6) (s : State) : (s.raiseConstruction m).encTab = freeEncTab s.draws := by cases s; rfl
@[simp] theorem State.raiseConstruction_decTab (m : BitVec 6) (s : State) : (s.raiseConstruction m).decTab = freeDecTab s.draws := by cases s; rfl
@[simp] theorem State.raiseConstruction_pad (m : BitVec 6) (s : State) : (s.raiseConstruction m).pad = Config.free 9 s.draws .pad := by cases s; rfl
@[simp] theorem State.raiseConstruction_strict (m : BitVec 6) (s : State) : (s.raiseConstruction m).strict = (Config.free 1 s.draws .strict).getLsbD 0 := by cases s; rfl
@[simp] theorem State.raiseConstruction_cfgValid (m : BitVec 6) (s : State) : (s.raiseConstruction m).cfgValid = false := by cases s; rfl
@[simp] theorem State.raiseConstruction_busy (m : BitVec 6) (s : State) : (s.raiseConstruction m).busy = false := by cases s; rfl
@[simp] theorem State.raiseConstruction_result (m : BitVec 6) (s : State) : (s.raiseConstruction m).result = .constructionError := by cases s; rfl
@[simp] theorem State.raiseConstruction_inlen (m : BitVec 6) (s : State) : (s.raiseConstruction m).inlen = s.inlen := by cases s; rfl
@[simp] theorem State.raiseConstruction_outlen (m : BitVec 6) (s : State) : (s.raiseConstruction m).outlen = s.outlen := by cases s; rfl
@[simp] theorem State.raiseConstruction_errpos (m : BitVec 6) (s : State) : (s.raiseConstruction m).errpos = s.errpos := by cases s; rfl
@[simp] theorem State.raiseConstruction_errcause (m : BitVec 6) (s : State) : (s.raiseConstruction m).errcause = s.errcause := by cases s; rfl
@[simp] theorem State.raiseConstruction_cfgerr (m : BitVec 6) (s : State) : (s.raiseConstruction m).cfgerr = m := by cases s; rfl
@[simp] theorem State.raiseConstruction_alen (m : BitVec 6) (s : State) : (s.raiseConstruction m).alen = s.alen := by cases s; rfl
@[simp] theorem State.raiseConstruction_abuf (m : BitVec 6) (s : State) : (s.raiseConstruction m).abuf = s.abuf := by cases s; rfl
@[simp] theorem State.raiseConstruction_ibuf (m : BitVec 6) (s : State) : (s.raiseConstruction m).ibuf = s.ibuf := by cases s; rfl
@[simp] theorem State.raiseConstruction_obuf (m : BitVec 6) (s : State) : (s.raiseConstruction m).obuf = s.obuf := by cases s; rfl
@[simp] theorem State.raiseConstruction_work (m : BitVec 6) (s : State) : (s.raiseConstruction m).work = s.work := by cases s; rfl
@[simp] theorem State.raiseConstruction_inMax (m : BitVec 6) (s : State) : (s.raiseConstruction m).inMax = s.inMax := by cases s; rfl
@[simp] theorem State.raiseConstruction_draws (m : BitVec 6) (s : State) : (s.raiseConstruction m).draws = s.draws + 1 := by cases s; rfl
@[simp] theorem State.raiseConstruction_rdata (m : BitVec 6) (s : State) : (s.raiseConstruction m).rdata = s.rdata := by cases s; rfl
@[simp] theorem State.raiseConstruction_host (m : BitVec 6) (s : State) : (s.raiseConstruction m).host = s.host := by cases s; rfl

/-! ## State.raiseDecode -/

@[simp] theorem State.raiseDecode_encTab (c : ErrCause) (p : Len) (s : State) : (s.raiseDecode c p).encTab = s.encTab := by cases s; rfl
@[simp] theorem State.raiseDecode_decTab (c : ErrCause) (p : Len) (s : State) : (s.raiseDecode c p).decTab = s.decTab := by cases s; rfl
@[simp] theorem State.raiseDecode_pad (c : ErrCause) (p : Len) (s : State) : (s.raiseDecode c p).pad = s.pad := by cases s; rfl
@[simp] theorem State.raiseDecode_strict (c : ErrCause) (p : Len) (s : State) : (s.raiseDecode c p).strict = s.strict := by cases s; rfl
@[simp] theorem State.raiseDecode_cfgValid (c : ErrCause) (p : Len) (s : State) : (s.raiseDecode c p).cfgValid = s.cfgValid := by cases s; rfl
@[simp] theorem State.raiseDecode_busy (c : ErrCause) (p : Len) (s : State) : (s.raiseDecode c p).busy = false := by cases s; rfl
@[simp] theorem State.raiseDecode_result (c : ErrCause) (p : Len) (s : State) : (s.raiseDecode c p).result = .decodeError := by cases s; rfl
@[simp] theorem State.raiseDecode_inlen (c : ErrCause) (p : Len) (s : State) : (s.raiseDecode c p).inlen = s.inlen := by cases s; rfl
@[simp] theorem State.raiseDecode_outlen (c : ErrCause) (p : Len) (s : State) : (s.raiseDecode c p).outlen = Config.free 32 s.draws .outlen := by cases s; rfl
@[simp] theorem State.raiseDecode_errpos (c : ErrCause) (p : Len) (s : State) : (s.raiseDecode c p).errpos = p := by cases s; rfl
@[simp] theorem State.raiseDecode_errcause (c : ErrCause) (p : Len) (s : State) : (s.raiseDecode c p).errcause = c := by cases s; rfl
@[simp] theorem State.raiseDecode_cfgerr (c : ErrCause) (p : Len) (s : State) : (s.raiseDecode c p).cfgerr = s.cfgerr := by cases s; rfl
@[simp] theorem State.raiseDecode_alen (c : ErrCause) (p : Len) (s : State) : (s.raiseDecode c p).alen = s.alen := by cases s; rfl
@[simp] theorem State.raiseDecode_abuf (c : ErrCause) (p : Len) (s : State) : (s.raiseDecode c p).abuf = s.abuf := by cases s; rfl
@[simp] theorem State.raiseDecode_ibuf (c : ErrCause) (p : Len) (s : State) : (s.raiseDecode c p).ibuf = s.ibuf := by cases s; rfl
@[simp] theorem State.raiseDecode_obuf (c : ErrCause) (p : Len) (s : State) : (s.raiseDecode c p).obuf = [] := by cases s; rfl
@[simp] theorem State.raiseDecode_work (c : ErrCause) (p : Len) (s : State) : (s.raiseDecode c p).work = freeWork s.draws := by cases s; rfl
@[simp] theorem State.raiseDecode_inMax (c : ErrCause) (p : Len) (s : State) : (s.raiseDecode c p).inMax = s.inMax := by cases s; rfl
@[simp] theorem State.raiseDecode_draws (c : ErrCause) (p : Len) (s : State) : (s.raiseDecode c p).draws = s.draws + 1 := by cases s; rfl
@[simp] theorem State.raiseDecode_rdata (c : ErrCause) (p : Len) (s : State) : (s.raiseDecode c p).rdata = s.rdata := by cases s; rfl
@[simp] theorem State.raiseDecode_host (c : ErrCause) (p : Len) (s : State) : (s.raiseDecode c p).host = s.host := by cases s; rfl

/-! ## State.finishCodec -/

@[simp] theorem State.finishCodec_encTab (n : Len) (m : Mem) (s : State) : (s.finishCodec n m).encTab = s.encTab := by cases s; rfl
@[simp] theorem State.finishCodec_decTab (n : Len) (m : Mem) (s : State) : (s.finishCodec n m).decTab = s.decTab := by cases s; rfl
@[simp] theorem State.finishCodec_pad (n : Len) (m : Mem) (s : State) : (s.finishCodec n m).pad = s.pad := by cases s; rfl
@[simp] theorem State.finishCodec_strict (n : Len) (m : Mem) (s : State) : (s.finishCodec n m).strict = s.strict := by cases s; rfl
@[simp] theorem State.finishCodec_cfgValid (n : Len) (m : Mem) (s : State) : (s.finishCodec n m).cfgValid = s.cfgValid := by cases s; rfl
@[simp] theorem State.finishCodec_busy (n : Len) (m : Mem) (s : State) : (s.finishCodec n m).busy = false := by cases s; rfl
@[simp] theorem State.finishCodec_result (n : Len) (m : Mem) (s : State) : (s.finishCodec n m).result = .ok := by cases s; rfl
@[simp] theorem State.finishCodec_inlen (n : Len) (m : Mem) (s : State) : (s.finishCodec n m).inlen = s.inlen := by cases s; rfl
@[simp] theorem State.finishCodec_outlen (n : Len) (m : Mem) (s : State) : (s.finishCodec n m).outlen = n := by cases s; rfl
@[simp] theorem State.finishCodec_errpos (n : Len) (m : Mem) (s : State) : (s.finishCodec n m).errpos = 0 := by cases s; rfl
@[simp] theorem State.finishCodec_errcause (n : Len) (m : Mem) (s : State) : (s.finishCodec n m).errcause = .none := by cases s; rfl
@[simp] theorem State.finishCodec_cfgerr (n : Len) (m : Mem) (s : State) : (s.finishCodec n m).cfgerr = s.cfgerr := by cases s; rfl
@[simp] theorem State.finishCodec_alen (n : Len) (m : Mem) (s : State) : (s.finishCodec n m).alen = s.alen := by cases s; rfl
@[simp] theorem State.finishCodec_abuf (n : Len) (m : Mem) (s : State) : (s.finishCodec n m).abuf = s.abuf := by cases s; rfl
@[simp] theorem State.finishCodec_ibuf (n : Len) (m : Mem) (s : State) : (s.finishCodec n m).ibuf = s.ibuf := by cases s; rfl
@[simp] theorem State.finishCodec_obuf (n : Len) (m : Mem) (s : State) : (s.finishCodec n m).obuf = m := by cases s; rfl
@[simp] theorem State.finishCodec_work (n : Len) (m : Mem) (s : State) : (s.finishCodec n m).work = freeWork s.draws := by cases s; rfl
@[simp] theorem State.finishCodec_inMax (n : Len) (m : Mem) (s : State) : (s.finishCodec n m).inMax = s.inMax := by cases s; rfl
@[simp] theorem State.finishCodec_draws (n : Len) (m : Mem) (s : State) : (s.finishCodec n m).draws = s.draws + 1 := by cases s; rfl
@[simp] theorem State.finishCodec_rdata (n : Len) (m : Mem) (s : State) : (s.finishCodec n m).rdata = s.rdata := by cases s; rfl
@[simp] theorem State.finishCodec_host (n : Len) (m : Mem) (s : State) : (s.finishCodec n m).host = s.host := by cases s; rfl

/-! ## State.loadInstance -/

@[simp] theorem State.loadInstance_encTab (a : List Byte) (p : PadSel) (st : Bool) (s : State) : (s.loadInstance a p st).encTab = buildEncTab a := by cases s; rfl
@[simp] theorem State.loadInstance_decTab (a : List Byte) (p : PadSel) (st : Bool) (s : State) : (s.loadInstance a p st).decTab = buildDecTab (buildEncTab a) := by
  simp only [State.loadInstance, State.complete]
@[simp] theorem State.loadInstance_pad (a : List Byte) (p : PadSel) (st : Bool) (s : State) : (s.loadInstance a p st).pad = p := by cases s; rfl
@[simp] theorem State.loadInstance_strict (a : List Byte) (p : PadSel) (st : Bool) (s : State) : (s.loadInstance a p st).strict = st := by cases s; rfl
@[simp] theorem State.loadInstance_cfgValid (a : List Byte) (p : PadSel) (st : Bool) (s : State) : (s.loadInstance a p st).cfgValid = true := by cases s; rfl
@[simp] theorem State.loadInstance_busy (a : List Byte) (p : PadSel) (st : Bool) (s : State) : (s.loadInstance a p st).busy = false := by cases s; rfl
@[simp] theorem State.loadInstance_result (a : List Byte) (p : PadSel) (st : Bool) (s : State) : (s.loadInstance a p st).result = .ok := by cases s; rfl
@[simp] theorem State.loadInstance_inlen (a : List Byte) (p : PadSel) (st : Bool) (s : State) : (s.loadInstance a p st).inlen = s.inlen := by cases s; rfl
@[simp] theorem State.loadInstance_outlen (a : List Byte) (p : PadSel) (st : Bool) (s : State) : (s.loadInstance a p st).outlen = s.outlen := by cases s; rfl
@[simp] theorem State.loadInstance_errpos (a : List Byte) (p : PadSel) (st : Bool) (s : State) : (s.loadInstance a p st).errpos = s.errpos := by cases s; rfl
@[simp] theorem State.loadInstance_errcause (a : List Byte) (p : PadSel) (st : Bool) (s : State) : (s.loadInstance a p st).errcause = s.errcause := by cases s; rfl
@[simp] theorem State.loadInstance_cfgerr (a : List Byte) (p : PadSel) (st : Bool) (s : State) : (s.loadInstance a p st).cfgerr = 0 := by cases s; rfl
@[simp] theorem State.loadInstance_alen (a : List Byte) (p : PadSel) (st : Bool) (s : State) : (s.loadInstance a p st).alen = s.alen := by cases s; rfl
@[simp] theorem State.loadInstance_abuf (a : List Byte) (p : PadSel) (st : Bool) (s : State) : (s.loadInstance a p st).abuf = s.abuf := by cases s; rfl
@[simp] theorem State.loadInstance_ibuf (a : List Byte) (p : PadSel) (st : Bool) (s : State) : (s.loadInstance a p st).ibuf = s.ibuf := by cases s; rfl
@[simp] theorem State.loadInstance_obuf (a : List Byte) (p : PadSel) (st : Bool) (s : State) : (s.loadInstance a p st).obuf = s.obuf := by cases s; rfl
@[simp] theorem State.loadInstance_work (a : List Byte) (p : PadSel) (st : Bool) (s : State) : (s.loadInstance a p st).work = s.work := by cases s; rfl
@[simp] theorem State.loadInstance_inMax (a : List Byte) (p : PadSel) (st : Bool) (s : State) : (s.loadInstance a p st).inMax = s.inMax := by cases s; rfl
@[simp] theorem State.loadInstance_draws (a : List Byte) (p : PadSel) (st : Bool) (s : State) : (s.loadInstance a p st).draws = s.draws + 1 := by cases s; rfl
@[simp] theorem State.loadInstance_rdata (a : List Byte) (p : PadSel) (st : Bool) (s : State) : (s.loadInstance a p st).rdata = s.rdata := by cases s; rfl
@[simp] theorem State.loadInstance_host (a : List Byte) (p : PadSel) (st : Bool) (s : State) : (s.loadInstance a p st).host = s.host := by cases s; rfl

/-! ## State.accept -/

@[simp] theorem State.accept_encTab (s : State) : (s.accept).encTab = s.encTab := by cases s; rfl
@[simp] theorem State.accept_decTab (s : State) : (s.accept).decTab = s.decTab := by cases s; rfl
@[simp] theorem State.accept_pad (s : State) : (s.accept).pad = s.pad := by cases s; rfl
@[simp] theorem State.accept_strict (s : State) : (s.accept).strict = s.strict := by cases s; rfl
@[simp] theorem State.accept_cfgValid (s : State) : (s.accept).cfgValid = s.cfgValid := by cases s; rfl
@[simp] theorem State.accept_busy (s : State) : (s.accept).busy = true := by cases s; rfl
@[simp] theorem State.accept_result (s : State) : (s.accept).result = s.result := by cases s; rfl
@[simp] theorem State.accept_inlen (s : State) : (s.accept).inlen = s.inlen := by cases s; rfl
@[simp] theorem State.accept_outlen (s : State) : (s.accept).outlen = s.outlen := by cases s; rfl
@[simp] theorem State.accept_errpos (s : State) : (s.accept).errpos = s.errpos := by cases s; rfl
@[simp] theorem State.accept_errcause (s : State) : (s.accept).errcause = s.errcause := by cases s; rfl
@[simp] theorem State.accept_cfgerr (s : State) : (s.accept).cfgerr = s.cfgerr := by cases s; rfl
@[simp] theorem State.accept_alen (s : State) : (s.accept).alen = s.alen := by cases s; rfl
@[simp] theorem State.accept_abuf (s : State) : (s.accept).abuf = s.abuf := by cases s; rfl
@[simp] theorem State.accept_ibuf (s : State) : (s.accept).ibuf = s.ibuf := by cases s; rfl
@[simp] theorem State.accept_obuf (s : State) : (s.accept).obuf = s.obuf := by cases s; rfl
@[simp] theorem State.accept_work (s : State) : (s.accept).work = s.work := by cases s; rfl
@[simp] theorem State.accept_inMax (s : State) : (s.accept).inMax = s.inMax := by cases s; rfl
@[simp] theorem State.accept_draws (s : State) : (s.accept).draws = s.draws := by cases s; rfl
@[simp] theorem State.accept_rdata (s : State) : (s.accept).rdata = s.rdata := by cases s; rfl
@[simp] theorem State.accept_host (s : State) : (s.accept).host = s.host := by cases s; rfl

/-! ## State.answer -/

@[simp] theorem State.answer_encTab (v : BitVec 32) (s : State) : (s.answer v).encTab = s.encTab := by cases s; rfl
@[simp] theorem State.answer_decTab (v : BitVec 32) (s : State) : (s.answer v).decTab = s.decTab := by cases s; rfl
@[simp] theorem State.answer_pad (v : BitVec 32) (s : State) : (s.answer v).pad = s.pad := by cases s; rfl
@[simp] theorem State.answer_strict (v : BitVec 32) (s : State) : (s.answer v).strict = s.strict := by cases s; rfl
@[simp] theorem State.answer_cfgValid (v : BitVec 32) (s : State) : (s.answer v).cfgValid = s.cfgValid := by cases s; rfl
@[simp] theorem State.answer_busy (v : BitVec 32) (s : State) : (s.answer v).busy = s.busy := by cases s; rfl
@[simp] theorem State.answer_result (v : BitVec 32) (s : State) : (s.answer v).result = s.result := by cases s; rfl
@[simp] theorem State.answer_inlen (v : BitVec 32) (s : State) : (s.answer v).inlen = s.inlen := by cases s; rfl
@[simp] theorem State.answer_outlen (v : BitVec 32) (s : State) : (s.answer v).outlen = s.outlen := by cases s; rfl
@[simp] theorem State.answer_errpos (v : BitVec 32) (s : State) : (s.answer v).errpos = s.errpos := by cases s; rfl
@[simp] theorem State.answer_errcause (v : BitVec 32) (s : State) : (s.answer v).errcause = s.errcause := by cases s; rfl
@[simp] theorem State.answer_cfgerr (v : BitVec 32) (s : State) : (s.answer v).cfgerr = s.cfgerr := by cases s; rfl
@[simp] theorem State.answer_alen (v : BitVec 32) (s : State) : (s.answer v).alen = s.alen := by cases s; rfl
@[simp] theorem State.answer_abuf (v : BitVec 32) (s : State) : (s.answer v).abuf = s.abuf := by cases s; rfl
@[simp] theorem State.answer_ibuf (v : BitVec 32) (s : State) : (s.answer v).ibuf = s.ibuf := by cases s; rfl
@[simp] theorem State.answer_obuf (v : BitVec 32) (s : State) : (s.answer v).obuf = s.obuf := by cases s; rfl
@[simp] theorem State.answer_work (v : BitVec 32) (s : State) : (s.answer v).work = s.work := by cases s; rfl
@[simp] theorem State.answer_inMax (v : BitVec 32) (s : State) : (s.answer v).inMax = s.inMax := by cases s; rfl
@[simp] theorem State.answer_draws (v : BitVec 32) (s : State) : (s.answer v).draws = s.draws + 1 := by cases s; rfl
@[simp] theorem State.answer_rdata (v : BitVec 32) (s : State) : (s.answer v).rdata = v := by cases s; rfl
@[simp] theorem State.answer_host (v : BitVec 32) (s : State) : (s.answer v).host = s.host := by cases s; rfl

/-! ## State.withCommand -/

@[simp] theorem State.withCommand_encTab (w : CmdWord) (s : State) : (s.withCommand w).encTab = s.encTab := by cases s; rfl
@[simp] theorem State.withCommand_decTab (w : CmdWord) (s : State) : (s.withCommand w).decTab = s.decTab := by cases s; rfl
@[simp] theorem State.withCommand_pad (w : CmdWord) (s : State) : (s.withCommand w).pad = s.pad := by cases s; rfl
@[simp] theorem State.withCommand_strict (w : CmdWord) (s : State) : (s.withCommand w).strict = s.strict := by cases s; rfl
@[simp] theorem State.withCommand_cfgValid (w : CmdWord) (s : State) : (s.withCommand w).cfgValid = s.cfgValid := by cases s; rfl
@[simp] theorem State.withCommand_busy (w : CmdWord) (s : State) : (s.withCommand w).busy = s.busy := by cases s; rfl
@[simp] theorem State.withCommand_result (w : CmdWord) (s : State) : (s.withCommand w).result = s.result := by cases s; rfl
@[simp] theorem State.withCommand_inlen (w : CmdWord) (s : State) : (s.withCommand w).inlen = s.inlen := by cases s; rfl
@[simp] theorem State.withCommand_outlen (w : CmdWord) (s : State) : (s.withCommand w).outlen = s.outlen := by cases s; rfl
@[simp] theorem State.withCommand_errpos (w : CmdWord) (s : State) : (s.withCommand w).errpos = s.errpos := by cases s; rfl
@[simp] theorem State.withCommand_errcause (w : CmdWord) (s : State) : (s.withCommand w).errcause = s.errcause := by cases s; rfl
@[simp] theorem State.withCommand_cfgerr (w : CmdWord) (s : State) : (s.withCommand w).cfgerr = s.cfgerr := by cases s; rfl
@[simp] theorem State.withCommand_alen (w : CmdWord) (s : State) : (s.withCommand w).alen = s.alen := by cases s; rfl
@[simp] theorem State.withCommand_abuf (w : CmdWord) (s : State) : (s.withCommand w).abuf = s.abuf := by cases s; rfl
@[simp] theorem State.withCommand_ibuf (w : CmdWord) (s : State) : (s.withCommand w).ibuf = s.ibuf := by cases s; rfl
@[simp] theorem State.withCommand_obuf (w : CmdWord) (s : State) : (s.withCommand w).obuf = s.obuf := by cases s; rfl
@[simp] theorem State.withCommand_work (w : CmdWord) (s : State) : (s.withCommand w).work = s.work := by cases s; rfl
@[simp] theorem State.withCommand_inMax (w : CmdWord) (s : State) : (s.withCommand w).inMax = s.inMax := by cases s; rfl
@[simp] theorem State.withCommand_draws (w : CmdWord) (s : State) : (s.withCommand w).draws = s.draws := by cases s; rfl
@[simp] theorem State.withCommand_rdata (w : CmdWord) (s : State) : (s.withCommand w).rdata = s.rdata := by cases s; rfl
@[simp] theorem State.withCommand_host (w : CmdWord) (s : State) : (s.withCommand w).host = .writeReg (.cmd w) :: s.host := by cases s; rfl

/-! ## State.hardReset -/

@[simp] theorem State.hardReset_encTab (s : State) : (s.hardReset).encTab = freeEncTab s.draws := by cases s; rfl
@[simp] theorem State.hardReset_decTab (s : State) : (s.hardReset).decTab = freeDecTab s.draws := by cases s; rfl
@[simp] theorem State.hardReset_pad (s : State) : (s.hardReset).pad = Config.free 9 s.draws .pad := by cases s; rfl
@[simp] theorem State.hardReset_strict (s : State) : (s.hardReset).strict = (Config.free 1 s.draws .strict).getLsbD 0 := by cases s; rfl
@[simp] theorem State.hardReset_cfgValid (s : State) : (s.hardReset).cfgValid = false := by cases s; rfl
@[simp] theorem State.hardReset_busy (s : State) : (s.hardReset).busy = false := by cases s; rfl
@[simp] theorem State.hardReset_result (s : State) : (s.hardReset).result = .none := by cases s; rfl
@[simp] theorem State.hardReset_inlen (s : State) : (s.hardReset).inlen = 0 := by cases s; rfl
@[simp] theorem State.hardReset_outlen (s : State) : (s.hardReset).outlen = 0 := by cases s; rfl
@[simp] theorem State.hardReset_errpos (s : State) : (s.hardReset).errpos = 0 := by cases s; rfl
@[simp] theorem State.hardReset_errcause (s : State) : (s.hardReset).errcause = .none := by cases s; rfl
@[simp] theorem State.hardReset_cfgerr (s : State) : (s.hardReset).cfgerr = 0 := by cases s; rfl
@[simp] theorem State.hardReset_alen (s : State) : (s.hardReset).alen = 0 := by cases s; rfl
@[simp] theorem State.hardReset_abuf (s : State) : (s.hardReset).abuf = [] := by cases s; rfl
@[simp] theorem State.hardReset_ibuf (s : State) : (s.hardReset).ibuf = [] := by cases s; rfl
@[simp] theorem State.hardReset_obuf (s : State) : (s.hardReset).obuf = [] := by cases s; rfl
@[simp] theorem State.hardReset_work (s : State) : (s.hardReset).work = freeWork s.draws := by cases s; rfl
@[simp] theorem State.hardReset_inMax (s : State) : (s.hardReset).inMax = s.inMax := by cases s; rfl
@[simp] theorem State.hardReset_draws (s : State) : (s.hardReset).draws = s.draws + 1 := by cases s; rfl
@[simp] theorem State.hardReset_rdata (s : State) : (s.hardReset).rdata = s.rdata := by cases s; rfl
@[simp] theorem State.hardReset_host (s : State) : (s.hardReset).host = s.host := by cases s; rfl

end Sys2Proof.Machine
end

