-- ==== Sys2Proof/Laws/Ops.lean ====
section
/-! SUPPORT. One lemma for each shared operation: everything it can do. -/

namespace Sys2Proof.Machine

/-- Admission passes exactly the admitted states (R263). -/
theorem State.admission_eq_none_iff (s : State) : s.admission = none ↔ s.Admitted := by
  unfold State.admission State.Admitted
  cases h : s.cfgValid <;> simp


/-- What admission refuses, in the order of R263. -/
theorem State.admission_eq_some {s : State} {r : ResultCode} (h : s.admission = some r) :
    (s.cfgValid = false ∧ r = .notConfigured)
      ∨ (s.cfgValid = true ∧ s.inMax < s.inlen.toNat ∧ r = .lengthRange) := by
  unfold State.admission at h
  cases hv : s.cfgValid
  · exact .inl ⟨rfl, by simpa [hv] using h.symm⟩
  · simp only [hv, Bool.true_eq_false, if_false] at h
    split at h
    · rename_i hl
      exact .inr ⟨rfl, hl, by simpa using h.symm⟩
    · cases h

/-- What construction does (R130, R135): the mask decides. -/
theorem State.construct_cases (a : List Byte) (p : PadSel) (st : Bool) (s : State) :
    (invariantMask a p = 0 ∧ s.construct a p st = s.loadInstance a p st)
      ∨ (invariantMask a p ≠ 0 ∧ s.construct a p st = s.raiseConstruction (invariantMask a p)) := by
  unfold State.construct
  by_cases h : invariantMask a p = 0
  · exact .inl ⟨h, if_pos h⟩
  · exact .inr ⟨h, if_neg h⟩

/-- What ENCODE does (R160): a refusal, or the engine's result. -/
theorem execEncode_cases (s : State) :
    (∃ r, s.admission = some r ∧ execEncode s = .next (s.complete r))
      ∨ (s.admission = none
          ∧ execEncode s = .next (s.finishCodec (encodeRun s).work.eOpos (encodeRun s).obuf)) := by
  unfold execEncode
  cases h : s.admission with
  | none => exact .inr ⟨rfl, rfl⟩
  | some r => exact .inl ⟨r, rfl, rfl⟩

/-- What DECODE does (R190): a refusal, a decode error, or the engine's result. -/
theorem execDecode_cases (s : State) :
    (∃ r, s.admission = some r ∧ execDecode s = .next (s.complete r))
      ∨ (s.admission = none ∧ ∃ e, decodeRun s = .error e
          ∧ execDecode s = .next (s.raiseDecode e.cause (errPosOf e)))
      ∨ (s.admission = none ∧ ∃ r, decodeRun s = .ok r
          ∧ execDecode s = .next (s.finishCodec r.work.dOpos r.obuf)) := by
  unfold execDecode
  cases h : s.admission with
  | some r => exact .inl ⟨r, rfl, rfl⟩
  | none =>
    cases hd : decodeRun s with
    | error e => exact .inr (.inl ⟨rfl, e, rfl, rfl⟩)
    | ok r => exact .inr (.inr ⟨rfl, r, rfl, rfl⟩)

/-- What a command word does once accepted (R97, R263). -/
theorem issueCommand_cases (w : CmdWord) (s : State) :
    (∃ i, decode w = .ok i ∧ issueCommand w s = exec i s.accept)
      ∨ (∃ e, decode w = .error e ∧ issueCommand w s = .next (s.accept.complete .illegalCommand)) := by
  unfold issueCommand
  cases h : decode w with
  | ok i => exact .inl ⟨i, rfl, rfl⟩
  | error e => exact .inr ⟨e, rfl, rfl⟩

/-- What a step that answers a next state has done: nothing (idle); a command word; a write of INLEN or ALEN, or an ignored
write; a read; a buffer write within capacity; the reset input. -/
theorem step_cases {s t : State} (h : step s = .next t) :
    (s.host = [] ∧ t = s)
      ∨ (∃ w rest, s.host = .writeReg (.cmd w) :: rest ∧ s.busy = false
          ∧ issueCommand w { s with host := rest } = .next t)
      ∨ (∃ r rest, s.host = .writeReg r :: rest ∧ s.busy = false
          ∧ (t = { s with host := rest } ∨ (∃ v, r = .inlen v ∧ t = { s with host := rest, inlen := v })
              ∨ ∃ v, r = .alen v ∧ t = { s with host := rest, alen := v }))
      ∨ (∃ op v rest, s.host = op :: rest ∧ (s.busy = true → op = .readReg .status)
          ∧ ((∃ r, op = .readReg r) ∨ ∃ b i, op = .readBuf b i ∧ i < s.capacity b)
          ∧ t = State.answer v { s with host := rest })
      ∨ (∃ b i v rest, s.host = .writeBuf b i v :: rest ∧ s.busy = false ∧ i < s.capacity b
          ∧ t = State.setBuf { s with host := rest } (Mem.write (s.buf b) i v) b)
      ∨ (∃ rest, s.host = .reset :: rest ∧ t = State.hardReset { s with host := rest }) := by
  unfold step at h
  cases hh : s.host with
  | nil =>
    simp only [hh] at h
    cases h
    exact .inl ⟨rfl, rfl⟩
  | cons op rest =>
    simp only [hh, hostAccess] at h
    refine .inr ?_
    cases hb : s.busy with
    | true =>
      simp only [hb, if_true] at h
      unfold busyAccess at h
      split at h
      · cases h
        exact .inr (.inr (.inl ⟨_, _, rest, rfl, fun _ => rfl, .inl ⟨_, rfl⟩, rfl⟩))
      · cases h
        exact .inr (.inr (.inr (.inr ⟨rest, rfl, rfl⟩)))
      · cases h
    | false =>
      simp only [hb, Bool.false_eq_true, if_false] at h
      unfold idleAccess at h
      split at h
      · rename_i r
        unfold writeRegister at h
        split at h
        · exact .inl ⟨_, rest, rfl, rfl, h⟩
        all_goals
          cases h
          refine .inr (.inl ⟨_, rest, rfl, rfl, ?_⟩)
          first
            | exact .inl rfl
            | exact .inr (.inl ⟨_, rfl, rfl⟩)
            | exact .inr (.inr ⟨_, rfl, rfl⟩)
      · cases h
        exact .inr (.inr (.inl ⟨_, _, rest, rfl, fun hc => by simp at hc, .inl ⟨_, rfl⟩, rfl⟩))
      · split at h
        · rename_i hi
          cases h
          exact .inr (.inr (.inr (.inl ⟨_, _, _, rest, rfl, rfl, hi, rfl⟩)))
        · cases h
      · split at h
        · rename_i hi
          cases h
          exact .inr (.inr (.inl ⟨_, _, rest, rfl, fun hc => by simp at hc, .inr ⟨_, _, rfl, hi⟩, rfl⟩))
        · cases h
      · cases h
        exact .inr (.inr (.inr (.inr ⟨rest, rfl, rfl⟩)))

end Sys2Proof.Machine
end

