-- ==== Sys2Proof/Laws/PerInstr.lean ====
section
/-! SUPPORT. The per-instruction family EncodedWordIsLegal: the command word of every command is a legal word (R97) with the
operation code of its format (R91 to R95). -/

namespace Sys2Proof.Laws.EncodedWordIsLegal

/-- The operation code of a command (R91). -/
def opOf : Instr → BitVec 4
  | .configure _ _ => 1
  | .preset _ => 2
  | .encode => 3
  | .decode => 4

/-- The word of `i` is legal and carries the operation code of `i`. -/
def Statement (i : Instr) : Prop := CmdWord.legal (encode i) = true ∧ CmdWord.op (encode i) = opOf i

theorem configure (strictArg : Bool) (padsel : PadSel) : Statement (.configure strictArg padsel) := by
  have hop : CmdWord.op (encode (.configure strictArg padsel)) = 1#4 := by
    refine BitVec.eq_of_getLsbD_eq fun i hi => ?_
    simp only [CmdWord.op, encode, BitVec.getLsbD_extractLsb', BitVec.getLsbD_append]
    interval_cases i <;> simp
  have hres : CmdWord.configureReservedZero (encode (.configure strictArg padsel)) = true := by
    simp only [CmdWord.configureReservedZero, beq_iff_eq]
    refine BitVec.eq_of_getLsbD_eq fun i hi => ?_
    simp only [encode, BitVec.getLsbD_extractLsb', BitVec.getLsbD_append]
    interval_cases i <;> simp
  exact ⟨by simp [CmdWord.legal, CmdWord.opLegal, hop, hres], hop⟩

theorem preset (id : BitVec 2) : Statement (.preset id) := by
  unfold Statement
  revert id
  decide

theorem encode : Statement .encode := by
  unfold Statement
  decide

theorem decode : Statement .decode := by
  unfold Statement
  decide

end Sys2Proof.Laws.EncodedWordIsLegal
end

