-- ==== Sys2Proof/Tests/Slice0.lean ====
section
/-! SUPPORT. The model's own tests: ill-formed words, words written out from the spec's encodings, vectors of
95_test_vectors.md, and for every statement with hypotheses a concrete state and operands that meet them together. -/

namespace Sys2Proof.Tests

open Sys2Proof
open Sys2Proof.Machine
open Sys2Proof.Codec

-- One theorem at a time: many kernel evaluations in parallel ask for more threads than the memory limit allows.
set_option Elab.async false

/-! ## Helpers -/

/-- The state an outcome goes on with, or `d` where it stops. -/
def nextOr (d : State) : Host.Outcome State Fault Refusal → State
  | .next t => t
  | .fault _ => d
  | .refused _ => d

/-- Whether an outcome is a next state. -/
def isNext : Host.Outcome State Fault Refusal → Bool
  | .next _ => true
  | .fault _ => false
  | .refused _ => false

theorem eq_next_of_isNext {o : Host.Outcome State Fault Refusal} (d : State) (h : isNext o = true) :
    o = .next (nextOr d o) := by
  cases o with
  | next t => rfl
  | fault r => simp [isNext] at h
  | refused r => simp [isNext] at h

/-- The state after a command. -/
def after (i : Instr) (s : State) : State := nextOr s (exec i s)

/-- The state after a step. -/
def stepped (s : State) : State := nextOr s (step s)

theorem exec_eq_after {i : Instr} {s : State} (h : isNext (exec i s) = true) : exec i s = .next (after i s) :=
  eq_next_of_isNext s h

theorem step_eq_stepped {s : State} (h : isNext (step s) = true) : step s = .next (stepped s) :=
  eq_next_of_isNext s h

/-- `n` consecutive values from `v` up. -/
def run (v n : Nat) : List Byte := (List.range n).map fun k => BitVec.ofNat 8 (v + k)

/-- The decode table of PRESET STD and RAWSTD, written out from R142. -/
def stdDecList : List Byte :=
  List.replicate 0x2B 0xFF ++ [62] ++ List.replicate 3 0xFF ++ [63] ++ run 52 10 ++ List.replicate 7 0xFF
    ++ run 0 26 ++ List.replicate 6 0xFF ++ run 26 26 ++ List.replicate 133 0xFF

/-- A block configured with the standard alphabet and IN_MAX = 32, whose IBUF and INLEN hold `bytes`. -/
def configured (p : PadSel) (strict : Bool) (bytes : List Byte) : State :=
  { State.reset with
    encTab := ⟨stdAlphabet.toArray, by decide +kernel⟩
    decTab := ⟨stdDecList.toArray, by decide +kernel⟩
    pad := p
    strict := strict
    cfgValid := true
    ibuf := (List.range bytes.length).zip bytes
    inlen := BitVec.ofNat 32 bytes.length
    inMax := 32 }

/-- STD of the vectors. -/
def std (bytes : List Byte) : State := configured 0x03D#9 false bytes

/-- STD-S of the vectors: STD with the strict flag. -/
def stdS (bytes : List Byte) : State := configured 0x03D#9 true bytes

/-- RAWSTD of the vectors. -/
def raw (bytes : List Byte) : State := configured 0x100#9 false bytes

/-- A block with nothing configured whose ABUF and ALEN hold `a`. -/
def withAlphabet (a : List Byte) : State :=
  { State.reset with abuf := Mem.writeBytes [] 0 a, alen := BitVec.ofNat 8 a.length }

/-- `s` with `op` as the host's only access to come. -/
def serving (op : HostOp) (s : State) : State := { s with host := [op] }

/-! ## Well-formedness: each check refuses an ill-formed word -/

theorem test_reserved_op_is_ill_formed :
    CmdWord.legal 0x0000#16 = false ∧ CmdWord.legal 0x5000#16 = false ∧ CmdWord.legal 0xF000#16 = false := by decide

theorem test_configure_reserved_bits_are_ill_formed :
    CmdWord.legal 0x1400#16 = false ∧ CmdWord.legal 0x1800#16 = false := by decide

theorem test_preset_reserved_bits_are_ill_formed :
    CmdWord.legal 0x2004#16 = false ∧ CmdWord.legal 0x2800#16 = false := by decide

theorem test_encode_decode_reserved_bits_are_ill_formed :
    CmdWord.legal 0x3001#16 = false ∧ CmdWord.legal 0x3800#16 = false
      ∧ CmdWord.legal 0x4001#16 = false ∧ CmdWord.legal 0x4800#16 = false := by decide

theorem test_every_command_is_well_formed : Instr.wellFormed (.configure true 0x1FF#9) = true := by decide

/-! ## Decoding: words written out from R92 to R95 -/

/-- R92: `0001 00 s ppppppppp` with s = 1 and p = 0 0011 1101. -/
theorem test_decode_configure : decode 0b0001001000111101#16 = .ok (.configure true 0x03D#9) := by decide

/-- R93: `0010 0000 0000 00 ii` with ii = 10. -/
theorem test_decode_preset : decode 0b0010000000000010#16 = .ok (.preset 2#2) := by decide

/-- R94: `0011 0000 0000 0000`. -/
theorem test_decode_encode : decode 0b0011000000000000#16 = .ok .encode := by decide

/-- R95: `0100 0000 0000 0000`. -/
theorem test_decode_decode : decode 0b0100000000000000#16 = .ok .decode := by decide

/-- The word fetched right after reset is the command placed. -/
theorem test_withFetchWord_runs_preset :
    (stepped (State.reset.withFetchWord 16 0x2001)).cfgValid = true := by decide +kernel

/-! ## Vectors of 95_test_vectors.md -/

/-- V36: the standard alphabet with ABUF[63] = 0x0A and pad 0x0A fails with mask 0x1A. -/
theorem test_configure_v36 :
    (after (.configure false 0x00A#9) (withAlphabet (sharedSymbols ++ [0x2B, 0x0A]))).cfgerr = 0x1A#6 := by
  decide +kernel

/-- The alphabet of V201: 0xC0 to 0xFF. -/
def highAlphabet : List Byte := (List.range 64).map fun k => BitVec.ofNat 8 (0xC0 + k)

/-- V201: 0xFF is a legal symbol byte. -/
theorem test_configure_v201 :
    (after (.configure false 0x000#9) (withAlphabet highAlphabet)).decEntry 0xFF#8 = 63#8
      ∧ (after (.configure false 0x000#9) (withAlphabet highAlphabet)).decEntry 0x00#8 = 0xFF#8 := by decide +kernel

/-- R142: PRESET STD builds the tables of `std`. -/
theorem test_preset_std_tables :
    (after (.preset 0#2) State.reset).decTab.toList = stdDecList
      ∧ (after (.preset 0#2) State.reset).encTab.toList = stdAlphabet := by decide +kernel

/-- V205: PRESET URL. -/
theorem test_preset_v205 :
    (after (.preset 1#2) State.reset).decEntry 0x5F#8 = 63#8
      ∧ (after (.preset 1#2) State.reset).cfginfoRead = 0x003D#16 := by decide +kernel

/-- V3: "fo" encodes to "Zm8=". -/
theorem test_encode_v3 : (after .encode (std [0x66, 0x6F])).output = [0x5A, 0x6D, 0x38, 0x3D] := by decide +kernel

/-- V56, RAWSTD: five bytes encode to "FPucA9k". -/
theorem test_encode_v56 :
    (after .encode (raw [0x14, 0xFB, 0x9C, 0x03, 0xD9])).output = [0x46, 0x50, 0x75, 0x63, 0x41, 0x39, 0x6B] := by
  decide +kernel

/-- V113, STD: line breaks between and after the pads. -/
theorem test_decode_v113 :
    (after .decode (std [0x5A, 0x67, 0x3D, 0x0D, 0x0A, 0x3D, 0x0A])).output = [0x66] := by decide +kernel

/-- V131, STD-S: non-zero unused bits. -/
theorem test_decode_v131 :
    (after .decode (stdS [0x5A, 0x6D, 0x39, 0x76, 0x5A, 0x68, 0x3D, 0x3D])).errcause = .noncanonical := by
  decide +kernel

/-! ## Witnesses: command words and the host port -/

theorem witness_DecodeOfEncodeIsTheCommand :
    Instr.wellFormed (.configure false 0x000#9) = true ∧ Instr.wellFormed (.configure true 0x1FF#9) = true
      ∧ Instr.wellFormed (.preset 3#2) = true ∧ Instr.wellFormed .encode = true
      ∧ Instr.wellFormed .decode = true := by decide

theorem witness_EncodeOfDecodeIsTheWord :
    decode 0x1000#16 = .ok (.configure false 0x000#9) ∧ decode 0x13FF#16 = .ok (.configure true 0x1FF#9)
      ∧ decode 0x2000#16 = .ok (.preset 0#2) ∧ decode 0x2003#16 = .ok (.preset 3#2)
      ∧ decode 0x3000#16 = .ok .encode ∧ decode 0x4000#16 = .ok .decode := by decide

/-- The last clause's hypotheses, at the words next to each legal range. -/
theorem witness_EveryWordIsACommandOrIllegal :
    [0x0FFF#16, 0x1400#16, 0x1FFF#16, 0x2004#16, 0x2FFF#16, 0x3001#16, 0x3FFF#16, 0x4001#16, 0x5000#16, 0xFFFF#16].all
        (fun w => !CmdWord.legal w) = true
      ∧ [0x1000#16, 0x13FF#16, 0x2000#16, 0x2003#16, 0x3000#16, 0x4000#16].all CmdWord.legal = true
      ∧ State.reset.busy = false := by decide +kernel

theorem witness_StepRunsTheIssuedCommand :
    (std []).busy = false
      ∧ (serving (.writeReg (.cmd 0x3000#16)) (std [])).host = .writeReg (.cmd 0x3000#16) :: []
      ∧ decode 0x3000#16 = .ok .encode := by decide +kernel

theorem witness_IllegalCommandIsRefused :
    (serving (.writeReg (.cmd 0x5000#16)) (std [])).busy = false
      ∧ (serving (.writeReg (.cmd 0x5000#16)) (std [])).host = .writeReg (.cmd 0x5000#16) :: []
      ∧ CmdWord.legal 0x5000#16 = false := by decide +kernel

theorem witness_IdleBlockHoldsItsState : (std [0x66]).host = [] := by decide +kernel

theorem witness_ResetInputLeavesTheResetState :
    ∃ s : State, s.busy = true ∧ s.host = .reset :: [.readReg .status] :=
  ⟨{ std [] with busy := true, host := [.reset, .readReg .status] }, rfl, rfl⟩

theorem witness_StatusHoldsItsFields : (std []).busy = false ∧ (std []).cfgValid = true := by decide +kernel

theorem witness_ResultRegistersHoldTheirFields : (stdS []).cfgValid = true := by decide +kernel

/-- One state for each kind of write. -/
theorem witness_RegisterWritesReachInlenAndAlenOnly :
    ∀ r ∈ [RegWrite.status 0xFF, .inlen 0xFFFFFFFF, .outlen 1, .errpos 1, .errcause 1, .cfgerr 1, .alen 0xFF, .cfginfo 1],
      (serving (.writeReg r) (std [])).busy = false ∧ (serving (.writeReg r) (std [])).host = .writeReg r :: [] := by
  decide +kernel

theorem witness_HostReadsAnswerTheRegister :
    (∀ r ∈ [RegId.inlen, .outlen, .errpos, .alen, .status, .errcause, .cfgerr, .cfginfo],
        (serving (.readReg r) (std [0x66])).busy = false ∧ (serving (.readReg r) (std [0x66])).host = .readReg r :: [])
      ∧ (serving (.readBuf .ibuf 0) (std [0x66])).host = .readBuf .ibuf 0 :: []
      ∧ 0 < (serving (.readBuf .ibuf 0) (std [0x66])).capacity .ibuf
      ∧ Mem.read ((serving (.readBuf .ibuf 0) (std [0x66])).buf .ibuf) 0 = some 0x66#8 := by decide +kernel

/-- The last index of each buffer. -/
theorem witness_BufferWriteChangesOneByte :
    ∀ c ∈ [(BufId.abuf, 254), (.ibuf, 31), (.obuf, 43)],
      (serving (.writeBuf c.1 c.2 0xA5#8) (std [])).busy = false
        ∧ (serving (.writeBuf c.1 c.2 0xA5#8) (std [])).host = .writeBuf c.1 c.2 0xA5#8 :: []
        ∧ c.2 < (serving (.writeBuf c.1 c.2 0xA5#8) (std [])).capacity c.1 := by decide +kernel

theorem witness_BreachOfAHostDutyStops :
    ∀ op ∈ [HostOp.writeReg (.cmd 0x3000#16), .readReg .inlen, .writeBuf .ibuf 0 0#8, .readReg .status],
      (serving op { std [] with busy := true }).busy = true
        ∧ (serving op { std [] with busy := true }).host = op :: [] := by decide +kernel

/-- The first index beyond each buffer, for a write and for a read. -/
theorem witness_IndexBeyondCapacityStops :
    ∀ c ∈ [(BufId.abuf, 255), (.ibuf, 32), (.obuf, 44)],
      (std []).busy = false ∧ (std []).capacity c.1 ≤ c.2
        ∧ (serving (.writeBuf c.1 c.2 0#8) (std [])).host = .writeBuf c.1 c.2 0#8 :: []
        ∧ (serving (.readBuf c.1 c.2) (std [])).host = .readBuf c.1 c.2 :: [] := by decide +kernel

/-! ## Witnesses: outcomes and refusals -/

theorem witness_NotConfiguredIsRefused : State.reset.cfgValid = false := by decide

/-- INLEN = IN_MAX + 1. -/
theorem witness_LengthRangeIsRefused :
    ∃ s : State, s.cfgValid = true ∧ s.inMax = 32 ∧ s.inMax < s.inlen.toNat :=
  ⟨{ std [] with inlen := 33 }, by decide +kernel⟩

/-- A BAD byte at the last index, and a truncated input. -/
theorem witness_ErrorPositionLiesWithinTheInput :
    (∃ s t : State, s.Admitted ∧ exec .decode s = .next t ∧ t.result = .decodeError ∧ t.errcause = .invalidByte)
      ∧ ∃ s t : State, s.Admitted ∧ exec .decode s = .next t ∧ t.result = .decodeError ∧ t.errcause = .truncated := by
  exact ⟨⟨std [0x5A, 0x21], after .decode (std [0x5A, 0x21]), by decide +kernel, exec_eq_after (by decide +kernel),
      by decide +kernel, by decide +kernel⟩,
    ⟨std [0x5A], after .decode (std [0x5A]), by decide +kernel, exec_eq_after (by decide +kernel), by decide +kernel,
      by decide +kernel⟩⟩

/-! ## Witnesses: CONFIGURE and PRESET -/

/-- Each bit of the mask is met set and clear, PADSEL at 0x0FF, 0x100, 0x101 and 0x1FF. -/
theorem witness_InvariantMaskHasOneBitPerViolation :
    invariantMask stdAlphabet 0x03D#9 = 0 ∧ invariantMask stdAlphabet 0x100#9 = 0 ∧ invariantMask stdAlphabet 0x0FF#9 = 0
      ∧ invariantMask stdAlphabet 0x101#9 = 0x20#6 ∧ invariantMask stdAlphabet 0x1FF#9 = 0x20#6
      ∧ invariantMask [] 0x100#9 = 0x01#6 ∧ invariantMask (stdAlphabet ++ [0x0D]) 0x100#9 = 0x03#6
      ∧ invariantMask (stdAlphabet ++ [0x41]) 0x100#9 = 0x05#6 ∧ invariantMask stdAlphabet 0x041#9 = 0x08#6
      ∧ invariantMask stdAlphabet 0x00A#9 = 0x10#6 ∧ invariantMask stdAlphabet 0x00D#9 = 0x10#6
      ∧ isNext (exec (.configure false 0x03D#9) (withAlphabet stdAlphabet)) = true
      ∧ isNext (exec (.configure false 0x101#9) (withAlphabet stdAlphabet)) = true := by decide +kernel

theorem witness_ConfigureBuildsTheInstance :
    invariantMask (withAlphabet stdAlphabet).alphabet 0x03D#9 = 0 ∧ 0x2E#8 ∉ (withAlphabet stdAlphabet).alphabet := by
  decide +kernel

theorem witness_FailedConfigureDropsTheInstance :
    invariantMask (withAlphabet stdAlphabet).alphabet 0x041#9 ≠ 0 := by decide +kernel

/-- One witness through CONFIGURE and one through PRESET. -/
theorem witness_ConstructedInstanceIsValid :
    (∃ (s t : State) (st : Bool) (p : PadSel), exec (.configure st p) s = .next t ∧ t.result = .ok)
      ∧ ∃ (s t : State) (id : BitVec 2), exec (.preset id) s = .next t ∧ t.result = .ok := by
  exact ⟨⟨withAlphabet stdAlphabet, after (.configure true 0x100#9) (withAlphabet stdAlphabet), true, 0x100#9,
      exec_eq_after (by decide +kernel), by decide +kernel⟩,
    ⟨State.reset, after (.preset 3#2) State.reset, 3#2, exec_eq_after (by decide +kernel), by decide +kernel⟩⟩

/-- Two states that differ in more than the draw. -/
theorem witness_ConfigureIsAFunctionOfItsOperands :
    ∃ (s s' t t' : State) (st : Bool) (p : PadSel), s.alphabet = s'.alphabet ∧ s.cfgValid ≠ s'.cfgValid
      ∧ exec (.configure st p) s = .next t ∧ exec (.configure st p) s' = .next t' ∧ t.cfgValid = true := by
  refine ⟨withAlphabet stdAlphabet,
    { std [] with abuf := (withAlphabet stdAlphabet).abuf, alen := (withAlphabet stdAlphabet).alen }, _, _, true, 0x100#9,
    by decide +kernel, by decide +kernel, exec_eq_after (by decide +kernel), exec_eq_after (by decide +kernel),
    by decide +kernel⟩

theorem witness_EveryPresetSatisfiesEveryInvariant :
    ∀ id : BitVec 2, isNext (exec (.preset id) State.reset) = true := by decide +kernel

/-- One PRESET for each pair of alphabets, and a byte in neither. -/
theorem witness_PresetDecodeTables :
    isNext (exec (.preset 0#2) State.reset) = true ∧ isNext (exec (.preset 1#2) State.reset) = true
      ∧ isNext (exec (.preset 2#2) State.reset) = true ∧ isNext (exec (.preset 3#2) State.reset) = true
      ∧ 0x20#8 ∉ stdAlphabet ∧ 0x20#8 ∉ urlAlphabet := by decide +kernel

theorem instanceOk_of_same_tables {s t : State} (he : t.encTab = s.encTab) (hd : t.decTab = s.decTab)
    (hp : t.pad = s.pad) (h : s.InstanceOk) : t.InstanceOk := by
  simpa only [State.InstanceOk, State.decEntry, State.encSym, State.padByte, he, hd, hp] using h

theorem std_nil_InstanceOk : (std []).InstanceOk := by decide +kernel

theorem std_InstanceOk (bytes : List Byte) : (std bytes).InstanceOk :=
  instanceOk_of_same_tables rfl rfl rfl std_nil_InstanceOk

theorem stdS_InstanceOk (bytes : List Byte) : (stdS bytes).InstanceOk :=
  instanceOk_of_same_tables rfl rfl rfl std_nil_InstanceOk

theorem raw_nil_InstanceOk : (raw []).InstanceOk := by decide +kernel

/-- Valid instances with padding and without, and a byte of each class. -/
theorem witness_ByteClassesAreDisjoint :
    ((std []).InstanceOk ∧ (raw []).InstanceOk)
      ∧ (std []).classOf 0x41#8 = .sym 0#6 ∧ (std []).classOf 0x0D#8 = .lb
      ∧ (std []).classOf 0x3D#8 = .pad ∧ (std []).classOf 0x21#8 = .bad :=
  ⟨⟨std_InstanceOk [], raw_nil_InstanceOk⟩, by decide +kernel⟩

/-! ## Witnesses: ENCODE -/

/-- The empty input, and an input that fills IBUF. -/
theorem witness_EncodeWritesTheEncodedBytes :
    ((std []).ParamsOk ∧ (std []).Admitted)
      ∧ (std (List.replicate 32 0xA5)).ParamsOk ∧ (std (List.replicate 32 0xA5)).Admitted
      ∧ (std (List.replicate 32 0xA5)).inlen.toNat = (std (List.replicate 32 0xA5)).inMax := by decide +kernel

theorem witness_EncodeOutputLength :
    (std [0x66]).ParamsOk ∧ (std [0x66]).Admitted ∧ (std [0x66]).padEnabled = true
      ∧ (raw [0x66]).ParamsOk ∧ (raw [0x66]).Admitted ∧ (raw [0x66]).padEnabled = false := by decide +kernel

/-- INLEN mod 3 = 0, 1 and 2, with a full chunk, with padding and without. -/
theorem witness_EncodeChunkByChunk :
    ∀ bs ∈ [[0x66#8, 0x6F, 0x6F], [0x66, 0x6F, 0x6F, 0x62], [0x66, 0x6F, 0x6F, 0x62, 0x61]],
      ((std bs).ParamsOk ∧ (std bs).Admitted ∧ isNext (exec .encode (std bs)) = true ∧ (std bs).padEnabled = true)
        ∧ (raw bs).ParamsOk ∧ (raw bs).Admitted ∧ isNext (exec .encode (raw bs)) = true
          ∧ (raw bs).padEnabled = false := by decide +kernel

theorem witness_EncodeOutputClasses :
    (std [0x66]).InstanceOk ∧ (std [0x66]).ParamsOk ∧ (std [0x66]).Admitted
      ∧ isNext (exec .encode (std [0x66])) = true :=
  ⟨std_InstanceOk _, by decide +kernel⟩

theorem witness_EncodeChunksAreIndependent :
    ∃ s x y t tx ty : State, s.ParamsOk ∧ x.ParamsOk ∧ y.ParamsOk ∧ s.Admitted ∧ x.Admitted ∧ y.Admitted
      ∧ s.SameConfig x ∧ s.SameConfig y ∧ s.input = x.input ++ y.input ∧ x.inlen.toNat % 3 = 0 ∧ x.inlen ≠ 0
      ∧ y.inlen ≠ 0 ∧ exec .encode s = .next t ∧ exec .encode x = .next tx ∧ exec .encode y = .next ty := by
  refine ⟨std [0x66, 0x6F, 0x6F, 0x62], std [0x66, 0x6F, 0x6F], std [0x62], _, _, _, by decide +kernel, by decide +kernel,
    by decide +kernel, by decide +kernel, by decide +kernel, by decide +kernel, ⟨rfl, rfl, rfl, rfl, rfl⟩,
    ⟨rfl, rfl, rfl, rfl, rfl⟩, by decide +kernel, by decide +kernel, by decide +kernel, by decide +kernel, exec_eq_after (by decide +kernel),
    exec_eq_after (by decide +kernel), exec_eq_after (by decide +kernel)⟩

/-! ## Witnesses: DECODE -/

/-- An accepted input in strict mode: "Zg=" CR LF "=" LF. -/
theorem witness_DecodeAcceptsExactlyTheLanguage :
    ∃ (s t : State) (vs : List Sym), s.Admitted ∧ s.strict = true ∧ Accepted s s.input vs
      ∧ exec .decode s = .next t ∧ t.result = .ok := by
  refine ⟨stdS [0x5A, 0x67, 0x3D, 0x0D, 0x0A, 0x3D, 0x0A], _, [25#6, 32#6], by decide +kernel, by decide +kernel,
    ⟨⟨2, by decide +kernel, by decide +kernel⟩, fun _ => by decide +kernel⟩, exec_eq_after (by decide +kernel),
    by decide +kernel⟩

/-- Whether a run of the decoder ends without an error. -/
def runOk : Except DecErr Run → Bool
  | .ok _ => true
  | .error _ => false

theorem exists_run_of_runOk {o : Except DecErr Run} (h : runOk o = true) : ∃ r, o = .ok r := by
  cases o with
  | ok r => exact ⟨r, rfl⟩
  | error e => simp [runOk] at h

theorem exists_err_of_runOk {o : Except DecErr Run} (h : runOk o = false) : ∃ e, o = .error e := by
  cases o with
  | ok r => simp [runOk] at h
  | error e => exact ⟨e, rfl⟩

/-- A loop that ends well and a loop that fails. -/
theorem witness_DecodeKeepsWithinItsOutputBound :
    (∃ r, decLoop true (std [0x5A, 0x6D, 0x39, 0x76]) 5 (decStart (std [0x5A, 0x6D, 0x39, 0x76])) = .ok r)
      ∧ ∃ e, decLoop true (std [0x5A, 0x6D, 0x39]) 4 (decStart (std [0x5A, 0x6D, 0x39])) = .error e :=
  ⟨exists_run_of_runOk (by decide +kernel), exists_err_of_runOk (by decide +kernel)⟩

/-- A loop stopped after one pass of two, the same with one pass more, a failure, and a whole run. -/
theorem witness_DecodeConsumesTheWholeInput :
    (∃ r r', decLoop true (std (run 0x41 8)) 1 (decStart (std (run 0x41 8))) = .ok r
        ∧ decLoop true (std (run 0x41 8)) 2 (decStart (std (run 0x41 8))) = .ok r')
      ∧ (∃ e, decLoop true (std [0x5A, 0x6D, 0x39]) 4 (decStart (std [0x5A, 0x6D, 0x39])) = .error e)
      ∧ (∃ r, decodeRun (std [0x5A, 0x6D, 0x39, 0x76]) = .ok r)
      ∧ (std [0x5A, 0x6D, 0x39, 0x76]).inlen.toNat ≤ 4 := by
  obtain ⟨r, hr⟩ := exists_run_of_runOk (o := decLoop true (std (run 0x41 8)) 1 (decStart (std (run 0x41 8))))
    (by decide +kernel)
  obtain ⟨r', hr'⟩ := exists_run_of_runOk (o := decLoop true (std (run 0x41 8)) 2 (decStart (std (run 0x41 8))))
    (by decide +kernel)
  exact ⟨⟨r, r', hr, hr'⟩, exists_err_of_runOk (by decide +kernel), exists_run_of_runOk (by decide +kernel),
    by decide +kernel⟩

theorem witness_FailedDecodeLeavesOutputUnspecified :
    (std [0x5A, 0x6D, 0x39]).Admitted ∧ ∃ e, decodeRun (std [0x5A, 0x6D, 0x39]) = .error e :=
  ⟨by decide +kernel, exists_err_of_runOk (by decide +kernel)⟩

/-- A BAD byte at the first index, and one at the last after a symbol and a line break. -/
theorem witness_BadByteIsInvalidByte :
    ((std [0x21]).Admitted ∧ (0 : Nat) < (std [0x21]).inlen.toNat
        ∧ (std [0x21]).classOf ((std [0x21]).byteAt .ibuf 0) = .bad)
      ∧ (std [0x5A, 0x0A, 0x21]).Admitted ∧ (2 : Nat) < (std [0x5A, 0x0A, 0x21]).inlen.toNat
      ∧ (std [0x5A, 0x0A, 0x21]).classOf ((std [0x5A, 0x0A, 0x21]).byteAt .ibuf 2) = .bad
      ∧ (std [0x5A, 0x0A, 0x21]).classOf ((std [0x5A, 0x0A, 0x21]).byteAt .ibuf 0) = .sym 25#6
      ∧ (std [0x5A, 0x0A, 0x21]).classOf ((std [0x5A, 0x0A, 0x21]).byteAt .ibuf 1) = .lb := by decide +kernel

/-- A pad byte after 0 symbols and after 1. -/
theorem witness_PadBeforeSlotTwoIsEarly :
    (std [0x3D]).Admitted ∧ significant (std [0x3D]) (std [0x3D]).input = ([] : List Sym).map ByteClass.sym ++ .pad :: []
      ∧ (std [0x5A, 0x0A, 0x3D]).Admitted
      ∧ significant (std [0x5A, 0x0A, 0x3D]) (std [0x5A, 0x0A, 0x3D]).input = [25#6].map ByteClass.sym ++ .pad :: [] := by
  decide +kernel

/-- The end of the input, a symbol and a BAD byte after the first pad byte. -/
theorem witness_MissingSecondPadIsIncomplete :
    ∀ c ∈ ([([], []), ([0x41], [.sym 0#6]), ([0x21], [.bad])] : List (List Byte × List ByteClass)),
      (std ([0x5A, 0x67, 0x3D] ++ c.1)).Admitted
        ∧ significant (std ([0x5A, 0x67, 0x3D] ++ c.1)) (std ([0x5A, 0x67, 0x3D] ++ c.1)).input
            = [25#6, 32#6].map ByteClass.sym ++ .pad :: c.2
        ∧ c.2.head? ≠ some .pad := by decide +kernel

/-- A third pad byte by the slot-2 path, and a BAD byte by the slot-3 path. -/
theorem witness_DataAfterPaddingIsTrailing :
    (std [0x5A, 0x67, 0x3D, 0x3D, 0x3D]).Admitted
      ∧ significant (std [0x5A, 0x67, 0x3D, 0x3D, 0x3D]) (std [0x5A, 0x67, 0x3D, 0x3D, 0x3D]).input
          = [25#6, 32#6].map ByteClass.sym ++ .pad :: .pad :: .pad :: []
      ∧ (std [0x5A, 0x6D, 0x38, 0x3D, 0x21]).Admitted
      ∧ significant (std [0x5A, 0x6D, 0x38, 0x3D, 0x21]) (std [0x5A, 0x6D, 0x38, 0x3D, 0x21]).input
          = [25#6, 38#6, 60#6].map ByteClass.sym ++ .pad :: .bad :: [] := by decide +kernel

/-- One symbol without padding enabled; two and three symbols with it. -/
theorem witness_UnfinishedQuantumIsTruncated :
    ((raw [0x5A]).Admitted ∧ significant (raw [0x5A]) (raw [0x5A]).input = [25#6].map ByteClass.sym)
      ∧ ((std [0x5A, 0x67]).Admitted ∧ (std [0x5A, 0x67]).padEnabled = true
        ∧ significant (std [0x5A, 0x67]) (std [0x5A, 0x67]).input = [25#6, 32#6].map ByteClass.sym)
      ∧ (std [0x5A, 0x6D, 0x38]).Admitted ∧ (std [0x5A, 0x6D, 0x38]).padEnabled = true
      ∧ significant (std [0x5A, 0x6D, 0x38]) (std [0x5A, 0x6D, 0x38]).input = [25#6, 38#6, 60#6].map ByteClass.sym := by
  decide +kernel

/-- "Zh==" with the strict flag and without it, and "Zg==" with it. -/
theorem witness_StrictModeRejectsNonCanonicalInput :
    ((stdS [0x5A, 0x68, 0x3D, 0x3D]).Admitted ∧ (stdS [0x5A, 0x68, 0x3D, 0x3D]).strict = true
        ∧ HasForm (stdS [0x5A, 0x68, 0x3D, 0x3D]) (stdS [0x5A, 0x68, 0x3D, 0x3D]).input [25#6, 33#6])
      ∧ ((std [0x5A, 0x68, 0x3D, 0x3D]).Admitted ∧ (std [0x5A, 0x68, 0x3D, 0x3D]).strict = false
        ∧ HasForm (std [0x5A, 0x68, 0x3D, 0x3D]) (std [0x5A, 0x68, 0x3D, 0x3D]).input [25#6, 33#6])
      ∧ ((stdS [0x5A, 0x67, 0x3D, 0x3D]).Admitted
        ∧ HasForm (stdS [0x5A, 0x67, 0x3D, 0x3D]) (stdS [0x5A, 0x67, 0x3D, 0x3D]).input [25#6, 32#6])
      ∧ unusedZero (tailOf [25#6, 33#6]) = false ∧ unusedZero (tailOf [25#6, 32#6]) = true :=
  ⟨⟨by decide +kernel, by decide +kernel, 2, by decide +kernel, by decide +kernel⟩,
    ⟨by decide +kernel, by decide +kernel, 2, by decide +kernel, by decide +kernel⟩,
    ⟨by decide +kernel, 2, by decide +kernel, by decide +kernel⟩, by decide +kernel, by decide +kernel⟩

/-- An input whose encoding fills IBUF exactly: 24 bytes give 32. -/
theorem witness_DecodeOfEncodeIsTheInput :
    ∃ s t : State, s.ParamsOk ∧ s.Admitted ∧ s.InstanceOk ∧ exec .encode s = .next t ∧ t.outlen.toNat = s.inMax :=
  ⟨stdS (List.replicate 24 0xA5), _, by decide +kernel, by decide +kernel, stdS_InstanceOk _,
    exec_eq_after (by decide +kernel), by decide +kernel⟩

/-- "Zg==" with and without line breaks. -/
theorem witness_LineBreaksDoNotChangeTheResult :
    ∃ s s' t t' : State, s.Admitted ∧ s'.Admitted ∧ s.SameConfig s' ∧ s.input ≠ s'.input
      ∧ s.input.filter (fun b => s.classOf b ≠ .lb) = s'.input.filter (fun b => s'.classOf b ≠ .lb)
      ∧ exec .decode s = .next t ∧ exec .decode s' = .next t' ∧ t.result = .ok :=
  ⟨std [0x5A, 0x67, 0x3D, 0x3D], std [0x0A, 0x5A, 0x0D, 0x67, 0x3D, 0x0A, 0x3D], _, _, by decide +kernel, by decide +kernel,
    ⟨rfl, rfl, rfl, rfl, rfl⟩, by decide +kernel, by decide +kernel, exec_eq_after (by decide +kernel),
    exec_eq_after (by decide +kernel), by decide +kernel⟩

/-! ## Witnesses: the whole machine -/

theorem witness_OnlyConfigurationCommandsWriteTheInstance :
    ∃ s t : State, step s = .next t ∧ s.pad ≠ t.pad :=
  ⟨serving (.writeReg (.cmd 0x2001#16)) (raw []), _, step_eq_stepped (by decide +kernel), by decide +kernel⟩

/-- `s` with other result registers. -/
def otherResults (s : State) : State :=
  { s with
    result := .lengthRange
    errcause := .padEarly
    errpos := 1
    cfgerr := 1
    outlen := 9
    obuf := [(0, 1#8)] }

/-- ENCODE and DECODE that end in OK, and a DECODE that fails. -/
theorem witness_ResultRegistersAreOutputsOnly :
    (isNext (exec .encode (std [0x66])) = true ∧ isNext (exec .encode (otherResults (std [0x66]))) = true
        ∧ (after .encode (std [0x66])).result = .ok)
      ∧ (isNext (exec .decode (std [])) = true ∧ isNext (exec .decode (otherResults (std []))) = true
        ∧ (after .decode (std [])).result = .ok)
      ∧ isNext (exec .decode (std [0x5A])) = true ∧ isNext (exec .decode (otherResults (std [0x5A]))) = true
      ∧ (after .decode (std [0x5A])).result = .decodeError := by decide +kernel

/-- Two states that differ beyond the input: other working registers, other bytes after INLEN. -/
theorem witness_EnginesDependOnConfigurationAndInputOnly :
    ∃ s s' : State, s.SameConfig s' ∧ s'.inlen = s.inlen ∧ s'.input = s.input ∧ s.work ≠ s'.work ∧ s.ibuf ≠ s'.ibuf :=
  ⟨std [0x66], { std [0x66] with work := { Work.reset with ePos := 7, dEnd := true }, ibuf := [(0, 0x66#8), (1, 9#8)] },
    ⟨rfl, rfl, rfl, rfl, rfl⟩, rfl, by decide +kernel, by decide +kernel, by decide +kernel⟩

theorem witness_NoStepWritesInMax :
    ∃ s t : State, step s = .next t ∧ s.draws ≠ t.draws :=
  ⟨serving .reset (std []), _, step_eq_stepped (by decide +kernel), by decide +kernel⟩

/-- The whole invariant holds at a configured block too. -/
theorem witness_invariant_of_a_configured_block : (std [0x66]).Inv :=
  ⟨rfl, by decide +kernel, fun _ => std_InstanceOk _, by decide +kernel, by decide +kernel⟩

theorem witness_StepKeepsTheConfigurationSound :
    ∃ s t : State, s.cfgValid = true ∧ s.ConfigOk ∧ step s = .next t :=
  ⟨serving (.writeReg (.cmd 0x4000#16)) (std []), _, rfl, fun _ => instanceOk_of_same_tables rfl rfl rfl std_nil_InstanceOk,
    step_eq_stepped (by decide +kernel)⟩

theorem witness_StepKeepsBuffersCanonical :
    ∃ s t : State, s.BuffersWf ∧ step s = .next t ∧ t.obuf ≠ [] :=
  ⟨serving (.writeReg (.cmd 0x3000#16)) (std [0x66]), _, by decide +kernel, step_eq_stepped (by decide +kernel),
    by decide +kernel⟩

/-- ENCODE of a full IBUF fills OBUF to its last byte. -/
theorem witness_StepKeepsBuffersWithinCapacity :
    ∃ s t : State, s.ParamsOk ∧ s.BuffersFit ∧ step s = .next t ∧ t.outlen.toNat = outMax s.inMax :=
  ⟨serving (.writeReg (.cmd 0x3000#16)) (std (List.replicate 32 0xA5)), _, by decide +kernel, by decide +kernel,
    step_eq_stepped (by decide +kernel), by decide +kernel⟩

theorem witness_NoStepLeavesACommandRunning :
    ∃ s t : State, s.busy = false ∧ step s = .next t ∧ t.result = .ok :=
  ⟨serving (.writeReg (.cmd 0x4000#16)) (std []), _, by decide +kernel, step_eq_stepped (by decide +kernel),
    by decide +kernel⟩

theorem witness_OnlyAnIndexBeyondCapacityStopsAStep :
    (std []).busy = false ∧ step (serving (.readBuf .ibuf 32) (std [])) = .fault .noSuchIndex := by
  exact ⟨by decide +kernel, rfl⟩

/-- A full chunk and a partial one. -/
theorem witness_EncodeConsumesTheWholeInput :
    1 ≤ (std [0x66, 0x6F, 0x6F, 0x62]).inlen.toNat / 3 ∧ (std [0x66, 0x6F, 0x6F, 0x62]).inlen.toNat % 3 = 1 := by
  decide +kernel

end Sys2Proof.Tests
end

section
/-! PROOFS. The scope family (00_scope.md): a host write of one buffer byte, the parameter IN_MAX, and BUSY between two
accesses. They rest on two rules: what a command can end in (`exec_cases`), and what a host write of a buffer byte leaves
(`step_writeBuf`). -/

namespace Sys2Proof.Machine

/-! ## The ends of a command -/

/-- Every command answers a next state, through one of five ends (R250) under the condition that leads there: the mask of
the invariants for construction, admission (R263) and the engine for ENCODE and DECODE. -/
theorem exec_cases (i : Instr) (s : State) :
    (∃ a p st, invariantMask a p = 0 ∧ exec i s = .next (s.loadInstance a p st))
      ∨ (∃ a p, invariantMask a p ≠ 0 ∧ exec i s = .next (s.raiseConstruction (invariantMask a p)))
      ∨ (∃ r, s.admission = some r ∧ exec i s = .next (s.complete r))
      ∨ (s.admission = none ∧ ∃ e, decodeRun s = .error e
          ∧ exec i s = .next (s.raiseDecode e.cause (errPosOf e)))
      ∨ (s.admission = none ∧ ∃ outlen obuf, exec i s = .next (s.finishCodec outlen obuf)) := by
  cases i with
  | configure strictArg padsel =>
    rcases s.construct_cases s.alphabet padsel strictArg with ⟨hm, hc⟩ | ⟨hm, hc⟩
    · exact .inl ⟨_, _, _, hm, congrArg Host.Outcome.next hc⟩
    · exact .inr (.inl ⟨_, _, hm, congrArg Host.Outcome.next hc⟩)
  | preset id =>
    rcases s.construct_cases (presetRom id).alphabet (presetRom id).padsel (presetRom id).strict
      with ⟨hm, hc⟩ | ⟨hm, hc⟩
    · exact .inl ⟨_, _, _, hm, congrArg Host.Outcome.next hc⟩
    · exact .inr (.inl ⟨_, _, hm, congrArg Host.Outcome.next hc⟩)
  | encode =>
    rcases execEncode_cases s with ⟨r, ha, he⟩ | ⟨ha, he⟩
    · exact .inr (.inr (.inl ⟨r, ha, he⟩))
    · exact .inr (.inr (.inr (.inr ⟨ha, _, _, he⟩)))
  | decode =>
    rcases execDecode_cases s with ⟨r, ha, hd⟩ | ⟨ha, e, hr, hd⟩ | ⟨ha, r, -, hd⟩
    · exact .inr (.inr (.inl ⟨r, ha, hd⟩))
    · exact .inr (.inr (.inr (.inl ⟨ha, e, hr, hd⟩)))
    · exact .inr (.inr (.inr (.inr ⟨ha, _, _, hd⟩)))

/-- Every command completes with BUSY = 0 (R293) and IN_MAX as it was (R6). -/
theorem exec_completes (i : Instr) (s : State) :
    ∃ t, exec i s = .next t ∧ t.busy = false ∧ t.inMax = s.inMax := by
  rcases exec_cases i s with ⟨_, _, _, -, h⟩ | ⟨_, _, -, h⟩ | ⟨_, -, h⟩ | ⟨-, _, -, h⟩ | ⟨-, _, _, h⟩ <;>
    exact ⟨_, h, by simp, by simp⟩

/-- Every command word, legal or not, is served to its end with BUSY = 0 (R261, R293) and IN_MAX as it was (R6). -/
theorem issueCommand_completes (w : CmdWord) (s : State) :
    ∃ t, issueCommand w s = .next t ∧ t.busy = false ∧ t.inMax = s.inMax := by
  rcases issueCommand_cases w s with ⟨i, -, hi⟩ | ⟨_, -, hi⟩
  · obtain ⟨t, ht, hbusy, hmax⟩ := exec_completes i s.accept
    exact ⟨t, hi.trans ht, hbusy, by simpa using hmax⟩
  · exact ⟨_, hi, by simp, by simp⟩

/-! ## A host write of a buffer byte -/

/-! `State.setBuf` writes no field but the three buffers. -/

@[simp] theorem State.setBuf_encTab (s : State) (m : Mem) (b : BufId) : (s.setBuf m b).encTab = s.encTab := by cases b <;> rfl
@[simp] theorem State.setBuf_decTab (s : State) (m : Mem) (b : BufId) : (s.setBuf m b).decTab = s.decTab := by cases b <;> rfl
@[simp] theorem State.setBuf_pad (s : State) (m : Mem) (b : BufId) : (s.setBuf m b).pad = s.pad := by cases b <;> rfl
@[simp] theorem State.setBuf_strict (s : State) (m : Mem) (b : BufId) : (s.setBuf m b).strict = s.strict := by cases b <;> rfl
@[simp] theorem State.setBuf_cfgValid (s : State) (m : Mem) (b : BufId) : (s.setBuf m b).cfgValid = s.cfgValid := by cases b <;> rfl
@[simp] theorem State.setBuf_busy (s : State) (m : Mem) (b : BufId) : (s.setBuf m b).busy = s.busy := by cases b <;> rfl
@[simp] theorem State.setBuf_result (s : State) (m : Mem) (b : BufId) : (s.setBuf m b).result = s.result := by cases b <;> rfl
@[simp] theorem State.setBuf_inlen (s : State) (m : Mem) (b : BufId) : (s.setBuf m b).inlen = s.inlen := by cases b <;> rfl
@[simp] theorem State.setBuf_outlen (s : State) (m : Mem) (b : BufId) : (s.setBuf m b).outlen = s.outlen := by cases b <;> rfl
@[simp] theorem State.setBuf_errpos (s : State) (m : Mem) (b : BufId) : (s.setBuf m b).errpos = s.errpos := by cases b <;> rfl
@[simp] theorem State.setBuf_errcause (s : State) (m : Mem) (b : BufId) : (s.setBuf m b).errcause = s.errcause := by cases b <;> rfl
@[simp] theorem State.setBuf_cfgerr (s : State) (m : Mem) (b : BufId) : (s.setBuf m b).cfgerr = s.cfgerr := by cases b <;> rfl
@[simp] theorem State.setBuf_alen (s : State) (m : Mem) (b : BufId) : (s.setBuf m b).alen = s.alen := by cases b <;> rfl
@[simp] theorem State.setBuf_work (s : State) (m : Mem) (b : BufId) : (s.setBuf m b).work = s.work := by cases b <;> rfl
@[simp] theorem State.setBuf_inMax (s : State) (m : Mem) (b : BufId) : (s.setBuf m b).inMax = s.inMax := by cases b <;> rfl
@[simp] theorem State.setBuf_host (s : State) (m : Mem) (b : BufId) : (s.setBuf m b).host = s.host := by cases b <;> rfl

/-! The host's pending accesses are no part of a buffer. -/

@[simp] theorem State.capacity_withHost (s : State) (ops : List HostOp) (b : BufId) :
    State.capacity { s with host := ops } b = s.capacity b := by cases b <;> rfl
@[simp] theorem State.buf_withHost (s : State) (ops : List HostOp) (b : BufId) :
    State.buf { s with host := ops } b = s.buf b := by cases b <;> rfl
@[simp] theorem State.byteAt_withHost (s : State) (ops : List HostOp) (b : BufId) (i : Nat) :
    State.byteAt { s with host := ops } b i = s.byteAt b i := by cases b <;> rfl

/-- With no command running the host's next access is served as R70 gives it for BUSY = 0. -/
theorem step_of_idle {s : State} {op : HostOp} {rest : List HostOp} (hb : s.busy = false) (hh : s.host = op :: rest) :
    step s = idleAccess op { s with host := rest } := by
  simp [step, hh, hostAccess, hb]

/-- A host write of a byte within capacity is one `MemWrite` of that buffer (R9, R63), and the access is taken. -/
theorem step_writeBuf {s : State} {rest : List HostOp} {b : BufId} {i : Nat} {v : Byte} (hb : s.busy = false)
    (hh : s.host = .writeBuf b i v :: rest) (hi : i < s.capacity b) :
    step s = .next (State.setBuf { s with host := rest } (Mem.write (s.buf b) i v) b) := by
  rw [step_of_idle hb hh, idleAccess, State.capacity_withHost, if_pos hi, State.buf_withHost]

/-- The buffers after a host write of a byte, byte by byte. -/
theorem State.byteAt_writeBuf (s : State) (rest : List HostOp) (b c : BufId) (i j : Nat) (v : Byte) :
    (State.setBuf { s with host := rest } (Mem.write (s.buf b) i v) b).byteAt c j
      = if c = b ∧ j = i then v else s.byteAt c j := by
  rw [← State.buf_withHost s rest b, State.byteAt_setBuf, State.byteAt_withHost]

/-! ## What every step keeps -/

/-- A step writes no IN_MAX (R6), whatever access it serves. -/
theorem step_inMax {s t : State} (h : step s = .next t) : t.inMax = s.inMax := by
  rcases step_cases h with ⟨-, rfl⟩ | ⟨w, rest, -, -, hc⟩ | ⟨r, rest, -, -, hw⟩ | ⟨op, v, rest, -, -, -, rfl⟩
    | ⟨b, i, v, rest, -, -, -, rfl⟩ | ⟨rest, -, rfl⟩
  case inl => rfl
  case inr.inl =>
    obtain ⟨t', ht', -, hmax⟩ := issueCommand_completes w { s with host := rest }
    cases hc.symm.trans ht'
    exact hmax
  case inr.inr.inl => rcases hw with rfl | ⟨_, -, rfl⟩ | ⟨_, -, rfl⟩ <;> rfl
  all_goals simp

/-- A step that starts with BUSY = 0 ends with BUSY = 0 (R11): only a command sets BUSY, and it clears it. -/
theorem step_busy {s t : State} (hb : s.busy = false) (h : step s = .next t) : t.busy = false := by
  rcases step_cases h with ⟨-, rfl⟩ | ⟨w, rest, -, -, hc⟩ | ⟨r, rest, -, -, hw⟩ | ⟨op, v, rest, -, -, -, rfl⟩
    | ⟨b, i, v, rest, -, -, -, rfl⟩ | ⟨rest, -, rfl⟩
  case inr.inl =>
    obtain ⟨t', ht', hbusy, -⟩ := issueCommand_completes w { s with host := rest }
    cases hc.symm.trans ht'
    exact hbusy
  case inr.inr.inl => rcases hw with rfl | ⟨_, -, rfl⟩ | ⟨_, -, rfl⟩ <;> exact hb
  all_goals simp [hb]

/-! ## The obligations -/

/-- Settles O14: the step is one `Mem.write`, read back by `State.byteAt_writeBuf`; no other field is written. -/
theorem bufferWriteChangesOneByte : Obligations.BufferWriteChangesOneByte := by
  intro s rest b i v hb hh hi
  refine ⟨_, step_writeBuf hb hh hi, ?_, fun c j hne => ?_, ?_⟩
  · rw [State.byteAt_writeBuf, if_pos ⟨rfl, rfl⟩]
  · rw [State.byteAt_writeBuf, if_neg hne]
  · simp [State.SameConfig, hb]

/-- Settles O53, by the cases of a step. -/
theorem noStepWritesInMax : Obligations.NoStepWritesInMax := fun _ _ h => step_inMax h

/-- Settles O58, by the cases of a step: the command among them completes within it. -/
theorem noStepLeavesACommandRunning : Obligations.NoStepLeavesACommandRunning := fun _ _ hb h => step_busy hb h

end Sys2Proof.Machine
end

section
/-! PROOFS. The state family (10_state.md), the configuration state: what the construction invariants of R131 say, the two
tables that construction builds (R134), and which steps write the configuration state (R26). -/

namespace Sys2Proof.Machine

/-! ## The construction invariants -/

theorem hasDuplicate_eq_false_iff (a : List Byte) : hasDuplicate a = false ↔ a.Nodup := by
  induction a with
  | nil => simp [hasDuplicate]
  | cons b bs ih => simp [hasDuplicate, ih]

/-- A mask of 0 violates none of the six invariants (R131, R133). -/
theorem invariantMask_eq_zero_iff (a : List Byte) (p : PadSel) :
    invariantMask a p = 0 ↔
      padRange p = false ∧ padLinebreak p = false ∧ padInAlphabet a p = false
        ∧ hasDuplicate a = false ∧ alphLinebreak a = false ∧ alphLen a = false := by
  unfold invariantMask
  generalize padRange p = b5
  generalize padLinebreak p = b4
  generalize padInAlphabet a p = b3
  generalize hasDuplicate a = b2
  generalize alphLinebreak a = b1
  generalize alphLen a = b0
  revert b5 b4 b3 b2 b1 b0
  decide

/-- An alphabet that violates no invariant: 64 distinct symbols, none of them a line break (R131 bits 0 to 2). -/
theorem alphabet_of_invariantMask_eq_zero {a : List Byte} {p : PadSel} (hm : invariantMask a p = 0) :
    a.length = 64 ∧ a.Nodup ∧ ∀ b ∈ a, isLineBreak b = false := by
  obtain ⟨-, -, -, hdup, hlb, hlen⟩ := (invariantMask_eq_zero_iff a p).1 hm
  exact ⟨by simpa [alphLen] using hlen, (hasDuplicate_eq_false_iff a).1 hdup, by simpa [alphLinebreak] using hlb⟩

/-- A padding operand that violates no invariant and is not NONE: a byte that is neither a symbol nor a line break (R131
bits 3 to 5). -/
theorem pad_of_invariantMask_eq_zero {a : List Byte} {p : PadSel} (hm : invariantMask a p = 0) (hp : p ≠ padNone) :
    p.toNat < 256 ∧ isLineBreak (p.extractLsb' 0 8) = false ∧ p.extractLsb' 0 8 ∉ a := by
  obtain ⟨hrange, hlb, hin, -, -, -⟩ := (invariantMask_eq_zero_iff a p).1 hm
  have hlt : p.toNat < 256 := by
    simp only [padRange, decide_eq_false_iff_not] at hrange
    unfold padNone at hp
    bv_omega
  refine ⟨hlt, ?_, ?_⟩
  · simp only [padLinebreak, Bool.or_eq_false_iff, beq_eq_false_iff_ne] at hlb
    obtain ⟨hlf, hcr⟩ := hlb
    have hbyte : (p.extractLsb' 0 8).toNat = p.toNat := by simp; omega
    simp only [isLineBreak, Bool.or_eq_false_iff, beq_eq_false_iff_ne, ne_eq, BitVec.toNat_eq, hbyte] at hlf hcr ⊢
    exact ⟨hlf, hcr⟩
  · have hle : p ≤ 0x0FF#9 := by bv_omega
    simpa [padInAlphabet, hle] using hin

/-! ## The tables -/

/-- ENC_TAB[i] = A[i] (R134). -/
theorem getElem_buildEncTab {a : List Byte} (hlen : a.length = 64) (i : Nat) (hi : i < 64) :
    (buildEncTab a)[i] = a[i] := by
  simp [buildEncTab, hlen]

theorem toList_buildEncTab {a : List Byte} (hlen : a.length = 64) : (buildEncTab a).toList = a :=
  List.ext_getElem (by simp [hlen]) fun i hi _ => by
    simpa using getElem_buildEncTab hlen i (by simpa using hi)

/-- The inversion writes no entry but those of the symbols. -/
theorem getElem_invertInto_of_notMem (t : Vector Byte 256) (i : Nat) {syms : List Byte} {b : Byte} (hb : b ∉ syms) :
    (invertInto t i syms)[b.toNat] = t[b.toNat] := by
  induction syms generalizing t i with
  | nil => rfl
  | cons c cs ih =>
    obtain ⟨hne, hcs⟩ := not_or.1 (List.mem_cons.not.1 hb)
    rw [invertInto, ih _ _ hcs, Vector.getElem_set_ne _ _ fun h => hne (BitVec.eq_of_toNat_eq h.symm)]

/-- The inversion writes each symbol's own index, when no symbol occurs twice. -/
theorem getElem_invertInto (t : Vector Byte 256) (i : Nat) {syms : List Byte} (hnodup : syms.Nodup) (k : Nat)
    (hk : k < syms.length) : (invertInto t i syms)[syms[k].toNat] = BitVec.ofNat 8 (i + k) := by
  induction syms generalizing t i k with
  | nil => simp at hk
  | cons c cs ih =>
    obtain ⟨hc, hcs⟩ := List.nodup_cons.1 hnodup
    cases k with
    | zero => simp only [invertInto, List.getElem_cons_zero, getElem_invertInto_of_notMem _ _ hc,
        Vector.getElem_set_self, Nat.add_zero]
    | succ k =>
      simp only [invertInto, List.getElem_cons_succ, ih _ _ hcs k (by simpa using hk)]
      congr 1
      omega

/-- The decode table at a byte that is no symbol (R134). -/
theorem loadInstance_decEntry_of_notMem {a : List Byte} (hlen : a.length = 64) (p : PadSel) (st : Bool) (s : State)
    {b : Byte} (hb : b ∉ a) : (s.loadInstance a p st).decEntry b = invalidMark := by
  simp [State.decEntry, buildDecTab, toList_buildEncTab hlen, getElem_invertInto_of_notMem _ _ hb]

/-- The decode table at the symbol of index `k` (R134). -/
theorem loadInstance_decEntry_getElem {a : List Byte} (hlen : a.length = 64) (hnodup : a.Nodup) (p : PadSel) (st : Bool)
    (s : State) (k : Nat) (hk : k < a.length) : (s.loadInstance a p st).decEntry a[k] = BitVec.ofNat 8 k := by
  simp [State.decEntry, buildDecTab, toList_buildEncTab hlen, getElem_invertInto _ _ hnodup k hk]

/-- The encode table at a symbol value (R134). -/
theorem loadInstance_encSym {a : List Byte} (hlen : a.length = 64) (p : PadSel) (st : Bool) (s : State) (v : Sym) :
    (s.loadInstance a p st).encSym v = a[v.toNat]'(hlen.symm ▸ v.isLt) := by
  simp [State.encSym, getElem_buildEncTab hlen]

/-- Construction from operands that violate no invariant leaves valid tables and padding (R22, R23, R134). -/
theorem loadInstance_instanceOk {a : List Byte} {p : PadSel} (hm : invariantMask a p = 0) (st : Bool) (s : State) :
    (s.loadInstance a p st).InstanceOk := by
  obtain ⟨hlen, hnodup, hlb⟩ := alphabet_of_invariantMask_eq_zero hm
  have hmark : ∀ {b : Byte}, isLineBreak b = true → (s.loadInstance a p st).decEntry b = invalidMark := fun hb =>
    loadInstance_decEntry_of_notMem hlen p st s fun hmem => by simp [hlb _ hmem] at hb
  refine ⟨fun v => ?_, fun b hb => ?_, hmark rfl, hmark rfl, fun hp => ?_⟩
  · rw [loadInstance_encSym hlen, loadInstance_decEntry_getElem hlen hnodup]
    exact BitVec.eq_of_toNat_eq (by simp)
  · have hmem : b ∈ a := by
      by_contra hn
      exact hb (loadInstance_decEntry_of_notMem hlen p st s hn)
    obtain ⟨k, hk, rfl⟩ := List.mem_iff_getElem.1 hmem
    have hk64 : k < 64 := hlen ▸ hk
    have hidx : ((BitVec.ofNat 8 k).setWidth 6).toNat = k := by
      simp only [BitVec.toNat_setWidth, BitVec.toNat_ofNat]
      omega
    rw [loadInstance_decEntry_getElem hlen hnodup p st s k hk, loadInstance_encSym hlen]
    refine ⟨by simp only [hidx], ?_⟩
    rw [BitVec.toNat_ofNat]
    omega
  · rw [State.loadInstance_pad] at hp ⊢
    obtain ⟨hlt, hbrk, hnot⟩ := pad_of_invariantMask_eq_zero hm hp
    have hbyte : (s.loadInstance a p st).padByte = p.extractLsb' 0 8 := by simp [State.padByte]
    rw [hbyte]
    exact ⟨hlt, hbrk, loadInstance_decEntry_of_notMem hlen p st s hnot⟩

/-- Construction leaves valid tables and padding when it ends in OK (R130, R135). -/
theorem construct_instanceOk {a : List Byte} {p : PadSel} {st : Bool} {s : State}
    (h : (s.construct a p st).result = .ok) : (s.construct a p st).InstanceOk := by
  rcases s.construct_cases a p st with ⟨hm, hc⟩ | ⟨-, hc⟩
  · exact hc ▸ loadInstance_instanceOk hm st s
  · simp [hc] at h

/-! ## Which steps write the configuration state -/

/-- ENCODE and DECODE write none of the configuration state, whatever their end (R26). -/
theorem exec_codec_sameConfig {i : Instr} {s t : State} (hi : i = .encode ∨ i = .decode) (h : exec i s = .next t) :
    s.SameConfig t := by
  rcases hi with rfl | rfl
  · rcases execEncode_cases s with ⟨r, -, he⟩ | ⟨-, he⟩ <;> cases h.symm.trans he <;> simp [State.SameConfig]
  · rcases execDecode_cases s with ⟨r, -, hd⟩ | ⟨-, e, -, hd⟩ | ⟨-, r, -, hd⟩ <;> cases h.symm.trans hd <;>
      simp [State.SameConfig]

/-- Soundness of the configuration is a property of the configuration state alone. -/
theorem State.SameConfig.configOk {s t : State} (h : s.SameConfig t) (hs : s.ConfigOk) : t.ConfigOk := by
  obtain ⟨henc, hdec, hpad, -, hvalid⟩ := h
  simpa only [State.ConfigOk, State.InstanceOk, State.decEntry, State.encSym, State.padByte, henc, hdec, hpad, hvalid]
    using hs

/-- Every command keeps the configuration sound (R25): construction succeeds with a valid one or clears CFG_VALID, and
no other end of a command writes the configuration state. -/
theorem exec_configOk {i : Instr} {s t : State} (hs : s.ConfigOk) (h : exec i s = .next t) : t.ConfigOk := by
  have hends : s.SameConfig t ∨ t.cfgValid = false ∨ t.InstanceOk := by
    rcases exec_cases i s with ⟨a, p, st, hm, he⟩ | ⟨a, p, -, he⟩ | ⟨r, -, he⟩ | ⟨-, e, -, he⟩ | ⟨-, n, m, he⟩ <;>
      obtain rfl := Host.Outcome.next.inj (h.symm.trans he)
    · exact .inr (.inr (loadInstance_instanceOk hm st s))
    · exact .inr (.inl (by simp))
    all_goals exact .inl (by simp [State.SameConfig])
  rcases hends with hsame | hv | hok
  · exact hsame.configOk hs
  · exact fun hv' => by simp [hv] at hv'
  · exact fun _ => hok

/-- What a step does to the configuration state (R26): nothing, the reset input's clearing of CFG_VALID, or one CONFIGURE or
PRESET command. -/
theorem step_config_cases {s t : State} (h : step s = .next t) :
    s.SameConfig t
      ∨ (t.cfgValid = false ∧ ∃ rest, s.host = .reset :: rest)
      ∨ (∃ w rest i, s.host = .writeReg (.cmd w) :: rest ∧ decode w = .ok i
          ∧ ((∃ st p, i = .configure st p) ∨ ∃ id, i = .preset id)
          ∧ exec i (State.accept { s with host := rest }) = .next t) := by
  rcases step_cases h with ⟨-, rfl⟩ | ⟨w, rest, hh, -, hc⟩ | ⟨r, rest, -, -, hw⟩ | ⟨op, v, rest, -, -, -, rfl⟩
    | ⟨b, i, v, rest, -, -, -, rfl⟩ | ⟨rest, hh, rfl⟩
  case inr.inl =>
    rcases issueCommand_cases w { s with host := rest } with ⟨i, hd, he⟩ | ⟨e, -, he⟩
    · rw [he] at hc
      cases i with
      | configure st p => exact .inr (.inr ⟨w, rest, _, hh, hd, .inl ⟨st, p, rfl⟩, hc⟩)
      | preset id => exact .inr (.inr ⟨w, rest, _, hh, hd, .inr ⟨id, rfl⟩, hc⟩)
      | encode => exact .inl (by simpa [State.SameConfig] using exec_codec_sameConfig (.inl rfl) hc)
      | decode => exact .inl (by simpa [State.SameConfig] using exec_codec_sameConfig (.inr rfl) hc)
    · cases hc.symm.trans he
      exact .inl (by simp [State.SameConfig])
  case inr.inr.inl => exact .inl (by rcases hw with rfl | ⟨_, -, rfl⟩ | ⟨_, -, rfl⟩ <;> simp [State.SameConfig])
  case inr.inr.inr.inr.inr => exact .inr (.inl ⟨by simp, rest, hh⟩)
  all_goals exact .inl (by simp [State.SameConfig])

/-! ## The obligations -/

/-- Settles O55: of the steps that write the configuration state, the reset input clears CFG_VALID and a command keeps the
configuration sound (`exec_configOk`). -/
theorem stepKeepsTheConfigurationSound : Obligations.StepKeepsTheConfigurationSound := by
  intro s t hs h
  rcases step_config_cases h with hsame | ⟨hv, -⟩ | ⟨w, rest, i, -, -, -, he⟩
  · exact hsame.configOk hs
  · exact fun hv' => by simp [hv] at hv'
  · exact exec_configOk (State.SameConfig.configOk (s := s) (by simp [State.SameConfig]) hs) he

/-- Settles O24: both commands are one construction (R130, R140), which ends in OK only when no invariant is violated
(`construct_instanceOk`). -/
theorem constructedInstanceIsValid : Obligations.ConstructedInstanceIsValid := by
  intro s t i hi h hok
  rcases hi with ⟨st, p, rfl⟩ | ⟨id, rfl⟩ <;> cases h <;> exact construct_instanceOk hok

/-- Settles O50, by the cases of a step. -/
theorem onlyConfigurationCommandsWriteTheInstance : Obligations.OnlyConfigurationCommandsWriteTheInstance := by
  intro s t h
  rcases step_config_cases h with hsame | ⟨-, hreset⟩ | ⟨w, rest, i, hh, hd, hi, -⟩
  · exact .inl hsame
  · exact .inr (.inl hreset)
  · refine .inr (.inr ⟨w, rest, hh, ?_⟩)
    rcases hi with ⟨st, p, rfl⟩ | ⟨id, rfl⟩
    · exact .inl ⟨st, p, hd⟩
    · exact .inr ⟨id, hd⟩

end Sys2Proof.Machine
end

section
/-! PROOFS. The state family (10_state.md), the engines: the position counter of ENCODE (R40, R162), and what ENCODE and
DECODE read. The engines are run side by side on two states with the same configuration, INLEN and input (`SameSource`),
from working registers that agree where the engines read them before writing them. -/

namespace Sys2Proof.Machine

/-! ## The position counter of ENCODE -/

/-- Each pass of the encoder's loop consumes 3 bytes, while 3 bytes are left (R162). Unlike `encLoop_spec` it bounds no
output position, so it holds for every INLEN. -/
theorem encLoop_ePos (s : State) (n : Nat) (r : Run) (hn : r.work.ePos.toNat + 3 * n ≤ s.inlen.toNat) :
    (encLoop s n r).work.ePos.toNat = r.work.ePos.toNat + 3 * n := by
  induction n generalizing r with
  | zero => rfl
  | succ n ih =>
    have hinlen := s.inlen.isLt
    have hleft : (s.inlen - r.work.ePos).toNat = s.inlen.toNat - r.work.ePos.toNat :=
      BitVec.toNat_sub_of_le (BitVec.le_def.2 (by omega))
    have hchunk : (encChunk s r).work.ePos.toNat = r.work.ePos.toNat + 3 := toNat_add_of_lt (k := 3) (by omega)
    rw [encLoop, if_pos (by omega), ih _ (by omega)]
    omega

theorem encStart_loop_ePos (s : State) {k : Nat} (hk : k ≤ s.inlen.toNat / 3) :
    (encLoop s k (encStart s)).work.ePos.toNat = 3 * k := by
  have hstart : (encStart s).work.ePos.toNat = 0 := rfl
  rw [encLoop_ePos s k _ (by omega), hstart]
  omega

/-- What the encoder's loop leaves for the final chunk: 0, 1 or 2 bytes (R162). -/
theorem encStart_loop_left (s : State) :
    (s.inlen - (encLoop s (s.inlen.toNat / 3) (encStart s)).work.ePos).toNat = s.inlen.toNat % 3 := by
  have hpos := encStart_loop_ePos s (Nat.le_refl _)
  rw [BitVec.toNat_sub_of_le (BitVec.le_def.2 (by omega)), hpos]
  omega

/-- E_REM is the number of bytes left (R160, R33). -/
theorem encFinal_eRem (s : State) (r : Run) : (encFinal s r).work.eRem = (s.inlen - r.work.ePos).setWidth 2 := by
  unfold encFinal
  dsimp only
  split
  · rfl
  · split <;> rfl

/-- With at most 2 bytes left, the final chunk is one of those of R165 to R167. -/
theorem left_cases {s : State} {r : Run} (hleft : (s.inlen - r.work.ePos).toNat < 3) :
    s.inlen - r.work.ePos = 0 ∨ s.inlen - r.work.ePos = 1 ∨ s.inlen - r.work.ePos = 2 := by
  generalize s.inlen - r.work.ePos = d at hleft ⊢
  bv_omega

/-- The final chunk consumes every byte left, so E_POS ends at INLEN (R40, log entry 11). -/
theorem encFinal_ePos {s : State} {r : Run} (hpos : r.work.ePos.toNat ≤ s.inlen.toNat)
    (hleft : (s.inlen - r.work.ePos).toNat < 3) : (encFinal s r).work.ePos = s.inlen := by
  have hend : r.work.ePos + (s.inlen - r.work.ePos) = s.inlen := by rw [BitVec.add_comm, BitVec.sub_add_cancel]
  rcases left_cases hleft with h | h | h <;> rw [h] at hend
  · obtain ⟨-, -, hp⟩ := encFinal_zero s r (by rw [h]; rfl)
    exact hp.trans ((BitVec.add_zero _).symm.trans hend)
  · obtain ⟨-, -, hp⟩ := encFinal_one s r (by rw [h]; rfl)
    rw [hp, hend]
  · obtain ⟨-, -, hp⟩ := encFinal_two s r (by rw [h]; rfl) (by bv_omega)
    rw [hp, hend]

/-! ## Two states with the same configuration and input -/

/-- Two states that agree on all that R36 lets an engine read: the configuration state, INLEN and IBUF[0 .. INLEN - 1]. -/
structure SameSource (s s' : State) : Prop where
  config : s.SameConfig s'
  inlen : s'.inlen = s.inlen
  byteAt : ∀ i, i < s.inlen.toNat → s'.byteAt .ibuf i = s.byteAt .ibuf i

theorem sameSource_of_input {s s' : State} (hconfig : s.SameConfig s') (hlen : s'.inlen = s.inlen)
    (hinput : s'.input = s.input) : SameSource s s' := by
  refine ⟨hconfig, hlen, fun i hi => ?_⟩
  rw [State.input, State.input, hlen] at hinput
  exact List.map_inj_left.1 hinput i (List.mem_range.2 hi)

namespace SameSource

variable {s s' : State}

theorem encSym (h : SameSource s s') (v : Sym) : s'.encSym v = s.encSym v := by
  obtain ⟨henc, -, -, -, -⟩ := h.config
  simp only [State.encSym, henc]

theorem decEntry (h : SameSource s s') (b : Byte) : s'.decEntry b = s.decEntry b := by
  obtain ⟨-, hdec, -, -, -⟩ := h.config
  simp only [State.decEntry, hdec]

theorem padEnabled (h : SameSource s s') : s'.padEnabled = s.padEnabled := by
  obtain ⟨-, -, hpad, -, -⟩ := h.config
  simp only [State.padEnabled, hpad]

theorem padByte (h : SameSource s s') : s'.padByte = s.padByte := by
  obtain ⟨-, -, hpad, -, -⟩ := h.config
  simp only [State.padByte, hpad]

theorem classOf (h : SameSource s s') (b : Byte) : s'.classOf b = s.classOf b := by
  simp only [State.classOf, h.decEntry, h.padEnabled, h.padByte]

theorem symValue (h : SameSource s s') (b : Byte) : s'.symValue b = s.symValue b := by
  simp only [State.symValue, h.decEntry]

theorem strictViolation (h : SameSource s s') (dlen : BitVec 3) (acc : Group) :
    strictViolation s' dlen acc = strictViolation s dlen acc := by
  obtain ⟨-, -, -, hstrict, -⟩ := h.config
  simp only [Machine.strictViolation, hstrict]

theorem outputBound (h : SameSource s s') : outputBound s' = outputBound s := by
  simp only [Machine.outputBound, h.padEnabled, h.inlen]

theorem decFuel (h : SameSource s s') : decFuel s' = decFuel s := by
  simp only [Machine.decFuel, h.inlen]

theorem inByte (h : SameSource s s') {p : Len} (hp : p.toNat < s.inlen.toNat) : s'.inByte p = s.inByte p :=
  h.byteAt _ hp

/-- The byte `k` indices after `p`, within the input. -/
theorem inByte_add (h : SameSource s s') {p : Len} {k : Nat} (hk : p.toNat + k < s.inlen.toNat) :
    s'.inByte (p + BitVec.ofNat 32 k) = s.inByte (p + BitVec.ofNat 32 k) := by
  have hinlen := s.inlen.isLt
  exact h.inByte (by rwa [toNat_add_of_lt (by omega)])

end SameSource

/-! ## ENCODE side by side -/

/-- Two runs of the encoder that agree on both positions and the output; E_ACC and E_REM are written before they are read. -/
structure Run.SameEnc (r r' : Run) : Prop where
  ePos : r'.work.ePos = r.work.ePos
  eOpos : r'.work.eOpos = r.work.eOpos
  obuf : r'.obuf = r.obuf

section

variable {s s' : State} (h : SameSource s s')
include h

theorem encChunk_same {r r' : Run} (hr : r.SameEnc r') (hp : r.work.ePos.toNat + 3 ≤ s.inlen.toNat) :
    (encChunk s r).SameEnc (encChunk s' r') := by
  have h0 : s'.inByte r.work.ePos = s.inByte r.work.ePos := h.inByte (by omega)
  have h1 : s'.inByte (r.work.ePos + 1) = s.inByte (r.work.ePos + 1) := h.inByte_add (k := 1) (by omega)
  have h2 : s'.inByte (r.work.ePos + 2) = s.inByte (r.work.ePos + 2) := h.inByte_add (k := 2) (by omega)
  constructor <;> simp only [encChunk, hr.ePos, hr.eOpos, hr.obuf, h0, h1, h2, h.encSym]

theorem encLoop_same (n : Nat) {r r' : Run} (hr : r.SameEnc r')
    (hn : r.work.ePos.toNat + 3 * n ≤ s.inlen.toNat) : (encLoop s n r).SameEnc (encLoop s' n r') := by
  induction n generalizing r r' with
  | zero => exact hr
  | succ n ih =>
    have hchunk := encLoop_ePos s 1 r (by omega)
    simp only [encLoop, h.inlen, hr.ePos] at hchunk ⊢
    split
    · rename_i hleft
      rw [if_pos hleft] at hchunk
      exact ih (encChunk_same h hr (by omega)) (by omega)
    · exact hr

theorem encFinal_same {r r' : Run} (hr : r.SameEnc r') (hpos : r.work.ePos.toNat ≤ s.inlen.toNat)
    (hleft : (s.inlen - r.work.ePos).toNat < 3) : (encFinal s r).SameEnc (encFinal s' r') := by
  have hleft' : s'.inlen - r'.work.ePos = s.inlen - r.work.ePos := by rw [h.inlen, hr.ePos]
  rcases left_cases hleft with hd | hd | hd <;> rw [hd] at hleft'
  · obtain ⟨hm, ho, hp⟩ := encFinal_zero s r (by rw [hd]; rfl)
    obtain ⟨hm', ho', hp'⟩ := encFinal_zero s' r' (by rw [hleft']; rfl)
    exact ⟨by rw [hp, hp', hr.ePos], by rw [ho, ho', hr.eOpos], by rw [hm, hm', hr.obuf]⟩
  · have h0 := h.byteAt r.work.ePos.toNat (by bv_omega)
    obtain ⟨hm, ho, hp⟩ := encFinal_one s r (by rw [hd]; rfl)
    obtain ⟨hm', ho', hp'⟩ := encFinal_one s' r' (by rw [hleft']; rfl)
    exact ⟨by rw [hp, hp', hr.ePos], by rw [ho, ho', hr.eOpos, h.padEnabled],
      by rw [hm, hm']; simp only [hr.ePos, hr.eOpos, hr.obuf, h0, h.encSym, h.padEnabled, h.padByte]⟩
  · have h0 := h.byteAt r.work.ePos.toNat (by bv_omega)
    have h1 := h.byteAt (r.work.ePos.toNat + 1) (by bv_omega)
    obtain ⟨hm, ho, hp⟩ := encFinal_two s r (by rw [hd]; rfl) (by bv_omega)
    obtain ⟨hm', ho', hp'⟩ := encFinal_two s' r' (by rw [hleft']; rfl) (by rw [hr.ePos]; bv_omega)
    exact ⟨by rw [hp, hp', hr.ePos], by rw [ho, ho', hr.eOpos, h.padEnabled],
      by rw [hm, hm']; simp only [hr.ePos, hr.eOpos, hr.obuf, h0, h1, h.encSym, h.padEnabled, h.padByte]⟩

/-- ENCODE's engine reads nothing but its source (R36). -/
theorem encodeRun_same : (encodeRun s).SameEnc (encodeRun s') := by
  have hloop : (encLoop s (s.inlen.toNat / 3) (encStart s)).SameEnc (encLoop s' (s.inlen.toNat / 3) (encStart s')) :=
    encLoop_same h _ ⟨rfl, rfl, rfl⟩ (by simp only [encStart]; bv_omega)
  have hpos := encStart_loop_ePos s (Nat.le_refl _)
  rw [encodeRun, encodeRun, h.inlen]
  exact encFinal_same h hloop (by omega) (by rw [encStart_loop_left]; omega)

end

/-! ## DECODE side by side -/

/-- Two outcomes of the decoder: the same error, or results related by `R`. -/
inductive SameOutcome {α : Type} (R : α → α → Prop) : Except DecErr α → Except DecErr α → Prop where
  | error (e : DecErr) : SameOutcome R (.error e) (.error e)
  | ok {a a' : α} (h : R a a') : SameOutcome R (.ok a) (.ok a')

/-- Two sets of working registers that agree where a quantum (R201) reads them: all of R34 and R35 but D_ACC, which is
written before it is read, and D_LASTPOS once a symbol is held. -/
structure Work.SameQuantum (w w' : Work) : Prop where
  dPos : w'.dPos = w.dPos
  dOpos : w'.dOpos = w.dOpos
  dOlim : w'.dOlim = w.dOlim
  dSlot : w'.dSlot = w.dSlot
  dDlen : w'.dDlen = w.dDlen
  dEnd : w'.dEnd = w.dEnd
  dSym : w'.dSym = w.dSym
  dLastpos : w.dSlot ≠ 0#3 → w'.dLastpos = w.dLastpos

/-- Two runs of the decoder that agree where the outer loop (R190) reads them: a quantum starts by writing the rest (R200). -/
structure Run.SameDec (r r' : Run) : Prop where
  dPos : r'.work.dPos = r.work.dPos
  dOpos : r'.work.dOpos = r.work.dOpos
  dOlim : r'.work.dOlim = r.work.dOlim
  dEnd : r'.work.dEnd = r.work.dEnd
  obuf : r'.obuf = r.obuf

theorem Work.SameQuantum.withPos {w w' : Work} (hw : w.SameQuantum w') (p : Len) :
    Work.SameQuantum { w with dPos := p } { w' with dPos := p } :=
  { hw with dPos := rfl }

theorem Work.SameQuantum.storeSym {w w' : Work} (hw : w.SameQuantum w') (v : Sym) (p : Len) :
    (storeSym w v p).SameQuantum (storeSym w' v p) where
  dPos := hw.dPos
  dOpos := hw.dOpos
  dOlim := hw.dOlim
  dSlot := by simp only [Machine.storeSym, hw.dSlot]
  dDlen := hw.dDlen
  dEnd := hw.dEnd
  dSym := by simp only [Machine.storeSym, hw.dSym, hw.dSlot]
  dLastpos := fun _ => rfl

theorem Work.SameQuantum.reassemble {w w' : Work} (hw : w.SameQuantum w') : reassemble w' = reassemble w := by
  simp only [Machine.reassemble, hw.dSym]

/-- The slot loop of a quantum (R201) stays within the input, and leaves D_DLEN = 4 or the number of symbols held. -/
theorem slotLoop_openQuantum {s : State} {r : Run} {w : Work} (hp : r.work.dPos.toNat ≤ s.inlen.toNat)
    (h : slotLoop s (decFuel s) (openQuantum r.work) = .ok w) :
    w.dPos.toNat ≤ s.inlen.toNat ∧ (w.dDlen = 4#3 ∨ w.dDlen = w.dSlot) := by
  have hslot : (openQuantum r.work).dSlot.toNat ≤ 4 := by simp [openQuantum]
  obtain ⟨-, hle, -, -, ⟨-, -, hfull⟩ | ⟨-, -, hheld, -⟩⟩ :=
    slotLoop_ok (w := openQuantum r.work) hp hslot (Nat.lt_succ_of_le (Nat.sub_le _ _)) h
  · exact ⟨hle, .inl hfull⟩
  · exact ⟨hle, .inr hheld⟩

/-- Ending a quantum with the symbols held (R208, R212). -/
theorem Work.SameQuantum.finish {w w' : Work} (hw : w.SameQuantum w') :
    Work.SameQuantum { w with dDlen := w.dSlot, dEnd := true } { w' with dDlen := w'.dSlot, dEnd := true } :=
  { hw with dDlen := hw.dSlot, dEnd := rfl }

theorem Run.SameDec.openQuantum {r r' : Run} (hr : r.SameDec r') :
    (openQuantum r.work).SameQuantum (openQuantum r'.work) :=
  ⟨hr.dPos, hr.dOpos, hr.dOlim, rfl, rfl, hr.dEnd, rfl, fun hne => absurd rfl hne⟩

section

variable {s s' : State} (h : SameSource s s')
include h

theorem decErr_same {w w' : Work} (hw : w.SameQuantum w') (c : ErrCause) (p : Len) :
    decErr s' w' c p = decErr s w c p := by
  simp only [decErr, hw.dPos, hw.dOpos, hw.dSlot, h.inlen]

theorem skipLb_same (fuel : Nat) (p : Len) : skipLb s' fuel p = skipLb s fuel p := by
  induction fuel generalizing p with
  | zero => rfl
  | succ fuel ih =>
    by_cases hp : p.toNat < s.inlen.toNat
    · simp only [skipLb, h.inlen, h.inByte hp, h.classOf, ih]
    · simp only [skipLb, h.inlen, hp, false_and, if_false]

theorem padFinal_same {w w' : Work} (hw : w.SameQuantum w') :
    SameOutcome Work.SameQuantum (padFinal s w) (padFinal s' w') := by
  have hw1 := hw.withPos (skipLb s (decFuel s) w.dPos)
  simp only [padFinal, h.decFuel, h.inlen, hw.dPos, skipLb_same h]
  split
  · rw [decErr_same h hw1]
    exact .error _
  · exact .ok hw1.finish

theorem padSecond_same {w w' : Work} (hw : w.SameQuantum w') (hp : w.dPos.toNat ≤ s.inlen.toNat) :
    SameOutcome Work.SameQuantum (padSecond s w) (padSecond s' w') := by
  have hw1 := hw.withPos (skipLb s (decFuel s) w.dPos)
  obtain ⟨-, hle, -, -⟩ := skipLb_spec s (decFuel s) w.dPos hp (by simp only [decFuel]; omega)
  simp only [padSecond, h.decFuel, h.inlen, hw.dPos, skipLb_same h]
  split
  · rw [decErr_same h hw1]
    exact .error _
  · rename_i hne
    have hlt : (skipLb s (decFuel s) w.dPos).toNat < s.inlen.toNat :=
      Nat.lt_of_le_of_ne hle fun he => hne (BitVec.eq_of_toNat_eq he)
    rw [h.inByte hlt, h.classOf]
    split
    · rw [decErr_same h hw1]
      exact .error _
    · exact padFinal_same h (hw.withPos _)

theorem onPad_same {w w' : Work} (hw : w.SameQuantum w') (hp : w.dPos.toNat ≤ s.inlen.toNat) (p : Len) :
    SameOutcome Work.SameQuantum (onPad s w p) (onPad s' w' p) := by
  simp only [onPad, hw.dSlot, decErr_same h hw]
  split
  · exact .error _
  · split
    · exact padSecond_same h hw hp
    · exact padFinal_same h hw

theorem onExhausted_same {w w' : Work} (hw : w.SameQuantum w') :
    SameOutcome Work.SameQuantum (onExhausted s w) (onExhausted s' w') := by
  simp only [onExhausted, h.padEnabled, h.inlen, decErr_same h hw]
  have hnone : Work.SameQuantum { w with dDlen := 0, dEnd := true } { w' with dDlen := 0, dEnd := true } :=
    { hw with dDlen := rfl, dEnd := rfl }
  have hheld := hw.finish
  rw [hw.dSlot] at hnone hheld ⊢
  split
  · exact .ok hnone
  · split
    · exact .error _
    · split
      · exact .error _
      · exact .ok hheld

theorem slotLoop_same (fuel : Nat) {w w' : Work} (hw : w.SameQuantum w') (hp : w.dPos.toNat ≤ s.inlen.toNat) :
    SameOutcome Work.SameQuantum (slotLoop s fuel w) (slotLoop s' fuel w') := by
  induction fuel generalizing w w' with
  | zero => exact .ok hw
  | succ fuel ih =>
    simp only [slotLoop, hw.dSlot, hw.dPos, h.inlen]
    split
    · exact .ok hw
    · split
      · exact onExhausted_same h hw
      · rename_i hne
        have hlt : w.dPos.toNat < s.inlen.toNat := Nat.lt_of_le_of_ne hp fun he => hne (BitVec.eq_of_toNat_eq he)
        have hle : (w.dPos + 1).toNat ≤ s.inlen.toNat := by rw [toNat_succ_of_lt hlt]; omega
        have hw1 := hw.withPos (w.dPos + 1)
        rw [hw.dSlot] at hw1
        rw [h.inByte hlt, h.classOf]
        cases s.classOf (s.inByte w.dPos) with
        | sym v => exact ih (hw1.storeSym v w.dPos) hle
        | lb => exact ih hw1 hle
        | bad =>
          simp only [decErr_same h hw1]
          exact .error _
        | pad => exact onPad_same h hw1 hle w.dPos

/-- The end of a quantum, with D_DLEN as the slot loop leaves it: 4, or the number of symbols held. So a strict violation,
which needs D_DLEN = 2 or 3, has a D_LASTPOS that this quantum wrote. -/
theorem closeQuantum_same {w w' : Work} (hw : w.SameQuantum w') (hlen : w.dDlen = 4#3 ∨ w.dDlen = w.dSlot) (m : Mem) :
    SameOutcome Run.SameDec (closeQuantum s w m) (closeQuantum s' w' m) := by
  simp only [closeQuantum, hw.dDlen, hw.dOpos, hw.reassemble, h.strictViolation]
  split
  · exact .ok ⟨hw.dPos, hw.dOpos, hw.dOlim, hw.dEnd, rfl⟩
  · rename_i hne
    split
    · rename_i hviol
      have hslot : w.dSlot ≠ 0#3 := by
        rcases hlen with h4 | hheld
        · simp [strictViolation, h4] at hviol
        · exact hheld ▸ hne
      simp only [decErr, hw.dPos, hw.dSlot, hw.dLastpos hslot, h.inlen]
      exact .error _
    · exact .ok ⟨hw.dPos, rfl, hw.dOlim, hw.dEnd, rfl⟩

theorem quantum_same {r r' : Run} (hr : r.SameDec r') (hp : r.work.dPos.toNat ≤ s.inlen.toNat) :
    SameOutcome Run.SameDec (quantum s r) (quantum s' r') := by
  have hslots := slotLoop_same h (decFuel s) hr.openQuantum hp
  have hok := fun w => slotLoop_openQuantum (s := s) (r := r) (w := w) hp
  simp only [quantum, h.decFuel, hr.obuf]
  generalize slotLoop s (decFuel s) (openQuantum r.work) = o at hslots hok
  generalize slotLoop s' (decFuel s) (openQuantum r'.work) = o' at hslots
  cases hslots with
  | error e => exact .error e
  | ok hw =>
    obtain ⟨-, hlen⟩ := hok _ rfl
    exact closeQuantum_same h hw hlen _

end

/-- A quantum that does not fail stays within the input (R228). -/
theorem quantum_dPos_le {s : State} {r r' : Run} (hp : r.work.dPos.toNat ≤ s.inlen.toNat) (hq : quantum s r = .ok r') :
    r'.work.dPos.toNat ≤ s.inlen.toNat := by
  rcases quantum_cases s r with ⟨e, -, he⟩ | ⟨w, hslots, hw⟩
  · cases hq.symm.trans he
  · obtain ⟨hle, -⟩ := slotLoop_openQuantum hp hslots
    rw [hw] at hq
    rcases closeQuantum_cases s w r.obuf with ⟨-, hc⟩ | ⟨-, -, hc⟩ | ⟨-, -, hc⟩ <;> cases hq.symm.trans hc <;> exact hle

section

variable {s s' : State} (h : SameSource s s')
include h

theorem bulkReady_same {r r' : Run} (hr : r.SameDec r') (hp : r.work.dPos.toNat ≤ s.inlen.toNat) :
    bulkReady s' r'.work = bulkReady s r.work := by
  simp only [bulkReady, hr.dPos, hr.dOpos, hr.dOlim, h.inlen]
  by_cases h4 : 4 ≤ (s.inlen - r.work.dPos).toNat
  · rw [BitVec.toNat_sub_of_le (BitVec.le_def.2 hp)] at h4
    have h0 : s'.inByte r.work.dPos = s.inByte r.work.dPos := h.inByte (by omega)
    have h1 : s'.inByte (r.work.dPos + 1) = s.inByte (r.work.dPos + 1) := h.inByte_add (k := 1) (by omega)
    have h2 : s'.inByte (r.work.dPos + 2) = s.inByte (r.work.dPos + 2) := h.inByte_add (k := 2) (by omega)
    have h3 : s'.inByte (r.work.dPos + 3) = s.inByte (r.work.dPos + 3) := h.inByte_add (k := 3) (by omega)
    simp only [bulkClean, h0, h1, h2, h3, h.classOf]
  · simp only [h4, decide_false, Bool.false_and]

theorem bulkGroup_same {r r' : Run} (hr : r.SameDec r') (hp : r.work.dPos.toNat + 4 ≤ s.inlen.toNat) :
    (bulkGroup s r).SameDec (bulkGroup s' r') := by
  have h0 : s'.inByte r.work.dPos = s.inByte r.work.dPos := h.inByte (by omega)
  have h1 : s'.inByte (r.work.dPos + 1) = s.inByte (r.work.dPos + 1) := h.inByte_add (k := 1) (by omega)
  have h2 : s'.inByte (r.work.dPos + 2) = s.inByte (r.work.dPos + 2) := h.inByte_add (k := 2) (by omega)
  have h3 : s'.inByte (r.work.dPos + 3) = s.inByte (r.work.dPos + 3) := h.inByte_add (k := 3) (by omega)
  constructor <;> simp only [bulkGroup, hr.dPos, hr.dOpos, hr.dOlim, hr.dEnd, hr.obuf, h0, h1, h2, h3, h.symValue]

theorem decLoop_same (bulk : Bool) (fuel : Nat) {r r' : Run} (hr : r.SameDec r')
    (hp : r.work.dPos.toNat ≤ s.inlen.toNat) :
    SameOutcome Run.SameDec (decLoop bulk s fuel r) (decLoop bulk s' fuel r') := by
  induction fuel generalizing r r' with
  | zero => exact .ok hr
  | succ fuel ih =>
    simp only [decLoop, hr.dPos, hr.dEnd, h.inlen, bulkReady_same h hr hp]
    split
    · split
      · rename_i hbulk
        simp only [bulkReady, Bool.and_eq_true, decide_eq_true_eq] at hbulk
        obtain ⟨-, ⟨h4, -⟩, -⟩ := hbulk
        rw [BitVec.toNat_sub_of_le (BitVec.le_def.2 hp)] at h4
        have hinlen := s.inlen.isLt
        have hnext : (bulkGroup s r).work.dPos.toNat = r.work.dPos.toNat + 4 := toNat_add_of_lt (k := 4) (by omega)
        exact ih (bulkGroup_same h hr (by omega)) (by omega)
      · have hq := quantum_same h hr hp
        have hle := fun r1 => quantum_dPos_le (s := s) (r := r) (r' := r1) hp
        generalize quantum s r = o at hq hle
        generalize quantum s' r' = o' at hq
        cases hq with
        | error e => exact .error e
        | ok hr1 => exact ih hr1 (hle _ rfl)
    · exact .ok hr

/-- DECODE's engine reads nothing but its source (R36). -/
theorem decodeRun_same : SameOutcome Run.SameDec (decodeRun s) (decodeRun s') := by
  rw [decodeRun, decodeRun, decodeRunWith, decodeRunWith, h.decFuel]
  exact decLoop_same h true _ ⟨rfl, rfl, h.outputBound, rfl, rfl⟩ (Nat.zero_le _)

end

/-! ## Commands side by side -/

/-- From two states with the same source, admitted alike, ENCODE and DECODE come to the same end. -/
theorem exec_codec_same {i : Instr} {s s' : State} (hi : i = .encode ∨ i = .decode) (h : SameSource s s')
    (hadm : s'.admission = s.admission) :
    (∃ r, s.admission = some r ∧ exec i s = .next (s.complete r) ∧ exec i s' = .next (s'.complete r))
      ∨ (∃ c p, exec i s = .next (s.raiseDecode c p) ∧ exec i s' = .next (s'.raiseDecode c p))
      ∨ (∃ n m, exec i s = .next (s.finishCodec n m) ∧ exec i s' = .next (s'.finishCodec n m)) := by
  rcases hi with rfl | rfl
  · have hrun := encodeRun_same h
    simp only [exec, execEncode, hadm, hrun.eOpos, hrun.obuf]
    cases s.admission with
    | some r => exact .inl ⟨r, rfl, rfl, rfl⟩
    | none => exact .inr (.inr ⟨_, _, rfl, rfl⟩)
  · have hrun := decodeRun_same h
    simp only [exec, execDecode, hadm]
    cases s.admission with
    | some r => exact .inl ⟨r, rfl, rfl, rfl⟩
    | none =>
      generalize decodeRun s = o at hrun
      generalize decodeRun s' = o' at hrun
      cases hrun with
      | error e => exact .inr (.inl ⟨_, _, rfl, rfl⟩)
      | ok hr => exact .inr (.inr ⟨_, _, rfl, by simp only [hr.dOpos, hr.obuf]⟩)

/-- From two states with the same alphabet operand, CONFIGURE and PRESET are one construction from the same operands. -/
theorem exec_config_same {i : Instr} {s s' : State} (hi : ¬(i = .encode ∨ i = .decode))
    (halpha : s'.alphabet = s.alphabet) :
    ∃ a p st, exec i s = .next (s.construct a p st) ∧ exec i s' = .next (s'.construct a p st) := by
  cases i with
  | configure st p => exact ⟨_, p, st, rfl, by rw [← halpha]; rfl⟩
  | preset id => exact ⟨_, _, _, rfl, rfl⟩
  | encode => exact absurd (.inl rfl) hi
  | decode => exact absurd (.inr rfl) hi

/-- From two states at the same free draw, construction from the same operands gives the same RESULT and the same
configuration state; it never ends in DECODE_ERROR. -/
theorem construct_same {s s' : State} (hdraws : s'.draws = s.draws) (a : List Byte) (p : PadSel) (st : Bool) :
    (s'.construct a p st).result = (s.construct a p st).result
      ∧ (s.construct a p st).SameConfig (s'.construct a p st) ∧ (s.construct a p st).result ≠ .decodeError := by
  unfold State.construct
  split <;> simp [State.SameConfig, hdraws]

/-- What two runs of one command agree on, from two states with the same operands: the source of the engines (R36), the
alphabet, admission and the number of the free draw. -/
theorem exec_same {i : Instr} {s s' t t' : State} (h : SameSource s s') (hadm : s'.admission = s.admission)
    (halpha : s'.alphabet = s.alphabet) (hdraws : s'.draws = s.draws) (ht : exec i s = .next t)
    (ht' : exec i s' = .next t') :
    t'.result = t.result ∧ t.SameConfig t'
      ∧ ((i = .encode ∨ i = .decode) → t.result = .ok → t'.outlen = t.outlen ∧ t'.obuf = t.obuf)
      ∧ (t.result = .decodeError → t'.errcause = t.errcause ∧ t'.errpos = t.errpos) := by
  by_cases hi : i = .encode ∨ i = .decode
  · rcases exec_codec_same hi h hadm with ⟨r, har, he, he'⟩ | ⟨c, p, he, he'⟩ | ⟨n, m, he, he'⟩ <;>
      obtain rfl := Host.Outcome.next.inj (ht.symm.trans he) <;>
      obtain rfl := Host.Outcome.next.inj (ht'.symm.trans he') <;>
      refine ⟨by simp, by simpa [State.SameConfig] using h.config, ?_⟩
    · have hrefusal : r ≠ .ok ∧ r ≠ .decodeError := by
        rcases State.admission_eq_some har with ⟨-, rfl⟩ | ⟨-, -, rfl⟩ <;> decide
      simp [hrefusal]
    · simp
    · simp
  · obtain ⟨a, p, st, he, he'⟩ := exec_config_same hi halpha
    obtain rfl := Host.Outcome.next.inj (ht.symm.trans he)
    obtain rfl := Host.Outcome.next.inj (ht'.symm.trans he')
    obtain ⟨hres, hconfig, hne⟩ := construct_same hdraws a p st
    exact ⟨hres, hconfig, fun hc => absurd hc hi, fun hd => absurd hd hne⟩

/-! ## The obligations -/

/-- Settles O60, from the positions of the loop and of the final chunk. -/
theorem encodeConsumesTheWholeInput : Obligations.EncodeConsumesTheWholeInput := by
  intro s
  have hpos := encStart_loop_ePos s (Nat.le_refl _)
  have hleft := encStart_loop_left s
  refine ⟨fun k hk => encStart_loop_ePos s hk, hleft, ?_, encFinal_ePos (by omega) (by omega)⟩
  rw [encodeRun, encFinal_eRem, BitVec.toNat_setWidth, hleft]
  omega

/-- Settles O52: both engines run side by side from the two states (`encodeRun_same`, `decodeRun_same`). -/
theorem enginesDependOnConfigurationAndInputOnly : Obligations.EnginesDependOnConfigurationAndInputOnly := by
  intro s s' hconfig hlen hinput
  have hsrc := sameSource_of_input hconfig hlen hinput
  have hdec := decodeRun_same hsrc
  refine ⟨(encodeRun_same hsrc).eOpos, (encodeRun_same hsrc).obuf, ?_⟩
  generalize decodeRun s = o at hdec
  generalize decodeRun s' = o' at hdec
  cases hdec with
  | error e => rfl
  | ok hr => simp only [Except.map, hr.dOpos, hr.obuf]

/-- Settles O51: the six result registers are no part of a command's operands, so the two runs agree (`exec_same`). -/
theorem resultRegistersAreOutputsOnly : Obligations.ResultRegistersAreOutputsOnly := by
  intro i s t t' r c ep ce ol ob ht ht'
  have hsrc : SameSource s
      { s with result := r, errcause := c, errpos := ep, cfgerr := ce, outlen := ol, obuf := ob } :=
    ⟨⟨rfl, rfl, rfl, rfl, rfl⟩, rfl, fun _ _ => rfl⟩
  exact exec_same hsrc rfl rfl rfl ht ht'

end Sys2Proof.Machine
end

section
/-! PROOFS. The state family (10_state.md), the registers: the packed registers (R30, R32), what one access of the host does
to a register (R28, R29, R31), and the values right after reset (R45). -/

namespace Sys2Proof.Machine

/-! ## The packed registers -/

/-- BUSY is bit 0 of STATUS, whatever the other bits are (R30, R300). -/
theorem statusRead_bit0 (s : State) : s.statusRead.getLsbD 0 = s.busy := by
  cases hb : s.busy with
  | true =>
    simp only [State.statusRead, hb, if_true, BitVec.getLsbD_append]
    rfl
  | false =>
    simp only [State.statusRead, State.statusIdle, hb, Bool.false_eq_true, if_false, BitVec.getLsbD_append]
    rfl

theorem statusRead_of_idle {s : State} (hb : s.busy = false) : s.statusRead = s.statusIdle := by
  simp [State.statusRead, hb]

/-- The fields of STATUS while BUSY = 0 (R30). -/
theorem statusIdle_fields (s : State) :
    s.statusIdle.getLsbD 1 = s.cfgValid ∧ s.statusIdle.extractLsb' 2 2 = 0#2
      ∧ s.statusIdle.extractLsb' 4 4 = resultBits s.result := by
  unfold State.statusIdle
  generalize resultBits s.result = r
  generalize s.cfgValid = v
  revert r v
  decide

theorem errcauseRead_fields (s : State) :
    s.errcauseRead.extractLsb' 3 5 = 0#5 ∧ s.errcauseRead.extractLsb' 0 3 = causeBits s.errcause := by
  unfold State.errcauseRead
  generalize causeBits s.errcause = c
  revert c
  decide

theorem cfgerrRead_fields (s : State) :
    s.cfgerrRead.extractLsb' 6 2 = 0#2 ∧ s.cfgerrRead.extractLsb' 0 6 = s.cfgerr := by
  unfold State.cfgerrRead
  generalize s.cfgerr = e
  revert e
  decide

/-- The fields of CFGINFO while CFG_VALID = 1 (R32). -/
theorem cfginfoRead_fields {s : State} (hv : s.cfgValid = true) :
    s.cfginfoRead.extractLsb' 0 9 = s.pad ∧ s.cfginfoRead.getLsbD 9 = s.strict
      ∧ s.cfginfoRead.extractLsb' 10 6 = 0#6 := by
  simp only [State.cfginfoRead, hv, if_true]
  generalize s.pad = p
  generalize s.strict = b
  refine ⟨?_, ?_, ?_⟩
  · exact BitVec.extractLsb'_append_eq_right
  · simp only [BitVec.getLsbD_append]
    simp
  · refine BitVec.eq_of_getLsbD_eq fun i hi => ?_
    simp only [BitVec.getLsbD_extractLsb', BitVec.getLsbD_append]
    interval_cases i <;> simp

/-! ## One access of the host to a register -/

/-- A write of a legal command word runs its command with BUSY set (R29, R293). -/
theorem step_writeCmd {s : State} {w : CmdWord} {rest : List HostOp} {i : Instr} (hb : s.busy = false)
    (hh : s.host = .writeReg (.cmd w) :: rest) (hd : decode w = .ok i) :
    step s = exec i (State.accept { s with host := rest }) := by
  rw [step_of_idle hb hh]
  simp only [idleAccess, writeRegister, issueCommand, hd]

/-! The host's pending accesses are no part of a register. -/

@[simp] theorem State.readReg_withHost (s : State) (ops : List HostOp) (r : RegId) :
    State.readReg { s with host := ops } r = s.readReg r := by cases r <;> rfl

/-- A host read of a register answers it and writes nothing but the model's own answer and draw number (R28). -/
theorem step_readReg {s : State} {r : RegId} {rest : List HostOp} (hb : s.busy = false)
    (hh : s.host = .readReg r :: rest) :
    step s = .next { s with host := rest, rdata := s.readReg r, draws := s.draws + 1 } := by
  rw [step_of_idle hb hh, idleAccess, State.readReg_withHost]
  rfl

/-- A host read of a byte within capacity answers it and writes nothing but the model's own answer and draw number (R63). -/
theorem step_readBuf {s : State} {b : BufId} {i : Nat} {rest : List HostOp} (hb : s.busy = false)
    (hh : s.host = .readBuf b i :: rest) (hi : i < s.capacity b) :
    step s = .next { s with host := rest, rdata := (s.byteAt b i).setWidth 32, draws := s.draws + 1 } := by
  rw [step_of_idle hb hh, idleAccess, State.capacity_withHost, if_pos hi, State.byteAt_withHost]
  rfl

/-- A byte that a buffer lists is the byte at its index. -/
theorem State.byteAt_of_read {s : State} {b : BufId} {i : Nat} {v : Byte} (h : Mem.read (s.buf b) i = some v) :
    s.byteAt b i = v := by
  simp [State.byteAt, h]

/-! ## The obligations -/

/-- Settles O5, by the decoder's answer for a legal word. -/
theorem stepRunsTheIssuedCommand : Obligations.StepRunsTheIssuedCommand :=
  fun _ _ _ _ hb hh hd => step_writeCmd hb hh hd

/-- Settles O8: each value is a field of `State.reset`. -/
theorem resetLeavesTheSpecifiedValues : Obligations.ResetLeavesTheSpecifiedValues :=
  ⟨statusRead_of_idle rfl, rfl, rfl, rfl, rfl, rfl, rfl, rfl, rfl, rfl⟩

/-- Settles O10, from the fields of STATUS in both states of BUSY. -/
theorem statusHoldsItsFields : Obligations.StatusHoldsItsFields :=
  ⟨statusRead_bit0, fun s hb => statusRead_of_idle hb ▸ statusIdle_fields s, rfl, rfl, rfl, rfl, rfl, rfl, rfl⟩

/-- Settles O11, register by register. -/
theorem resultRegistersHoldTheirFields : Obligations.ResultRegistersHoldTheirFields := by
  refine ⟨fun s => ?_, rfl, rfl, rfl, rfl, rfl, rfl, rfl⟩
  obtain ⟨hcause0, hcause⟩ := errcauseRead_fields s
  obtain ⟨herr0, herr⟩ := cfgerrRead_fields s
  exact ⟨hcause0, hcause, herr0, herr, cfginfoRead_fields⟩

/-- Settles O12, by the cases of a register write. -/
theorem registerWritesReachInlenAndAlenOnly : Obligations.RegisterWritesReachInlenAndAlenOnly := by
  intro s rest r hb hh
  have hstep := step_of_idle hb hh
  cases r with
  | cmd w => trivial
  | status | inlen | outlen | errpos | errcause | cfgerr | alen | cfginfo => exact hstep

/-- Settles O13: every register is one case of `step_readReg`. -/
theorem hostReadsAnswerTheRegister : Obligations.HostReadsAnswerTheRegister := by
  intro s rest hb
  refine ⟨step_readReg hb, step_readReg hb, step_readReg hb, step_readReg hb, step_readReg hb, step_readReg hb,
    step_readReg hb, step_readReg hb, fun b i v hh hi hv => ?_⟩
  rw [step_readBuf hb hh hi, State.byteAt_of_read hv]

/-- Settles O54: no command runs at reset, CFG_VALID is 0, and the buffers list nothing. -/
theorem invariantHoldsAtReset : Obligations.InvariantHoldsAtReset := by
  refine ⟨rfl, ⟨by decide, by decide⟩, fun hv => ?_, State.reset_buffersWf, ?_⟩
  · cases hv
  · exact ⟨fun _ hc => absurd hc List.not_mem_nil, fun _ hc => absurd hc List.not_mem_nil,
      fun _ hc => absurd hc List.not_mem_nil⟩

end Sys2Proof.Machine
end

section
/-! PROOFS. The memory family (20_memory.md): what a step does to the three byte buffers, and where an access of the host
stops. A step's effect on a buffer is said once (`step_buf_cases`); the outputs of the two engines are canonical and lie
within OBUF's capacity, the decoder's because a quantum consumes at least as many bytes as it emits. -/

namespace Sys2Proof.Machine

/-! ## The encoder's output -/

theorem encLoop_obuf_wf (s : State) (fuel : Nat) {r : Run} (hr : Mem.wf r.obuf = true) :
    Mem.wf (encLoop s fuel r).obuf = true := by
  induction fuel generalizing r with
  | zero => exact hr
  | succ fuel ih =>
    rw [encLoop]
    split
    · exact ih (Mem.wf_writeBytes hr _ _)
    · exact hr

/-- The final chunk writes at most 4 bytes, at E_OPOS, and none when no byte is left (R165 to R167). -/
theorem encFinal_writes (s : State) (r : Run) :
    ∃ bs, (encFinal s r).obuf = Mem.writeBytes r.obuf r.work.eOpos.toNat bs ∧ bs.length ≤ 4
      ∧ (s.inlen = r.work.ePos → bs = []) := by
  have hnone : s.inlen = r.work.ePos → (s.inlen - r.work.ePos).setWidth 2 = 0#2 := by
    intro h
    rw [h, BitVec.sub_self]
    rfl
  unfold encFinal
  dsimp only
  split
  · rename_i h2
    refine ⟨_, rfl, ?_, fun h => absurd (h2.symm.trans (hnone h)) (by decide)⟩
    cases s.padEnabled <;> simp
  · split
    · rename_i h1
      refine ⟨_, rfl, ?_, fun h => absurd (h1.symm.trans (hnone h)) (by decide)⟩
      cases s.padEnabled <;> simp
    · exact ⟨[], rfl, Nat.zero_le _, fun _ => rfl⟩

theorem encodeRun_obuf_wf (s : State) : Mem.wf (encodeRun s).obuf = true := by
  obtain ⟨bs, hbs, -, -⟩ := encFinal_writes s (encLoop s (s.inlen.toNat / 3) (encStart s))
  rw [encodeRun, hbs]
  exact Mem.wf_writeBytes (encLoop_obuf_wf s _ rfl) _ _

/-- ENCODE lists no byte at or beyond 4 × ⌈INLEN / 3⌉ (R161), for an INLEN whose output position does not wrap. -/
theorem encodeRun_obuf_below {s : State} (hlen : s.inlen.toNat ≤ 2 ^ 28) :
    Mem.Below (encodeRun s).obuf (outMax s.inlen.toNat) := by
  have hstart : (encStart s).work.ePos.toNat = 0 ∧ (encStart s).work.eOpos.toNat = 0 := ⟨rfl, rfl⟩
  obtain ⟨hpos, hopos, hobuf⟩ := encLoop_spec s (s.inlen.toNat / 3) (encStart s) (by omega) (by omega) (by omega)
  obtain ⟨bs, hbs, hbslen, hnone⟩ := encFinal_writes s (encLoop s (s.inlen.toNat / 3) (encStart s))
  have hfit : 4 * (s.inlen.toNat / 3) + bs.length ≤ outMax s.inlen.toNat := by
    unfold outMax
    by_cases hmod : s.inlen.toNat % 3 = 0
    · rw [hnone (BitVec.eq_of_toNat_eq (by omega)), List.length_nil]
      omega
    · omega
  rw [encodeRun, hbs, hobuf]
  refine Mem.below_writeBytes (Mem.below_writeBytes (fun _ hc => absurd hc List.not_mem_nil) _ ?_) bs (by omega)
  rw [length_chunksBytes]
  omega

/-! ## The decoder's output -/

/-- What the bulk path and a quantum keep, the outer loop keeps (R190, R194). -/
theorem decLoop_invariant {bulk : Bool} {s : State} {P : Run → Prop}
    (hbulk : ∀ r, P r → bulkReady s r.work = true → P (bulkGroup s r))
    (hquantum : ∀ r r', P r → quantum s r = .ok r' → P r')
    {fuel : Nat} {r r' : Run} (hr : P r) (h : decLoop bulk s fuel r = .ok r') : P r' := by
  induction fuel generalizing r with
  | zero =>
    cases h
    exact hr
  | succ fuel ih =>
    rcases decLoop_succ_cases bulk s fuel r with ⟨-, he⟩ | ⟨-, -, -, hready, he⟩ | ⟨-, -, -, e, -, he⟩
      | ⟨-, -, -, r1, hq, he⟩ <;> rw [he] at h
    · cases h
      exact hr
    · exact ih (hbulk r hr hready) h
    · cases h
    · exact ih (hquantum r r1 hr hq) h

/-- What a quantum that does not fail does (R201): its slot loop ends well, and either nothing is held and nothing is emitted,
or the bytes of the reassembled group are written at D_OPOS. -/
theorem quantum_ok {s : State} {r r' : Run} (h : quantum s r = .ok r') :
    ∃ w, slotLoop s (decFuel s) (openQuantum r.work) = .ok w
      ∧ ((w.dDlen = 0#3 ∧ r' = ⟨w, r.obuf⟩)
        ∨ (w.dDlen ≠ 0#3
          ∧ r'.obuf = Mem.writeBytes r.obuf w.dOpos.toNat (emitted w.dDlen (reassemble w))
          ∧ r'.work.dPos = w.dPos
          ∧ r'.work.dOpos = w.dOpos + BitVec.ofNat 32 (emitted w.dDlen (reassemble w)).length)) := by
  rcases quantum_cases s r with ⟨e, -, he⟩ | ⟨w, hslots, hw⟩
  · cases h.symm.trans he
  · rw [hw] at h
    rcases closeQuantum_cases s w r.obuf with ⟨h0, hc⟩ | ⟨-, -, hc⟩ | ⟨h0, -, hc⟩ <;> cases h.symm.trans hc
    · exact ⟨w, hslots, .inl ⟨h0, rfl⟩⟩
    · exact ⟨w, hslots, .inr ⟨h0, rfl, rfl, rfl⟩⟩

theorem quantum_obuf_wf {s : State} {r r' : Run} (hr : Mem.wf r.obuf = true) (h : quantum s r = .ok r') :
    Mem.wf r'.obuf = true := by
  obtain ⟨w, -, ⟨-, rfl⟩ | ⟨-, hobuf, -, -⟩⟩ := quantum_ok h
  · exact hr
  · exact hobuf ▸ Mem.wf_writeBytes hr _ _

theorem decodeRun_obuf_wf {s : State} {r : Run} (h : decodeRun s = .ok r) : Mem.wf r.obuf = true :=
  decLoop_invariant (P := fun r => Mem.wf r.obuf = true) (fun _ hr _ => Mem.wf_writeBytes hr _ _)
    (fun _ _ => quantum_obuf_wf) rfl h

/-! ### A quantum consumes at least as many bytes as it emits -/

theorem padFinal_dSlot {s : State} {w w' : Work} (h : padFinal s w = .ok w') : w'.dSlot = w.dSlot := by
  rcases padFinal_cases s w with ⟨-, he⟩ | ⟨-, he⟩ <;> cases h.symm.trans he
  rfl

/-- Padding adds no symbol (R205 to R208). -/
theorem onPad_dSlot {s : State} {w w' : Work} {p : Len} (h : onPad s w p = .ok w') : w'.dSlot = w.dSlot := by
  rcases onPad_cases s w p with ⟨-, he⟩ | ⟨-, he⟩ | ⟨-, he⟩ <;> rw [he] at h
  · cases h
  · rcases padSecond_cases s w with ⟨-, hq⟩ | ⟨-, -, hq⟩ | ⟨-, -, hq⟩ <;> rw [hq] at h
    · cases h
    · cases h
    · exact padFinal_dSlot (w := { w with dPos := skipLb s (decFuel s) w.dPos + 1 }) h
  · exact padFinal_dSlot h

theorem onExhausted_dSlot {s : State} {w w' : Work} (h : onExhausted s w = .ok w') : w'.dSlot = w.dSlot := by
  rcases onExhausted_cases s w with ⟨-, he⟩ | ⟨-, -, he⟩ | ⟨-, -, -, he⟩ <;> cases h.symm.trans he <;> rfl

/-- Every symbol that the slot loop stores is a byte it has consumed (R201, R202). -/
theorem slotLoop_dSlot_le {s : State} {fuel : Nat} {w w' : Work} (hp : w.dPos.toNat ≤ s.inlen.toNat)
    (hs : w.dSlot.toNat ≤ 4) (hf : s.inlen.toNat - w.dPos.toNat < fuel) (h : slotLoop s fuel w = .ok w') :
    w.dPos.toNat + w'.dSlot.toNat ≤ w'.dPos.toNat + w.dSlot.toNat := by
  induction fuel generalizing w with
  | zero => omega
  | succ fuel ih =>
    obtain ⟨hmono, -⟩ := slotLoop_ok hp hs hf h
    have hnext : w.dPos ≠ s.inlen → w.dPos.toNat < s.inlen.toNat ∧ (w.dPos + 1).toNat = w.dPos.toNat + 1 := by
      intro hne
      have hlt : w.dPos.toNat < s.inlen.toNat := Nat.lt_of_le_of_ne hp fun he => hne (BitVec.eq_of_toNat_eq he)
      exact ⟨hlt, toNat_succ_of_lt hlt⟩
    rcases slotLoop_succ_cases s fuel w with ⟨-, he⟩ | ⟨-, -, he⟩ | ⟨hl, hpn, v, -, he⟩ | ⟨-, hpn, -, he⟩ |
      ⟨-, -, -, he⟩ | ⟨-, -, -, he⟩ <;> rw [he] at h
    · cases h
      exact Nat.le_refl _
    · rw [onExhausted_dSlot h]
      omega
    · obtain ⟨hlt, hpos⟩ := hnext hpn
      have hslot : (storeSym { w with dPos := w.dPos + 1 } v w.dPos).dSlot.toNat = w.dSlot.toNat + 1 := by
        simp only [storeSym]
        bv_omega
      have hpos' : (storeSym { w with dPos := w.dPos + 1 } v w.dPos).dPos.toNat = w.dPos.toNat + 1 := hpos
      have hs' : w.dSlot.toNat < 4 := BitVec.lt_def.1 hl
      have hih := ih (by omega) (by omega) (by omega) h
      omega
    · obtain ⟨hlt, hpos⟩ := hnext hpn
      have hih := ih (w := { w with dPos := w.dPos + 1 }) (by dsimp only; omega) hs (by dsimp only; omega) h
      dsimp only at hih
      omega
    · cases h
    · rw [onPad_dSlot h]
      dsimp only
      omega

theorem length_emitted_le {dlen : BitVec 3} (h : dlen ≠ 0#3) (acc : Group) : (emitted dlen acc).length ≤ dlen.toNat := by
  unfold emitted
  split
  · rename_i h4
    simp [h4]
  · split
    · rename_i h3
      simp [h3]
    · simp only [List.length_cons, List.length_nil]
      bv_omega

/-- The decoder has listed output bytes only, below D_OPOS, and no more of them than it has consumed input bytes. -/
structure Run.WithinInput (s : State) (r : Run) : Prop where
  dPos_le : r.work.dPos.toNat ≤ s.inlen.toNat
  dOpos_le : r.work.dOpos.toNat ≤ r.work.dPos.toNat
  obuf_below : Mem.Below r.obuf r.work.dOpos.toNat

/-- Bytes emitted at D_OPOS, no more of them than bytes consumed. -/
theorem Run.WithinInput.emit {s : State} {r r' : Run} (hr : r.WithinInput s) {bs : List Byte}
    (hobuf : r'.obuf = Mem.writeBytes r.obuf r.work.dOpos.toNat bs)
    (hopos : r'.work.dOpos = r.work.dOpos + BitVec.ofNat 32 bs.length)
    (hpos : r.work.dPos.toNat + bs.length ≤ r'.work.dPos.toNat) (hle : r'.work.dPos.toNat ≤ s.inlen.toNat) :
    r'.WithinInput s := by
  have hopos_le := hr.dOpos_le
  have hinlen := s.inlen.isLt
  have hnat : r'.work.dOpos.toNat = r.work.dOpos.toNat + bs.length := hopos ▸ toNat_add_of_lt (by omega)
  refine ⟨hle, by omega, ?_⟩
  rw [hobuf, hnat]
  exact Mem.below_writeBytes (fun c hc => Nat.lt_add_right _ (hr.obuf_below c hc)) bs (Nat.le_refl _)

theorem bulkGroup_withinInput {s : State} {r : Run} (hr : r.WithinInput s) (hready : bulkReady s r.work = true) :
    (bulkGroup s r).WithinInput s := by
  simp only [bulkReady, Bool.and_eq_true, decide_eq_true_eq] at hready
  obtain ⟨⟨hleft, -⟩, -⟩ := hready
  have hle := hr.dPos_le
  rw [BitVec.toNat_sub_of_le (BitVec.le_def.2 hle)] at hleft
  have hinlen := s.inlen.isLt
  have hpos : (bulkGroup s r).work.dPos.toNat = r.work.dPos.toNat + 4 := toNat_add_of_lt (k := 4) (by omega)
  exact hr.emit rfl rfl (by simp only [List.length_cons, List.length_nil]; omega) (by omega)

theorem quantum_withinInput {s : State} {r r' : Run} (hr : r.WithinInput s) (h : quantum s r = .ok r') :
    r'.WithinInput s := by
  obtain ⟨w, hslots, hend⟩ := quantum_ok h
  have hslot : (openQuantum r.work).dSlot.toNat = 0 := rfl
  have hpos0 : (openQuantum r.work).dPos = r.work.dPos := rfl
  have hfuel : s.inlen.toNat - (openQuantum r.work).dPos.toNat < decFuel s := Nat.lt_succ_of_le (Nat.sub_le _ _)
  obtain ⟨hmono, hle, hopos, -, hheld⟩ := slotLoop_ok (w := openQuantum r.work) hr.dPos_le (by omega) hfuel hslots
  have hconsumed := slotLoop_dSlot_le (w := openQuantum r.work) hr.dPos_le (by omega) hfuel hslots
  have hdlen : w.dDlen = w.dSlot := by
    rcases hheld with ⟨h4, -, hd⟩ | ⟨-, -, hd, -⟩
    · exact hd.trans h4.symm
    · exact hd
  rcases hend with ⟨-, rfl⟩ | ⟨h0, hobuf, hpos, hopos'⟩
  · exact hr.emit (bs := []) rfl (hopos.trans (BitVec.add_zero _).symm) hmono hle
  · rw [hopos] at hobuf hopos'
    have hlen := length_emitted_le h0 (reassemble w)
    rw [hdlen] at hlen hobuf hopos'
    exact hr.emit hobuf hopos' (by rw [hpos, ← hpos0]; omega) (by rw [hpos]; exact hle)

/-- DECODE lists no byte at or beyond INLEN. -/
theorem decodeRun_obuf_below {s : State} {r : Run} (h : decodeRun s = .ok r) : Mem.Below r.obuf s.inlen.toNat := by
  have hstart : (decStart s).WithinInput s :=
    ⟨Nat.zero_le _, Nat.le_refl _, fun _ hc => absurd hc List.not_mem_nil⟩
  have hr : r.WithinInput s :=
    decLoop_invariant (P := Run.WithinInput s) (fun _ => bulkGroup_withinInput) (fun _ _ => quantum_withinInput) hstart h
  exact fun c hc => Nat.lt_of_lt_of_le (hr.obuf_below c hc) (Nat.le_trans hr.dOpos_le hr.dPos_le)

/-- OBUF as the engine of ENCODE or DECODE leaves it when it succeeds (R160, R190). -/
def State.EngineOutput (s : State) (m : Mem) : Prop := m = (encodeRun s).obuf ∨ ∃ r, decodeRun s = .ok r ∧ m = r.obuf

theorem State.EngineOutput.wf {s : State} {m : Mem} (h : s.EngineOutput m) : Mem.wf m = true := by
  rcases h with rfl | ⟨r, hr, rfl⟩
  · exact encodeRun_obuf_wf s
  · exact decodeRun_obuf_wf hr

/-- A command that is admitted writes below OUT_MAX (R62, R68). -/
theorem State.EngineOutput.below {s : State} {m : Mem} (h : s.EngineOutput m) (hparams : s.ParamsOk)
    (hadmitted : s.Admitted) : Mem.Below m (outMax s.inMax) := by
  obtain ⟨-, hmax⟩ := hparams
  obtain ⟨-, hlen⟩ := hadmitted
  intro c hc
  rcases h with rfl | ⟨r, hr, rfl⟩
  · have hbelow := encodeRun_obuf_below (by omega) c hc
    unfold outMax at hbelow ⊢
    omega
  · have hbelow := decodeRun_obuf_below hr c hc
    unfold outMax
    omega

/-! ## What a step does to the buffers -/

@[simp] theorem State.complete_buf (r : ResultCode) (s : State) (b : BufId) : (s.complete r).buf b = s.buf b := by
  cases b <;> rfl
@[simp] theorem State.accept_buf (s : State) (b : BufId) : s.accept.buf b = s.buf b := by cases b <;> rfl
@[simp] theorem State.answer_buf (v : BitVec 32) (s : State) (b : BufId) : (s.answer v).buf b = s.buf b := by
  cases b <;> rfl
@[simp] theorem State.hardReset_buf (s : State) (b : BufId) : s.hardReset.buf b = [] := by cases b <;> rfl
@[simp] theorem State.setBuf_buf (s : State) (m : Mem) (b c : BufId) :
    (s.setBuf m b).buf c = if c = b then m else s.buf c := by cases b <;> cases c <;> rfl
@[simp] theorem State.finishCodec_buf (n : Len) (m : Mem) (s : State) (b : BufId) :
    (s.finishCodec n m).buf b = if b = .obuf then m else s.buf b := by cases b <;> rfl
@[simp] theorem State.raiseDecode_buf (c : ErrCause) (p : Len) (s : State) (b : BufId) :
    (s.raiseDecode c p).buf b = if b = .obuf then [] else s.buf b := by cases b <;> rfl

/-- Construction writes no buffer (R130, R140). -/
@[simp] theorem State.construct_buf (a : List Byte) (p : PadSel) (st : Bool) (s : State) (b : BufId) :
    (s.construct a p st).buf b = s.buf b := by
  rcases s.construct_cases a p st with ⟨-, hc⟩ | ⟨-, hc⟩ <;> rw [hc] <;> cases b <;> simp [State.buf]

/-- What a command does to a buffer: nothing; or it is an ENCODE or a DECODE, and OBUF then lists nothing (R226) or the
output of the engine, which runs once the command is admitted (R263). -/
theorem exec_buf_cases {i : Instr} {s t : State} (h : exec i s = .next t) (b : BufId) :
    t.buf b = s.buf b ∨ t.buf b = [] ∨ (b = .obuf ∧ s.Admitted ∧ s.EngineOutput (t.buf b)) := by
  cases i with
  | configure st p =>
    cases h
    exact .inl (State.construct_buf _ _ _ s b)
  | preset id =>
    cases h
    exact .inl (State.construct_buf _ _ _ s b)
  | encode =>
    rcases execEncode_cases s with ⟨r, -, he⟩ | ⟨hadm, he⟩ <;> cases h.symm.trans he
    · exact .inl (State.complete_buf r s b)
    · by_cases hb : b = .obuf
      · exact .inr (.inr ⟨hb, s.admission_eq_none_iff.1 hadm, .inl (by simp [hb])⟩)
      · exact .inl (by simp [hb])
  | decode =>
    rcases execDecode_cases s with ⟨r, -, hd⟩ | ⟨-, e, -, hd⟩ | ⟨hadm, r, hr, hd⟩ <;> cases h.symm.trans hd
    · exact .inl (State.complete_buf r s b)
    · by_cases hb : b = .obuf
      · exact .inr (.inl (by simp [hb]))
      · exact .inl (by simp [hb])
    · by_cases hb : b = .obuf
      · exact .inr (.inr ⟨hb, s.admission_eq_none_iff.1 hadm, .inr ⟨r, hr, by simp [hb]⟩⟩)
      · exact .inl (by simp [hb])

/-- What a step does to a buffer: nothing; the reset input or a failed DECODE leaves nothing listed (R45, R226); the host
writes one byte within capacity (R63); or an admitted ENCODE or DECODE leaves its engine's output in OBUF. -/
theorem step_buf_cases {s t : State} (h : step s = .next t) (b : BufId) :
    t.buf b = s.buf b ∨ t.buf b = []
      ∨ (∃ i v, i < s.capacity b ∧ t.buf b = Mem.write (s.buf b) i v)
      ∨ (b = .obuf ∧ ∃ s' : State, s'.inMax = s.inMax ∧ s'.Admitted ∧ s'.EngineOutput (t.buf b)) := by
  rcases step_cases h with ⟨-, rfl⟩ | ⟨w, rest, -, -, hc⟩ | ⟨r, rest, -, -, hw⟩ | ⟨op, v, rest, -, -, -, rfl⟩
    | ⟨c, i, v, rest, -, -, hi, rfl⟩ | ⟨rest, -, rfl⟩
  · exact .inl rfl
  · rcases issueCommand_cases w { s with host := rest } with ⟨i, -, he⟩ | ⟨e, -, he⟩ <;> rw [he] at hc
    · rcases exec_buf_cases hc b with hkeep | hempty | ⟨hb, hadm, hout⟩
      · exact .inl (by simpa using hkeep)
      · exact .inr (.inl hempty)
      · exact .inr (.inr (.inr ⟨hb, State.accept { s with host := rest }, rfl, hadm, hout⟩))
    · cases hc
      exact .inl (by simp)
  · refine .inl ?_
    rcases hw with rfl | ⟨_, -, rfl⟩ | ⟨_, -, rfl⟩ <;> cases b <;> rfl
  · exact .inl (by simp)
  · by_cases hb : b = c
    · subst hb
      exact .inr (.inr (.inl ⟨i, v, hi, by simp⟩))
    · exact .inl (by simp [hb])
  · exact .inr (.inl (by simp))

theorem State.buffersWf_iff (s : State) : s.BuffersWf ↔ ∀ b, Mem.wf (s.buf b) = true :=
  ⟨fun ⟨ha, hi, ho⟩ b => by cases b <;> assumption, fun h => ⟨h .abuf, h .ibuf, h .obuf⟩⟩

theorem State.buffersFit_iff (s : State) : s.BuffersFit ↔ ∀ b, Mem.Below (s.buf b) (s.capacity b) :=
  ⟨fun ⟨ha, hi, ho⟩ b => by cases b <;> assumption, fun h => ⟨h .abuf, h .ibuf, h .obuf⟩⟩

/-- A buffer's capacity depends on nothing but the parameter IN_MAX (R60 to R62). -/
theorem State.capacity_of_inMax {s t : State} (h : t.inMax = s.inMax) (b : BufId) : t.capacity b = s.capacity b := by
  cases b <;> simp only [State.capacity, h]

/-! ## Where an access stops -/

/-- While a command runs the host's next access is served as R70 gives it for BUSY = 1. -/
theorem step_of_busy {s : State} {op : HostOp} {rest : List HostOp} (hb : s.busy = true) (hh : s.host = op :: rest) :
    step s = busyAccess op { s with host := rest } := by
  simp [step, hh, hostAccess, hb]

/-- The accesses that BUSY = 1 forbids (R70, R300, U6). -/
theorem busyAccess_of_breach {op : HostOp} (s : State) (hreset : op ≠ .reset) (hstatus : op ≠ .readReg .status) :
    busyAccess op s = .fault .hostDuty := by
  unfold busyAccess
  split
  · exact absurd rfl hstatus
  · exact absurd rfl hreset
  · rfl

/-- Bit 0 of a read of STATUS is BUSY (R30, R300). -/
theorem readReg_status_bit0 (s : State) : (s.readReg .status).getLsbD 0 = s.busy := by
  rw [State.readReg, BitVec.getLsbD_setWidth, statusRead_bit0]
  rfl

/-- A read of STATUS is served while BUSY = 1 too (R70). -/
theorem step_busy_readStatus {s : State} {rest : List HostOp} (hb : s.busy = true)
    (hh : s.host = .readReg .status :: rest) :
    step s = .next (State.answer (s.readReg .status) { s with host := rest }) := by
  rw [step_of_busy hb hh, busyAccess, State.readReg_withHost]

/-- A read or a write at or beyond a buffer's capacity is no location of the block (R60 to R62, U9). -/
theorem step_beyond_capacity {s : State} {rest : List HostOp} {op : HostOp} {b : BufId} {i : Nat} (hb : s.busy = false)
    (hop : op = .readBuf b i ∨ ∃ v, op = .writeBuf b i v) (hh : s.host = op :: rest) (hi : s.capacity b ≤ i) :
    step s = .fault .noSuchIndex := by
  have hnot : ¬ i < s.capacity b := Nat.not_lt.2 hi
  rw [step_of_idle hb hh]
  rcases hop with rfl | ⟨v, rfl⟩ <;> rw [idleAccess, State.capacity_withHost, if_neg hnot]

/-! ## The obligations -/

/-- Settles O56: a step keeps a buffer, empties it, writes one byte in order, or leaves an engine's output, which is
canonical. -/
theorem stepKeepsBuffersCanonical : Obligations.StepKeepsBuffersCanonical := by
  intro s t hs h
  rw [State.buffersWf_iff] at hs ⊢
  intro b
  rcases step_buf_cases h b with he | he | ⟨i, v, -, he⟩ | ⟨-, s', -, -, hout⟩
  · exact he ▸ hs b
  · rw [he]
    rfl
  · exact he ▸ Mem.wf_write (hs b) i v
  · exact hout.wf

/-- Settles O57: of what a step leaves in a buffer, the host's byte is within capacity (R63) and an engine's output is below
OUT_MAX (`State.EngineOutput.below`). -/
theorem stepKeepsBuffersWithinCapacity : Obligations.StepKeepsBuffersWithinCapacity := by
  intro s t hparams hs h
  rw [State.buffersFit_iff] at hs ⊢
  intro b
  rw [State.capacity_of_inMax (step_inMax h)]
  rcases step_buf_cases h b with he | he | ⟨i, v, hi, he⟩ | ⟨hb, s', hmax, hadm, hout⟩
  · exact he ▸ hs b
  · rw [he]
    exact fun _ hc => absurd hc List.not_mem_nil
  · exact he ▸ Mem.below_write (hs b) hi v
  · have hcap : s.capacity b = outMax s'.inMax := by rw [hb, hmax]; rfl
    rw [hcap]
    exact hout.below (by rwa [State.ParamsOk, hmax]) hadm

/-- Settles O15: a forbidden access is a breach (`busyAccess_of_breach`), and bit 0 of STATUS is BUSY. -/
theorem breachOfAHostDutyStops : Obligations.BreachOfAHostDutyStops := by
  intro s op rest hb hh
  refine ⟨fun hreset hstatus => (step_of_busy hb hh).trans (busyAccess_of_breach _ hreset hstatus), ?_⟩
  rintro rfl
  refine ⟨_, step_busy_readStatus hb hh, ?_, by simpa using hb⟩
  rw [State.answer_rdata, readReg_status_bit0, hb]

/-- Settles O16: the bound of each buffer is its capacity. -/
theorem indexBeyondCapacityStops : Obligations.IndexBeyondCapacityStops := by
  intro s rest b i v hb hi
  have hcap : s.capacity b ≤ i := by cases b <;> exact hi
  exact ⟨fun hh => step_beyond_capacity hb (.inr ⟨v, rfl⟩) hh hcap, fun hh => step_beyond_capacity hb (.inl rfl) hh hcap⟩

end Sys2Proof.Machine
end

section
/-! PROOFS. The encoding family (30_encoding.md part A), the command words: the fields of an encoded word, the five things the
decoder can answer (R91 to R97), and the words of each command as a range of numbers. -/

namespace Sys2Proof

/-! ## The fields of an encoded word -/

theorem cmdField_encode_configure (st : Bool) (p : PadSel) :
    cmdField (encode (.configure st p)) 12 4 = 1#4 ∧ cmdField (encode (.configure st p)) 10 2 = 0#2
      ∧ cmdField (encode (.configure st p)) 9 1 = BitVec.ofBool st ∧ cmdField (encode (.configure st p)) 0 9 = p := by
  refine ⟨?_, ?_, ?_, BitVec.extractLsb'_append_eq_right⟩ <;>
    simp only [cmdField, encode, BitVec.extractLsb'_append_eq_ite] <;> cases st <;> rfl

theorem cmdField_encode_preset (id : BitVec 2) :
    cmdField (encode (.preset id)) 12 4 = 2#4 ∧ cmdField (encode (.preset id)) 2 10 = 0#10
      ∧ cmdField (encode (.preset id)) 0 2 = id := by
  revert id
  decide

/-- Two adjacent fields of a word are one field. -/
theorem cmdField_append (w : CmdWord) (lo m n : Nat) :
    (cmdField w (lo + n) m ++ cmdField w lo n : BitVec (m + n)) = cmdField w lo (m + n) :=
  BitVec.extractLsb'_append_extractLsb'_eq_extractLsb' rfl

/-- The whole word is its own field. -/
theorem cmdField_all (w : CmdWord) : cmdField w 0 16 = w := BitVec.extractLsb'_eq_self

/-! ## What the decoder answers -/

/-- R97 in the fields of the formats: one disjunct per command. -/
theorem legal_iff (w : CmdWord) : CmdWord.legal w = true ↔
    (cmdField w 12 4 = 1#4 ∧ cmdField w 10 2 = 0#2) ∨ (cmdField w 12 4 = 2#4 ∧ cmdField w 2 10 = 0#10)
      ∨ (cmdField w 12 4 = 3#4 ∧ cmdField w 0 12 = 0#12) ∨ (cmdField w 12 4 = 4#4 ∧ cmdField w 0 12 = 0#12) := by
  simp only [CmdWord.legal, CmdWord.opLegal, CmdWord.op, CmdWord.configureReservedZero, CmdWord.presetReservedZero,
    CmdWord.nullReservedZero, cmdField, Bool.and_eq_true, Bool.or_eq_true, bne_iff_ne, beq_iff_eq]
  constructor
  · rintro ⟨⟨⟨((hop | hop) | hop) | hop, h1⟩, h2⟩, h34⟩
    · exact .inl ⟨hop, h1.resolve_left (· hop)⟩
    · exact .inr (.inl ⟨hop, h2.resolve_left (· hop)⟩)
    · exact .inr (.inr (.inl ⟨hop, h34.resolve_left fun h => h.1 hop⟩))
    · exact .inr (.inr (.inr ⟨hop, h34.resolve_left fun h => h.2 hop⟩))
  · rintro (⟨hop, hres⟩ | ⟨hop, hres⟩ | ⟨hop, hres⟩ | ⟨hop, hres⟩) <;> simp [hop, hres]

/-- The decoder reads a word in the format of its operation code when the bits the format reserves are 0, and rejects it
when it is not legal (R92 to R97). -/
theorem decode_cases (w : CmdWord) :
    (cmdField w 12 4 = 1#4 ∧ cmdField w 10 2 = 0#2
        ∧ decode w = .ok (.configure (decide (cmdField w 9 1 = 1#1)) (cmdField w 0 9)))
      ∨ (cmdField w 12 4 = 2#4 ∧ cmdField w 2 10 = 0#10 ∧ decode w = .ok (.preset (cmdField w 0 2)))
      ∨ (cmdField w 12 4 = 3#4 ∧ cmdField w 0 12 = 0#12 ∧ decode w = .ok .encode)
      ∨ (cmdField w 12 4 = 4#4 ∧ cmdField w 0 12 = 0#12 ∧ decode w = .ok .decode)
      ∨ (CmdWord.legal w = false ∧ ∃ e, decode w = .error e) := by
  unfold decode
  split_ifs with h1 r1 h2 r2 h3 r3 h4 r4
  · exact .inl ⟨h1, r1, rfl⟩
  · exact .inr (.inr (.inr (.inr ⟨by simp [← Bool.not_eq_true, legal_iff, h1, r1], _, rfl⟩)))
  · exact .inr (.inl ⟨h2, r2, rfl⟩)
  · exact .inr (.inr (.inr (.inr ⟨by simp [← Bool.not_eq_true, legal_iff, h2, r2], _, rfl⟩)))
  · exact .inr (.inr (.inl ⟨h3, r3, rfl⟩))
  · exact .inr (.inr (.inr (.inr ⟨by simp [← Bool.not_eq_true, legal_iff, h3, r3], _, rfl⟩)))
  · exact .inr (.inr (.inr (.inl ⟨h4, r4, rfl⟩)))
  · exact .inr (.inr (.inr (.inr ⟨by simp [← Bool.not_eq_true, legal_iff, h4, r4], _, rfl⟩)))
  · exact .inr (.inr (.inr (.inr ⟨by simp [← Bool.not_eq_true, legal_iff, h1, h2, h3, h4], _, rfl⟩)))

theorem encode_of_decode {w : CmdWord} {i : Instr} (h : decode w = .ok i) : encode i = w := by
  rcases decode_cases w with ⟨hop, hres, hd⟩ | ⟨hop, hres, hd⟩ | ⟨hop, hres, hd⟩ | ⟨hop, hres, hd⟩ | ⟨-, e, hd⟩ <;>
    rw [hd] at h <;> cases h
  · have hst : BitVec.ofBool (decide (cmdField w 9 1 = 1#1)) = cmdField w 9 1 := by
      generalize cmdField w 9 1 = x
      revert x
      decide
    rw [encode, hst, ← hop, ← hres, cmdField_append w 10 4 2, cmdField_append w 9 6 1, cmdField_append w 0 7 9]
    exact cmdField_all w
  · rw [encode, ← hop, ← hres, cmdField_append w 2 4 10, cmdField_append w 0 14 2]
    exact cmdField_all w
  · rw [encode, ← hop, ← hres, cmdField_append w 0 4 12]
    exact cmdField_all w
  · rw [encode, ← hop, ← hres, cmdField_append w 0 4 12]
    exact cmdField_all w

theorem decode_encode (i : Instr) : decode (encode i) = .ok i := by
  cases i with
  | configure st p =>
    obtain ⟨hop, hres, hst, hp⟩ := cmdField_encode_configure st p
    rw [decode, if_pos hop, if_pos hres, hst, hp]
    cases st <;> rfl
  | preset id =>
    obtain ⟨hop, hres, hid⟩ := cmdField_encode_preset id
    rw [decode, if_neg (by rw [hop]; decide), if_pos hop, if_pos hres, hid]
  | encode => rfl
  | decode => rfl

/-- The decoder and the encoder are inverse to each other. -/
theorem decode_eq_ok_iff {w : CmdWord} {i : Instr} : decode w = .ok i ↔ w = encode i :=
  ⟨fun h => (encode_of_decode h).symm, fun h => h ▸ decode_encode i⟩

/-- The word of every command is legal: the per-instruction family of the model's laws, together. -/
theorem legal_encode (i : Instr) : CmdWord.legal (encode i) = true := by
  cases i with
  | configure st p => exact (Laws.EncodedWordIsLegal.configure st p).1
  | preset id => exact (Laws.EncodedWordIsLegal.preset id).1
  | encode => exact Laws.EncodedWordIsLegal.encode.1
  | decode => exact Laws.EncodedWordIsLegal.decode.1

theorem exists_decode_iff_legal (w : CmdWord) : (∃ i, decode w = .ok i) ↔ CmdWord.legal w = true := by
  constructor
  · rintro ⟨i, h⟩
    rw [decode_eq_ok_iff.1 h]
    exact legal_encode i
  · intro hl
    rcases decode_cases w with ⟨-, -, hd⟩ | ⟨-, -, hd⟩ | ⟨-, -, hd⟩ | ⟨-, -, hd⟩ | ⟨hn, -⟩
    · exact ⟨_, hd⟩
    · exact ⟨_, hd⟩
    · exact ⟨_, hd⟩
    · exact ⟨_, hd⟩
    · rw [hn] at hl
      cases hl

/-! ## The words of each command as numbers -/

theorem toNat_encode_configure (st : Bool) (p : PadSel) :
    (encode (.configure st p)).toNat = 0x1000 + 0x200 * st.toNat + p.toNat := by
  have hp : p.toNat < 2 ^ 9 := p.isLt
  simp only [encode, BitVec.toNat_append, BitVec.toNat_ofBool, BitVec.toNat_ofNat]
  rw [← Nat.shiftLeft_add_eq_or_of_lt hp]
  cases st <;> simp [Nat.shiftLeft_eq]

theorem toNat_encode_preset (id : BitVec 2) : (encode (.preset id)).toNat = 0x2000 + id.toNat := by
  revert id
  decide

/-- The words of CONFIGURE (R92, R97). -/
theorem exists_encode_configure_iff (w : CmdWord) :
    (∃ st p, w = encode (.configure st p)) ↔ 0x1000#16 ≤ w ∧ w ≤ 0x13FF#16 := by
  simp only [← BitVec.toNat_inj, toNat_encode_configure, BitVec.le_def, BitVec.toNat_ofNat]
  constructor
  · rintro ⟨st, p, h⟩
    have hst := st.toNat_le
    omega
  · rintro ⟨hlo, hhi⟩
    rcases Nat.lt_or_ge w.toNat 0x1200 with h | h
    · exact ⟨false, BitVec.ofNat 9 w.toNat, by rw [BitVec.toNat_ofNat, Bool.toNat_false]; omega⟩
    · exact ⟨true, BitVec.ofNat 9 w.toNat, by rw [BitVec.toNat_ofNat, Bool.toNat_true]; omega⟩

/-- The words of PRESET (R93, R97). -/
theorem exists_encode_preset_iff (w : CmdWord) :
    (∃ id, w = encode (.preset id)) ↔ 0x2000#16 ≤ w ∧ w ≤ 0x2003#16 := by
  simp only [← BitVec.toNat_inj, toNat_encode_preset, BitVec.le_def, BitVec.toNat_ofNat]
  constructor
  · rintro ⟨id, h⟩
    omega
  · rintro ⟨hlo, hhi⟩
    exact ⟨BitVec.ofNat 2 w.toNat, by rw [BitVec.toNat_ofNat]; omega⟩

end Sys2Proof

namespace Sys2Proof.Machine

/-- An accepted illegal word writes RESULT and nothing else (R97, R261). -/
theorem issueCommand_of_illegal {w : CmdWord} {s : State} (hl : CmdWord.legal w = false) (hb : s.busy = false) :
    issueCommand w s = .next { s with result := .illegalCommand, draws := s.draws + 1 } := by
  rcases issueCommand_cases w s with ⟨i, hd, -⟩ | ⟨e, -, h⟩
  · rw [(exists_decode_iff_legal w).1 ⟨i, hd⟩] at hl
    cases hl
  · rw [h, State.complete, State.accept, ← hb]

/-! ## The obligations -/

/-- Settles O1, by the fields of the encoded word. -/
theorem decodeOfEncodeIsTheCommand : Obligations.DecodeOfEncodeIsTheCommand := fun i _ => decode_encode i

/-- Settles O2: the fields that the decoder checks and reads are the whole word. -/
theorem encodeOfDecodeIsTheWord : Obligations.EncodeOfDecodeIsTheWord := fun _ _ h => encode_of_decode h

/-- Settles O3, by evaluation. -/
theorem sampleWordsDecodeAsTheSpecSays : Obligations.SampleWordsDecodeAsTheSpecSays := by
  unfold Obligations.SampleWordsDecodeAsTheSpecSays
  decide

/-- Settles O4: the words that decode are the encoded ones (`decode_eq_ok_iff`), which are counted by their numbers. -/
theorem everyWordIsACommandOrIllegal : Obligations.EveryWordIsACommandOrIllegal := by
  refine ⟨exists_decode_iff_legal, fun w => ?_, fun w => ?_, fun w => decode_eq_ok_iff, fun w => decode_eq_ok_iff,
    fun w s => issueCommand_of_illegal⟩
  · simp only [decode_eq_ok_iff, exists_encode_configure_iff]
  · simp only [decode_eq_ok_iff, exists_encode_preset_iff]

end Sys2Proof.Machine
end

section
/-! PROOFS. The encoding family (30_encoding.md part B), the data: the 24-bit group as a concatenation (R114), and the class of
a byte under a valid configuration (R113). -/

namespace Sys2Proof.Machine

/-! ## The 24-bit group -/

theorem packBytes_eq_append (b0 b1 b2 : Byte) : packBytes b0 b1 b2 = (b0 ++ b1 ++ b2 : BitVec (8 + 8 + 8)) := by
  rw [packBytes, ← BitVec.setWidth_append_append_eq_shiftLeft_setWidth_or (w' := 8) (w'' := 8), BitVec.setWidth_eq]

theorem packSyms_eq_append (s0 s1 s2 s3 : Sym) :
    packSyms s0 s1 s2 s3 = (s0 ++ s1 ++ s2 ++ s3 : BitVec (6 + 6 + 6 + 6)) := by
  rw [packSyms, ← BitVec.setWidth_append_append_append_eq_shiftLeft_setWidth_or (w' := 6) (w'' := 6) (w''' := 6),
    BitVec.setWidth_eq]

/-- A field above the lower part of a concatenation is a field of the upper part. -/
theorem extractLsb'_append_high {m n : Nat} (x : BitVec m) (y : BitVec n) (j k : Nat) :
    (x ++ y).extractLsb' (n + j) k = x.extractLsb' j k := by
  rw [BitVec.extractLsb'_append_eq_of_le (Nat.le_add_right n j), Nat.add_sub_cancel_left]

theorem groupByte_packBytes (b0 b1 b2 : Byte) :
    groupByte (packBytes b0 b1 b2) 0 = b0 ∧ groupByte (packBytes b0 b1 b2) 1 = b1
      ∧ groupByte (packBytes b0 b1 b2) 2 = b2 := by
  rw [packBytes_eq_append]
  refine ⟨?_, ?_, BitVec.extractLsb'_append_eq_right⟩
  · exact (extractLsb'_append_high _ b2 8 8).trans BitVec.extractLsb'_append_eq_left
  · exact (extractLsb'_append_high _ b2 0 8).trans BitVec.extractLsb'_append_eq_right

theorem groupSym_packSyms (s0 s1 s2 s3 : Sym) :
    groupSym (packSyms s0 s1 s2 s3) 0 = s0 ∧ groupSym (packSyms s0 s1 s2 s3) 1 = s1
      ∧ groupSym (packSyms s0 s1 s2 s3) 2 = s2 ∧ groupSym (packSyms s0 s1 s2 s3) 3 = s3 := by
  rw [packSyms_eq_append]
  refine ⟨?_, ?_, ?_, BitVec.extractLsb'_append_eq_right⟩
  · exact (extractLsb'_append_high _ s3 12 6).trans
      ((extractLsb'_append_high _ s2 6 6).trans BitVec.extractLsb'_append_eq_left)
  · exact (extractLsb'_append_high _ s3 6 6).trans
      ((extractLsb'_append_high _ s2 0 6).trans BitVec.extractLsb'_append_eq_right)
  · exact (extractLsb'_append_high _ s3 0 6).trans BitVec.extractLsb'_append_eq_right

/-! ## The class of a byte -/

theorem padEnabled_iff (s : State) : s.padEnabled = true ↔ s.pad ≠ padNone := bne_iff_ne

section
variable {s : State} {b : Byte}

/-! Each class by the tests of R113 in their order. -/

theorem classOf_eq_sym_iff {v : Sym} :
    s.classOf b = .sym v ↔ s.decEntry b ≠ invalidMark ∧ (s.decEntry b).setWidth 6 = v := by
  unfold State.classOf
  split_ifs <;> simp_all

theorem classOf_eq_lb_iff : s.classOf b = .lb ↔ s.decEntry b = invalidMark ∧ isLineBreak b = true := by
  unfold State.classOf
  split_ifs <;> simp_all

theorem classOf_eq_pad_iff :
    s.classOf b = .pad ↔ s.decEntry b = invalidMark ∧ isLineBreak b = false ∧ s.pad ≠ padNone ∧ b = s.padByte := by
  simp only [State.classOf, padEnabled_iff]
  split_ifs <;> simp_all

theorem classOf_eq_bad_iff :
    s.classOf b = .bad ↔
      s.decEntry b = invalidMark ∧ isLineBreak b = false ∧ ¬(s.pad ≠ padNone ∧ b = s.padByte) := by
  simp only [State.classOf, padEnabled_iff]
  split_ifs <;> simp_all

/-! Under a valid configuration no two tests hold of one byte. -/

theorem State.InstanceOk.decEntry_of_isLineBreak (hs : s.InstanceOk) (hb : isLineBreak b = true) :
    s.decEntry b = invalidMark := by
  obtain ⟨-, -, hlf, hcr, -⟩ := hs
  simp only [isLineBreak, Bool.or_eq_true, beq_iff_eq] at hb
  rcases hb with rfl | rfl
  · exact hlf
  · exact hcr

theorem State.InstanceOk.decEntry_and_isLineBreak_of_pad (hs : s.InstanceOk) (hpad : s.pad ≠ padNone ∧ b = s.padByte) :
    s.decEntry b = invalidMark ∧ isLineBreak b = false := by
  obtain ⟨-, -, -, -, hp⟩ := hs
  obtain ⟨-, hlb, hdec⟩ := hp hpad.1
  exact hpad.2 ▸ ⟨hdec, hlb⟩

/-- A byte of class SYM has its value as entry: the two high bits of the entry are 0 (R22). -/
theorem State.InstanceOk.classOf_eq_sym_iff (hs : s.InstanceOk) (v : Sym) :
    s.classOf b = .sym v ↔ s.decEntry b = v.setWidth 8 := by
  rw [Machine.classOf_eq_sym_iff]
  constructor
  · rintro ⟨hne, rfl⟩
    obtain ⟨-, hinv, -⟩ := hs
    have hlt : (s.decEntry b).toNat < 2 ^ 6 := (hinv b hne).2
    refine BitVec.eq_of_toNat_eq ?_
    rw [BitVec.toNat_setWidth, BitVec.toNat_setWidth, Nat.mod_eq_of_lt hlt, Nat.mod_eq_of_lt (s.decEntry b).isLt]
  · intro h
    rw [h]
    clear h
    revert v
    decide

end

/-! ## The obligations -/

/-- Settles O29: the shifts of R114 are concatenations, and a field of a concatenation is its part. -/
theorem groupLayout : Obligations.GroupLayout :=
  ⟨fun b0 b1 b2 => ⟨packBytes_eq_append b0 b1 b2, groupByte_packBytes b0 b1 b2⟩,
    fun s0 s1 s2 s3 => ⟨packSyms_eq_append s0 s1 s2 s3, groupSym_packSyms s0 s1 s2 s3⟩⟩

/-- Settles O30: a line break or a pad byte is no symbol, and a pad byte is no line break, so each class needs its own test
only. -/
theorem byteClassesAreDisjoint : Obligations.ByteClassesAreDisjoint := by
  intro s b hs
  have hsym : s.decEntry b ≠ invalidMark → isLineBreak b = false :=
    fun hne => Bool.eq_false_iff.2 (mt hs.decEntry_of_isLineBreak hne)
  refine ⟨fun hne => ⟨hsym hne, fun hp => hne (hs.decEntry_and_isLineBreak_of_pad hp).1⟩, fun h => ?_,
    hs.classOf_eq_sym_iff, ?_, ?_, classOf_eq_bad_iff⟩
  · rw [(hs.decEntry_and_isLineBreak_of_pad h.2).2] at h
    cases h.1
  · exact classOf_eq_lb_iff.trans ⟨And.right, fun hb => ⟨hs.decEntry_of_isLineBreak hb, hb⟩⟩
  · rw [classOf_eq_pad_iff, ← and_assoc]
    exact ⟨And.right, fun hp => ⟨hs.decEntry_and_isLineBreak_of_pad hp, hp⟩⟩

end Sys2Proof.Machine
end

section
/-! PROOFS. The configuration family (40_configuration.md): the mask of R131 bit by bit, the two ends of CONFIGURE (R134,
R135), and the preset ROM with the instances PRESET builds from it (R140 to R142). -/

namespace Sys2Proof.Machine

/-! ## The mask, bit by bit -/

/-- Each bit of the mask is the check of its own invariant (R131). -/
theorem invariantMask_getLsbD (a : List Byte) (p : PadSel) :
    (invariantMask a p).getLsbD 0 = alphLen a ∧ (invariantMask a p).getLsbD 1 = alphLinebreak a
      ∧ (invariantMask a p).getLsbD 2 = hasDuplicate a ∧ (invariantMask a p).getLsbD 3 = padInAlphabet a p
      ∧ (invariantMask a p).getLsbD 4 = padLinebreak p ∧ (invariantMask a p).getLsbD 5 = padRange p := by
  simp only [invariantMask, BitVec.getLsbD_append]
  simp

theorem alphLen_iff (a : List Byte) : alphLen a = true ↔ a.length ≠ 64 := bne_iff_ne

theorem alphLinebreak_iff (a : List Byte) :
    alphLinebreak a = true ↔ ∃ i, ∃ h : i < a.length, a[i] = 0x0A#8 ∨ a[i] = 0x0D#8 := by
  simp only [alphLinebreak, List.any_eq_true, List.exists_mem_iff_getElem, isLineBreak, Bool.or_eq_true, beq_iff_eq]

theorem hasDuplicate_iff (a : List Byte) :
    hasDuplicate a = true ↔ ∃ i j, ∃ hij : i < j, ∃ hj : j < a.length, a[i]'(Nat.lt_trans hij hj) = a[j] := by
  rw [← not_iff_not, Bool.not_eq_true, hasDuplicate_eq_false_iff, List.Nodup, List.pairwise_iff_getElem]
  constructor
  · rintro hne ⟨i, j, hij, hj, heq⟩
    exact hne i j _ hj hij heq
  · exact fun hno i j _ hj hij heq => hno ⟨i, j, hij, hj, heq⟩

theorem padInAlphabet_iff (a : List Byte) (p : PadSel) :
    padInAlphabet a p = true ↔ p.toNat ≤ 0x0FF ∧ ∃ i, ∃ h : i < a.length, a[i] = p.extractLsb' 0 8 := by
  simp [padInAlphabet, List.mem_iff_getElem, BitVec.le_def]

theorem padLinebreak_iff (p : PadSel) : padLinebreak p = true ↔ p = 0x00A#9 ∨ p = 0x00D#9 := by
  simp [padLinebreak]

theorem padRange_iff (p : PadSel) : padRange p = true ↔ 0x101 ≤ p.toNat := by
  simp [padRange, BitVec.le_def]

/-- Bits 5:3 of the mask are the three padding invariants. -/
theorem invariantMask_padBits (a : List Byte) (p : PadSel) :
    (invariantMask a p).extractLsb' 3 3 =
      BitVec.ofBool (padRange p) ++ BitVec.ofBool (padLinebreak p) ++ BitVec.ofBool (padInAlphabet a p) :=
  (extractLsb'_append_high _ _ 2 3).trans <| (extractLsb'_append_high _ _ 1 3).trans <|
    (extractLsb'_append_high _ _ 0 3).trans BitVec.extractLsb'_eq_self

/-- NONE is no pad byte, so it violates none of the three padding invariants. -/
theorem invariantMask_padNone_padBits (a : List Byte) : (invariantMask a padNone).extractLsb' 3 3 = 0#3 := by
  have hin : padInAlphabet a padNone = false := by simp [padInAlphabet, padNone]
  rw [invariantMask_padBits, hin]
  decide

/-! ## The two ends of construction -/

theorem construct_cfgValid_iff (a : List Byte) (p : PadSel) (st : Bool) (s : State) :
    (s.construct a p st).cfgValid = true ↔ invariantMask a p = 0 := by
  rcases s.construct_cases a p st with ⟨hm, hc⟩ | ⟨hm, hc⟩
  · simp [hc, hm]
  · simpa [hc] using hm

theorem exec_configure_of_invariants {s : State} {p : PadSel} (hm : invariantMask s.alphabet p = 0) (st : Bool) :
    exec (.configure st p) s = .next (s.loadInstance s.alphabet p st) :=
  congrArg Host.Outcome.next (if_pos hm)

theorem exec_configure_of_violation {s : State} {p : PadSel} (hm : invariantMask s.alphabet p ≠ 0) (st : Bool) :
    exec (.configure st p) s = .next (s.raiseConstruction (invariantMask s.alphabet p)) :=
  congrArg Host.Outcome.next (if_neg hm)

theorem loadInstance_configFrame (a : List Byte) (p : PadSel) (st : Bool) (s : State) :
    s.ConfigFrame (s.loadInstance a p st) := by
  simp [State.ConfigFrame]

theorem raiseConstruction_configFrame (m : BitVec 6) (s : State) : s.ConfigFrame (s.raiseConstruction m) := by
  simp [State.ConfigFrame]

theorem getElem_freeEncTab (draw i : Nat) (hi : i < 64) : (freeEncTab draw)[i] = Config.free 8 draw (.encTab i) := by
  unfold freeEncTab
  exact Vector.getElem_ofFn hi

theorem getElem_freeDecTab (draw b : Nat) (hb : b < 256) : (freeDecTab draw)[b] = Config.free 8 draw (.decTab b) := by
  unfold freeDecTab
  exact Vector.getElem_ofFn hb

/-- CFGERR as read is the mask zero-extended (R32). -/
theorem cfgerrRead_eq_setWidth (s : State) : s.cfgerrRead = s.cfgerr.setWidth 8 :=
  (BitVec.setWidth_eq_append (v := 6) (w := 8) (by decide)).symm

/-! ## The preset ROM -/

theorem presetRom_alphabet (id : BitVec 2) :
    (presetRom id).alphabet = if id = 0#2 ∨ id = 2#2 then stdAlphabet else urlAlphabet := by
  revert id
  decide

theorem presetRom_padsel (id : BitVec 2) :
    (presetRom id).padsel = if id = 0#2 ∨ id = 1#2 then 0x03D#9 else padNone := by
  revert id
  decide

theorem presetRom_strict (id : BitVec 2) : (presetRom id).strict = false := by
  revert id
  decide

/-- No preset violates an invariant (R141). -/
theorem presetRom_invariantMask (id : BitVec 2) : invariantMask (presetRom id).alphabet (presetRom id).padsel = 0 := by
  revert id
  decide

/-- `A`-`Z`, `a`-`z` and `0`-`9` in their places, in every preset (R110, R111). -/
theorem presetRom_sharedSymbols (id : BitVec 2) :
    (∀ k, k < 26 → (presetRom id).alphabet[k]? = some (BitVec.ofNat 8 (0x41 + k)))
      ∧ (∀ k, k < 26 → (presetRom id).alphabet[26 + k]? = some (BitVec.ofNat 8 (0x61 + k)))
      ∧ ∀ k, k < 10 → (presetRom id).alphabet[52 + k]? = some (BitVec.ofNat 8 (0x30 + k)) := by
  revert id
  decide

/-- PRESET loads the ROM's entry, whatever the state (R140, R141). -/
theorem exec_preset (id : BitVec 2) (s : State) :
    exec (.preset id) s = .next (s.loadInstance (presetRom id).alphabet (presetRom id).padsel (presetRom id).strict) :=
  congrArg Host.Outcome.next (if_pos (presetRom_invariantMask id))

section
variable {s t : State} {id : BitVec 2} {a : List Byte} {b : Byte}

theorem decEntry_of_preset {k : Nat} (h : exec (.preset id) s = .next t) (ha : (presetRom id).alphabet = a)
    (hb : a[k]? = some b) : t.decEntry b = BitVec.ofNat 8 k := by
  obtain rfl := Host.Outcome.next.inj ((exec_preset id s).symm.trans h)
  obtain ⟨hlen, hnodup, -⟩ := alphabet_of_invariantMask_eq_zero (presetRom_invariantMask id)
  rw [ha] at hlen hnodup ⊢
  obtain ⟨hk, rfl⟩ := List.getElem?_eq_some_iff.1 hb
  exact loadInstance_decEntry_getElem hlen hnodup _ _ s k hk

theorem decEntry_of_preset_of_notMem (h : exec (.preset id) s = .next t) (ha : (presetRom id).alphabet = a)
    (hb : b ∉ a) : t.decEntry b = invalidMark := by
  obtain rfl := Host.Outcome.next.inj ((exec_preset id s).symm.trans h)
  obtain ⟨hlen, -, -⟩ := alphabet_of_invariantMask_eq_zero (presetRom_invariantMask id)
  exact loadInstance_decEntry_of_notMem hlen _ _ s (ha ▸ hb)

/-- The only pad byte of a preset is `=` (R27), so any other byte outside the alphabet is BAD unless it breaks a line. -/
theorem classOf_of_preset_eq_bad (h : exec (.preset id) s = .next t) (ha : (presetRom id).alphabet = a) (hb : b ∉ a)
    (hlb : isLineBreak b = false) (hpad : b ≠ 0x3D#8) : t.classOf b = .bad := by
  refine classOf_eq_bad_iff.2 ⟨decEntry_of_preset_of_notMem h ha hb, hlb, ?_⟩
  rintro ⟨hne, hbyte⟩
  obtain rfl := Host.Outcome.next.inj ((exec_preset id s).symm.trans h)
  rw [State.loadInstance_pad, presetRom_padsel] at hne
  rw [State.padByte, State.loadInstance_pad, presetRom_padsel] at hbyte
  split_ifs at hne hbyte
  · exact hpad hbyte
  · exact hne rfl

end

/-! ## The obligations -/

/-- Settles O26: the ROM is four fixed entries, and construction from an entry that violates no invariant ends in OK. -/
theorem everyPresetSatisfiesEveryInvariant : Obligations.EveryPresetSatisfiesEveryInvariant := by
  refine ⟨fun id => ?_, fun s t id h => ?_⟩
  · obtain ⟨hlen, hnodup, hlb⟩ := alphabet_of_invariantMask_eq_zero (presetRom_invariantMask id)
    refine ⟨hlen, hnodup, fun hlf => ?_, fun hcr => ?_, ?_, ?_, presetRom_invariantMask id⟩
    · exact absurd (hlb _ hlf) (by decide)
    · exact absurd (hlb _ hcr) (by decide)
    · rw [presetRom_alphabet]
      split_ifs <;> decide
    · rw [presetRom_padsel]
      split_ifs
      · exact .inl rfl
      · exact .inr rfl
  · obtain rfl := Host.Outcome.next.inj ((exec_preset id s).symm.trans h)
    exact State.loadInstance_result ..

/-- Settles O21: each bit by the meaning of its check; construction sets CFG_VALID exactly when the mask is 0. -/
theorem invariantMaskHasOneBitPerViolation : Obligations.InvariantMaskHasOneBitPerViolation := by
  refine ⟨fun a p => ?_, fun s t st p h => ?_⟩
  · obtain ⟨h0, h1, h2, h3, h4, h5⟩ := invariantMask_getLsbD a p
    rw [h0, h1, h2, h3, h4, h5]
    refine ⟨alphLen_iff a, alphLinebreak_iff a, hasDuplicate_iff a, padInAlphabet_iff a p, padLinebreak_iff p,
      padRange_iff p, ?_⟩
    rintro rfl
    exact invariantMask_padNone_padBits a
  · cases h
    exact construct_cfgValid_iff s.alphabet p st s

/-- Settles O22: the two tables are those of `loadInstance` over an alphabet of 64 distinct bytes. -/
theorem configureBuildsTheInstance : Obligations.ConfigureBuildsTheInstance := by
  intro s st p hm
  obtain ⟨hlen, hnodup, -⟩ := alphabet_of_invariantMask_eq_zero hm
  have henc : ∀ i (h : i < 64), (s.loadInstance s.alphabet p st).encTab[i] = s.alphabet[i] := fun i h => by
    simp only [State.loadInstance_encTab, getElem_buildEncTab hlen]
  refine ⟨_, exec_configure_of_invariants hm st, by simp, by simp, by simp, by simp, by simp, by simp, hlen,
    fun i h => ?_, fun i h => ?_, fun b hb => loadInstance_decEntry_of_notMem hlen p st s hb,
    loadInstance_configFrame ..⟩
  · rw [henc i h, List.getElem?_eq_getElem]
  · rw [henc i h, loadInstance_decEntry_getElem hlen hnodup]

/-- Settles O23, by the effect of `raiseConstruction`. -/
theorem failedConfigureDropsTheInstance : Obligations.FailedConfigureDropsTheInstance := by
  intro s st p hm
  refine ⟨_, exec_configure_of_violation hm st, by simp, by simp, ?_, by simp, fun i h => ?_, fun b h => ?_, by simp,
    by simp, raiseConstruction_configFrame ..⟩
  · rw [cfgerrRead_eq_setWidth, State.raiseConstruction_cfgerr]
  · simp only [State.raiseConstruction_encTab, getElem_freeEncTab]
  · simp only [State.raiseConstruction_decTab, getElem_freeDecTab]

/-- Settles O25: the mask is a function of the operands, so both runs come to the same end; on success every part of the
configuration state is written from the operands. -/
theorem configureIsAFunctionOfItsOperands : Obligations.ConfigureIsAFunctionOfItsOperands := by
  intro s s' t t' st p ha h h'
  by_cases hm : invariantMask s.alphabet p = 0
  · obtain rfl := Host.Outcome.next.inj (h.symm.trans (exec_configure_of_invariants hm st))
    obtain rfl := Host.Outcome.next.inj (h'.symm.trans (exec_configure_of_invariants (ha ▸ hm) st))
    simp [State.SameConfig, ha]
  · obtain rfl := Host.Outcome.next.inj (h.symm.trans (exec_configure_of_violation hm st))
    obtain rfl := Host.Outcome.next.inj (h'.symm.trans (exec_configure_of_violation (ha ▸ hm) st))
    simp [ha]

/-- Settles O27: `loadInstance` of the ROM's entry. -/
theorem presetLoadsTheRomEntry : Obligations.PresetLoadsTheRomEntry := by
  intro s id
  obtain ⟨hlen, -, -⟩ := alphabet_of_invariantMask_eq_zero (presetRom_invariantMask id)
  refine ⟨_, exec_preset id s, by simp, by simp, by simp, by simp, ?_, ?_, ?_, loadInstance_configFrame ..⟩
  · rw [State.loadInstance_pad, presetRom_padsel, padNone]
  · rw [State.loadInstance_strict, presetRom_strict]
  · rw [State.loadInstance_encTab, toList_buildEncTab hlen, presetRom_alphabet]

/-- Settles O28: an entry is a symbol's index in the ROM's alphabet (`decEntry_of_preset`) or the marker. -/
theorem presetDecodeTables : Obligations.PresetDecodeTables := by
  intro s t id h
  obtain ⟨hupper, hlower, hdigit⟩ := presetRom_sharedSymbols id
  refine ⟨fun k hk => decEntry_of_preset h rfl (hupper k hk), fun k hk => decEntry_of_preset h rfl (hlower k hk),
    fun k hk => decEntry_of_preset h rfl (hdigit k hk), fun hid => ?_, fun hid => ?_,
    fun b hb => decEntry_of_preset_of_notMem h (presetRom_alphabet id) hb⟩
  · have ha : (presetRom id).alphabet = stdAlphabet := by rw [presetRom_alphabet, if_pos hid]
    exact ⟨decEntry_of_preset h ha rfl, decEntry_of_preset h ha rfl,
      classOf_of_preset_eq_bad h ha (by decide) rfl (by decide), classOf_of_preset_eq_bad h ha (by decide) rfl (by decide)⟩
  · have ha : (presetRom id).alphabet = urlAlphabet := by
      rw [presetRom_alphabet, if_neg (by rcases hid with rfl | rfl <;> decide)]
    exact ⟨decEntry_of_preset h ha rfl, decEntry_of_preset h ha rfl,
      classOf_of_preset_eq_bad h ha (by decide) rfl (by decide), classOf_of_preset_eq_bad h ha (by decide) rfl (by decide)⟩

end Sys2Proof.Machine
end

section
/-! PROOFS. The encoder family (41_encoder.md): the bytes of R163 to R167 as a function of the input, the engine of R160 as
the computation of that function, and what an admitted ENCODE leaves. -/

namespace Sys2Proof.Machine

open Sys2Proof.Codec

/-! ## The encoded bytes -/

/-- The chunks are independent (R162): whole chunks in front change none of the symbols that follow. -/
theorem symbolsOf_append (xs ys : List Byte) (h : xs.length % 3 = 0) :
    symbolsOf (xs ++ ys) = symbolsOf xs ++ symbolsOf ys := by
  induction xs using symbolsOf.induct with
  | case1 => rfl
  | case2 b0 => simp at h
  | case3 b0 b1 => simp at h
  | case4 b0 b1 b2 rest ih =>
    have hrest : rest.length % 3 = 0 := by
      simp only [List.length_cons] at h
      omega
    simp only [List.cons_append, symbolsOf, ih hrest]

/-- ⌈n × 8 / 6⌉ symbols for `n` bytes (R161). -/
theorem length_symbolsOf (bs : List Byte) : (symbolsOf bs).length = (bs.length * 8 + 5) / 6 := by
  induction bs using symbolsOf.induct with
  | case1 => rfl
  | case2 b0 => simp [symbolsOf]
  | case3 b0 b1 => simp [symbolsOf]
  | case4 b0 b1 b2 rest ih =>
    simp only [symbolsOf, List.length_cons, ih]
    omega

/-! The symbols of a chunk as those of its 24-bit group, the missing bytes 0 (R114, R163 to R166). -/

theorem symbolsOf_full (b0 b1 b2 : Byte) (rest : List Byte) :
    symbolsOf (b0 :: b1 :: b2 :: rest) = (List.range 4).map (groupSym (packBytes b0 b1 b2)) ++ symbolsOf rest := by
  simp [symbolsOf, List.range_succ, groupSym_packBytes_0, groupSym_packBytes_1, groupSym_packBytes_2,
    groupSym_packBytes_3]

theorem symbolsOf_two (b0 b1 : Byte) : symbolsOf [b0, b1] = (List.range 3).map (groupSym (packBytes b0 b1 0)) := by
  simp [symbolsOf, List.range_succ, groupSym_packBytes_0, groupSym_packBytes_1, groupSym_packBytes_2]

theorem symbolsOf_one (b0 : Byte) : symbolsOf [b0] = (List.range 2).map (groupSym (packBytes b0 0 0)) := by
  simp [symbolsOf, List.range_succ, groupSym_packBytes_0, groupSym_packBytes_1]

/-! The bits of the last slice that stand for a missing byte are 0 (R165, R166). -/

theorem groupSym_two_unused (b0 b1 : Byte) : (groupSym (packBytes b0 b1 0) 2).extractLsb' 0 2 = 0#2 := by
  rw [groupSym_packBytes_2, slice2, BitVec.extractLsb'_append_eq_right]
  rfl

theorem groupSym_one_unused (b0 : Byte) : (groupSym (packBytes b0 0 0) 1).extractLsb' 0 4 = 0#4 := by
  rw [groupSym_packBytes_1, slice1, BitVec.extractLsb'_append_eq_right]
  rfl

theorem padCount_add {m : Nat} (h : m % 3 = 0) (n : Nat) : padCount (m + n) = padCount n := by
  rw [padCount, padCount, Nat.add_mod, h, Nat.zero_add, Nat.mod_mod]

@[simp] theorem encodedBytes_nil (s : State) : encodedBytes s [] = [] := by
  simp [encodedBytes, symbolsOf, padsFor, padCount]

/-- The symbols of the first chunk stand in front. -/
theorem getElem?_encSym_append (s : State) (g : Nat → Sym) (ys : List Byte) {k n : Nat} (hk : k < n) :
    (((List.range n).map g).map s.encSym ++ ys)[k]? = some (s.encSym (g k)) := by
  rw [List.getElem?_append_left (by simpa using hk)]
  simp [hk]

/-- Whole chunks are followed by no pad byte (R167), so they may stand in front of any other bytes. -/
theorem encodedBytes_append (s : State) (xs ys : List Byte) (h : xs.length % 3 = 0) :
    encodedBytes s (xs ++ ys) = encodedBytes s xs ++ encodedBytes s ys := by
  have hnone : padsFor s xs.length = [] := by simp [padsFor, padCount, h]
  have hpads : padsFor s (xs.length + ys.length) = padsFor s ys.length := by
    rw [padsFor, padsFor, padCount_add h]
  simp [encodedBytes, symbolsOf_append xs ys h, hnone, hpads]

theorem length_encodedBytes_of_padEnabled {s : State} (h : s.padEnabled = true) (bs : List Byte) :
    (encodedBytes s bs).length = (bs.length + 2) / 3 * 4 := by
  simp only [encodedBytes, padsFor, h, if_true, List.length_append, List.length_map, length_symbolsOf,
    List.length_replicate, padCount]
  split_ifs <;> omega

theorem length_encodedBytes_of_not_padEnabled {s : State} (h : s.padEnabled = false) (bs : List Byte) :
    (encodedBytes s bs).length = (bs.length * 8 + 5) / 6 := by
  simp [encodedBytes, padsFor, h, length_symbolsOf]

/-- With padding or without, the output fits OUT_MAX of its input (R62, R161). -/
theorem length_encodedBytes_le (s : State) (bs : List Byte) : (encodedBytes s bs).length ≤ outMax bs.length := by
  unfold outMax
  cases h : s.padEnabled with
  | true =>
    rw [length_encodedBytes_of_padEnabled h]
    omega
  | false =>
    rw [length_encodedBytes_of_not_padEnabled h]
    omega

/-- The encoded bytes depend on the configuration state only (R36). -/
theorem encodedBytes_congr {s x : State} (h : s.SameConfig x) (bs : List Byte) :
    encodedBytes x bs = encodedBytes s bs := by
  obtain ⟨henc, -, hpad, -, -⟩ := h
  have hsym : x.encSym = s.encSym := by
    funext v
    simp only [State.encSym, henc]
  have hpads : x.padEnabled = s.padEnabled ∧ x.padByte = s.padByte := by
    simp only [State.padEnabled, State.padByte, hpad, and_self]
  simp only [encodedBytes, padsFor, hpads, hsym]

/-- The classes of the encoded bytes under a valid instance (R169 (b)): the symbols, then the pad bytes. -/
theorem State.InstanceOk.map_classOf_encodedBytes {s : State} (hs : s.InstanceOk) (bs : List Byte) :
    (encodedBytes s bs).map s.classOf
      = (symbolsOf bs).map ByteClass.sym
        ++ List.replicate (if s.padEnabled then padCount bs.length else 0) ByteClass.pad := by
  have hsym : ∀ v, s.classOf (s.encSym v) = .sym v := by
    have hinv : ∀ v, s.decEntry (s.encSym v) = v.setWidth 8 := hs.1
    exact fun v => (hs.classOf_eq_sym_iff v).2 (hinv v)
  have hpad : s.padEnabled = true → s.classOf s.padByte = .pad := by
    intro hp
    obtain ⟨hdec, hlb⟩ := hs.decEntry_and_isLineBreak_of_pad ⟨(padEnabled_iff s).1 hp, rfl⟩
    exact classOf_eq_pad_iff.2 ⟨hdec, hlb, (padEnabled_iff s).1 hp, rfl⟩
  rw [encodedBytes, List.map_append, List.map_map, padsFor]
  congr 1
  · exact List.map_congr_left fun v _ => hsym v
  · split
    · rename_i hp
      rw [List.map_replicate, hpad hp]
    · rfl

/-! ## The input, a part at a time -/

/-- The `n` bytes of IBUF from index `p` on. -/
def State.inputFrom (s : State) (p n : Nat) : List Byte := (List.range' p n).map (s.byteAt .ibuf)

@[simp] theorem State.length_inputFrom (s : State) (p n : Nat) : (s.inputFrom p n).length = n := by
  simp [State.inputFrom]

theorem State.inputFrom_zero (s : State) (p : Nat) : s.inputFrom p 0 = [] := rfl

theorem State.inputFrom_succ (s : State) (p n : Nat) :
    s.inputFrom p (n + 1) = s.byteAt .ibuf p :: s.inputFrom (p + 1) n := by
  simp [State.inputFrom, List.range'_succ]

theorem State.input_eq_inputFrom (s : State) : s.input = s.inputFrom 0 s.inlen.toNat := by
  rw [State.input, State.inputFrom, List.range_eq_range']

@[simp] theorem State.length_input (s : State) : s.input.length = s.inlen.toNat := by simp [State.input]

theorem State.inputFrom_append (s : State) (p m n : Nat) :
    s.inputFrom p (m + n) = s.inputFrom p m ++ s.inputFrom (p + m) n := by
  rw [State.inputFrom, ← List.range'_append_1, List.map_append]
  rfl

/-! ## The engine -/

/-- The loop's bytes are the encoded bytes of the full chunks. -/
theorem chunksBytes_eq_encodedBytes (s : State) (p n : Nat) :
    chunksBytes s p n = encodedBytes s (s.inputFrom p (3 * n)) := by
  induction n generalizing p with
  | zero => simp [chunksBytes, State.inputFrom_zero]
  | succ n ih =>
    have hchunk : s.inputFrom p (3 * (n + 1)) = s.inputFrom p 3 ++ s.inputFrom (p + 3) (3 * n) := by
      rw [Nat.mul_succ, Nat.add_comm, State.inputFrom_append]
    rw [chunksBytes, ih, hchunk, encodedBytes_append _ _ _ (by simp)]
    simp [chunkBytes, State.inputFrom_succ, State.inputFrom_zero, encodedBytes, symbolsOf, padsFor, padCount]

theorem length_encodedBytes_chunks (s : State) (p n : Nat) :
    (encodedBytes s (s.inputFrom p (3 * n))).length = 4 * n := by
  rw [← chunksBytes_eq_encodedBytes, length_chunksBytes]

/-- The encoded bytes of the input, split after `n` full chunks (R162). -/
theorem encodedBytes_input_split (s : State) {n : Nat} (hn : 3 * n ≤ s.inlen.toNat) :
    encodedBytes s s.input = encodedBytes s (s.inputFrom 0 (3 * n))
      ++ encodedBytes s (s.inputFrom (3 * n) (s.inlen.toNat - 3 * n)) := by
  obtain ⟨m, hm⟩ := Nat.exists_eq_add_of_le hn
  rw [s.input_eq_inputFrom, hm, State.inputFrom_append, Nat.zero_add, Nat.add_sub_cancel_left,
    encodedBytes_append _ _ _ (by simp)]

/-- The final chunk writes the encoded bytes of the 0, 1 or 2 bytes left, at E_OPOS (R165 to R167). -/
theorem encFinal_spec (s : State) (r : Run) {m : Nat} (hm : m < 3) (hpos : r.work.ePos.toNat + m = s.inlen.toNat) :
    (encFinal s r).obuf
        = Mem.writeBytes r.obuf r.work.eOpos.toNat (encodedBytes s (s.inputFrom r.work.ePos.toNat m))
      ∧ (encFinal s r).work.eOpos
        = r.work.eOpos + BitVec.ofNat 32 (encodedBytes s (s.inputFrom r.work.ePos.toNat m)).length := by
  have hinlen := s.inlen.isLt
  have hleft : s.inlen - r.work.ePos = BitVec.ofNat 32 m := by bv_omega
  interval_cases m
  · obtain ⟨hobuf, hopos, -⟩ := encFinal_zero s r (by rw [hleft]; rfl)
    rw [hobuf, hopos]
    simp [State.inputFrom_zero, Mem.writeBytes]
  · obtain ⟨hobuf, hopos, -⟩ := encFinal_one s r (by rw [hleft]; rfl)
    rw [hobuf, hopos]
    cases hp : s.padEnabled <;>
      simp [State.inputFrom_succ, State.inputFrom_zero, encodedBytes, symbolsOf, padsFor, padCount, hp]
  · obtain ⟨hobuf, hopos, -⟩ := encFinal_two s r (by rw [hleft]; rfl) (by omega)
    rw [hobuf, hopos]
    cases hp : s.padEnabled <;>
      simp [State.inputFrom_succ, State.inputFrom_zero, encodedBytes, symbolsOf, padsFor, padCount, hp]

/-- The engine of R160 computes the encoded bytes of the input, for an INLEN whose output position does not wrap: the full
chunks by the loop, the rest by the final chunk. -/
theorem encodeRun_spec {s : State} (hlen : s.inlen.toNat ≤ 2 ^ 28) :
    (encodeRun s).work.eOpos = BitVec.ofNat 32 (encodedBytes s s.input).length
      ∧ (encodeRun s).obuf = Mem.writeBytes [] 0 (encodedBytes s s.input) := by
  have hstart : (encStart s).work.ePos.toNat = 0 ∧ (encStart s).work.eOpos.toNat = 0 := ⟨rfl, rfl⟩
  obtain ⟨hpos, hopos, hobuf⟩ := encLoop_spec s (s.inlen.toNat / 3) (encStart s) (by omega) (by omega) (by omega)
  rw [hstart.1, Nat.zero_add] at hpos
  rw [hstart.2, Nat.zero_add] at hopos
  rw [hstart.1, hstart.2, chunksBytes_eq_encodedBytes] at hobuf
  obtain ⟨hobuf', hopos'⟩ := encFinal_spec s (encLoop s (s.inlen.toNat / 3) (encStart s))
    (m := s.inlen.toNat - 3 * (s.inlen.toNat / 3)) (by omega) (by omega)
  rw [hpos] at hobuf' hopos'
  have hfull := length_encodedBytes_chunks s 0 (s.inlen.toNat / 3)
  rw [encodeRun, encodedBytes_input_split s (n := s.inlen.toNat / 3) (by omega)]
  constructor
  · rw [hopos', List.length_append, BitVec.ofNat_add, hfull, ← hopos, BitVec.ofNat_toNat, BitVec.setWidth_eq]
  · rw [hobuf', hobuf, hopos, Mem.writeBytes_append, hfull, Nat.zero_add]
    rfl

/-! ## What an admitted ENCODE leaves -/

theorem exec_encode_of_admitted {s : State} (hparams : s.ParamsOk) (hadm : s.Admitted) :
    exec .encode s = .next (s.finishCodec (BitVec.ofNat 32 (encodedBytes s s.input).length)
      (Mem.writeBytes [] 0 (encodedBytes s s.input))) := by
  obtain ⟨hopos, hobuf⟩ := encodeRun_spec (hadm.2.trans hparams.2)
  rw [← hopos, ← hobuf]
  rcases execEncode_cases s with ⟨r, hr, -⟩ | ⟨-, he⟩
  · rw [s.admission_eq_none_iff.2 hadm] at hr
    cases hr
  · exact he

/-- The output of a state whose OBUF holds `bs` from index 0 on, OUTLEN of them. -/
theorem State.output_eq_of_writeBytes {t : State} {m : Mem} {bs : List Byte} (hobuf : t.obuf = Mem.writeBytes m 0 bs)
    (hlen : t.outlen.toNat = bs.length) : t.output = bs := by
  refine List.ext_getElem (by simp [State.output, hlen]) fun i _ hi => ?_
  have hread : Mem.read (t.buf .obuf) i = some bs[i] := by
    show Mem.read t.obuf i = _
    rw [hobuf, Mem.read_writeBytes, dif_pos (by omega)]
    rfl
  simp [State.output, State.byteAt_of_read hread]

/-- A byte of the output, by its index in OBUF. -/
theorem State.byteAt_obuf_of_output {t : State} {i : Nat} {v : Byte} (h : t.output[i]? = some v) :
    t.byteAt .obuf i = v := by
  simp only [State.output, List.getElem?_map, Option.map_eq_some_iff, List.getElem?_eq_some_iff] at h
  obtain ⟨a, ⟨_, rfl⟩, hv⟩ := h
  rwa [List.getElem_range] at hv

section
variable {s t : State} (hparams : s.ParamsOk) (hadm : s.Admitted) (h : exec .encode s = .next t)
include hparams hadm h

theorem exec_encode_outlen : t.outlen.toNat = (encodedBytes s s.input).length := by
  obtain rfl := Host.Outcome.next.inj (h.symm.trans (exec_encode_of_admitted hparams hadm))
  have hle := length_encodedBytes_le s s.input
  have hlen : s.inlen.toNat ≤ 2 ^ 28 := hadm.2.trans hparams.2
  rw [State.length_input, outMax] at hle
  rw [State.finishCodec_outlen, BitVec.toNat_ofNat, Nat.mod_eq_of_lt (by omega)]

theorem exec_encode_obuf : t.obuf = Mem.writeBytes [] 0 (encodedBytes s s.input) := by
  obtain rfl := Host.Outcome.next.inj (h.symm.trans (exec_encode_of_admitted hparams hadm))
  rfl

theorem exec_encode_output : t.output = encodedBytes s s.input :=
  State.output_eq_of_writeBytes (exec_encode_obuf hparams hadm h) (exec_encode_outlen hparams hadm h)

/-- From the `j`-th chunk on, OBUF holds what the input from that chunk on encodes to (R162, R164). -/
theorem exec_encode_byteAt {j k : Nat} (hj : 3 * j ≤ s.inlen.toNat) {v : Byte}
    (hv : (encodedBytes s (s.inputFrom (3 * j) (s.inlen.toNat - 3 * j)))[k]? = some v) :
    t.byteAt .obuf (4 * j + k) = v := by
  have hfront := length_encodedBytes_chunks s 0 j
  refine State.byteAt_obuf_of_output ?_
  rw [exec_encode_output hparams hadm h, encodedBytes_input_split s hj, List.getElem?_append_right (by omega), hfront,
    Nat.add_sub_cancel_left]
  exact hv

theorem exec_encode_outlen_split {j : Nat} (hj : 3 * j ≤ s.inlen.toNat) :
    t.outlen.toNat = 4 * j + (encodedBytes s (s.inputFrom (3 * j) (s.inlen.toNat - 3 * j))).length := by
  rw [exec_encode_outlen hparams hadm h, encodedBytes_input_split s hj, List.length_append,
    length_encodedBytes_chunks]

end

/-! ## The obligations -/

/-- Settles O31: the engine computes the encoded bytes (`encodeRun_spec`), and OBUF lists nothing beyond them. -/
theorem encodeWritesTheEncodedBytes : Obligations.EncodeWritesTheEncodedBytes := by
  intro s hparams hadm
  have h := exec_encode_of_admitted hparams hadm
  have hlen := exec_encode_outlen hparams hadm h
  refine ⟨_, h, by simp, by simp, by simp, by simp, hlen, exec_encode_output hparams hadm h, fun i hi => ?_,
    by simp [State.CodecFrame]⟩
  rw [exec_encode_obuf hparams hadm h, Mem.read_writeBytes, dif_neg (by omega)]
  rfl

/-- Settles O32: both lengths of R161 are those of the encoded bytes, and INLEN is at most IN_MAX. -/
theorem encodeOutputLength : Obligations.EncodeOutputLength := by
  intro s hparams hadm
  have h := exec_encode_of_admitted hparams hadm
  refine ⟨_, h, by simp, ?_⟩
  rw [exec_encode_outlen hparams hadm h]
  refine ⟨fun hp => ?_, fun hp => ?_, ?_⟩
  · rw [length_encodedBytes_of_padEnabled hp, State.length_input]
  · rw [length_encodedBytes_of_not_padEnabled hp, State.length_input]
  · have hle := length_encodedBytes_le s s.input
    have hfit : s.inlen.toNat ≤ s.inMax := hadm.2
    rw [State.length_input] at hle
    unfold outMax at hle ⊢
    omega

/-- Settles O33: OBUF from the `j`-th chunk on is what the input from that chunk on encodes to (`exec_encode_byteAt`), for a
full chunk by `symbolsOf_full` and for the final one by `symbolsOf_two` and `symbolsOf_one`. -/
theorem encodeChunkByChunk : Obligations.EncodeChunkByChunk := by
  intro s t hparams hadm h
  have hle : 3 * (s.inlen.toNat / 3) ≤ s.inlen.toNat := by omega
  have hlen := exec_encode_outlen_split hparams hadm h hle
  refine ⟨fun j k hj hk => exec_encode_byteAt hparams hadm h (by omega) ?_, fun hm => ?_, fun hm => ?_, fun hm => ?_⟩
  · obtain ⟨n, hn⟩ : ∃ n, s.inlen.toNat - 3 * j = n + 1 + 1 + 1 := ⟨s.inlen.toNat - 3 * j - 3, by omega⟩
    rw [hn]
    simp only [State.inputFrom_succ, encodedBytes, symbolsOf_full, List.map_append, List.append_assoc]
    exact getElem?_encSym_append s _ _ hk
  · have hleft : s.inlen.toNat - 3 * (s.inlen.toNat / 3) = 0 := by omega
    rwa [hleft, State.inputFrom_zero, encodedBytes_nil] at hlen
  · have hleft : s.inlen.toNat - 3 * (s.inlen.toNat / 3) = 2 := by omega
    have hbyte := fun k v => exec_encode_byteAt hparams hadm h hle (k := k) (v := v)
    rw [hleft] at hlen hbyte
    simp only [State.inputFrom_succ, State.inputFrom_zero, encodedBytes, symbolsOf_two] at hlen hbyte
    refine ⟨fun k hk => hbyte _ _ (getElem?_encSym_append s _ _ hk), groupSym_two_unused _ _, ?_, fun hp => hbyte _ _ ?_⟩
    · rw [hlen]
      cases hp : s.padEnabled <;> simp [padsFor, padCount, hp]
    · simp [padsFor, padCount, hp]
  · have hleft : s.inlen.toNat - 3 * (s.inlen.toNat / 3) = 1 := by omega
    have hbyte := fun k v => exec_encode_byteAt hparams hadm h hle (k := k) (v := v)
    rw [hleft] at hlen hbyte
    simp only [State.inputFrom_succ, State.inputFrom_zero, encodedBytes, symbolsOf_one] at hlen hbyte
    refine ⟨fun k hk => hbyte _ _ (getElem?_encSym_append s _ _ hk), groupSym_one_unused _, ?_,
      fun hp => ⟨hbyte _ _ ?_, hbyte _ _ ?_⟩⟩
    · rw [hlen]
      cases hp : s.padEnabled <;> simp [padsFor, padCount, hp]
    · simp [padsFor, padCount, hp]
    · simp [padsFor, padCount, hp]

/-- Settles O34: the classes of the output are those of the encoded bytes, and LB is none of them. -/
theorem encodeOutputClasses : Obligations.EncodeOutputClasses := by
  intro s t hparams hadm hs h
  have hclasses := hs.map_classOf_encodedBytes s.input
  rw [exec_encode_output hparams hadm h]
  refine ⟨symbolsOf s.input, by rw [hclasses, State.length_input], fun b hb => ?_⟩
  refine Bool.eq_false_iff.2 fun hlb => ?_
  have hmem := List.mem_map_of_mem (f := s.classOf) hb
  rw [hclasses, classOf_eq_lb_iff.2 ⟨hs.decEntry_of_isLineBreak hlb, hlb⟩] at hmem
  simp at hmem

/-- Settles O35: whole chunks in front leave the encoded bytes of the rest as they are (`encodedBytes_append`). -/
theorem encodeChunksAreIndependent : Obligations.EncodeChunksAreIndependent := by
  intro s x y t tx ty hps hpx hpy has hax hay hx hy hinput hmod ht htx hty
  rw [exec_encode_output hps has ht, exec_encode_output hpx hax htx, exec_encode_output hpy hay hty, hinput,
    encodedBytes_append _ _ _ (by rwa [State.length_input]), encodedBytes_congr hx, encodedBytes_congr hy]

end Sys2Proof.Machine
end

section
/-! PROOFS. The decoder family (42_decoder.md), the loops: one induction over the slot loop (`slotLoop_induction`), what a
failure leaves of the positions, how many bytes a quantum consumes, the passes of the outer loop one after another
(`decLoop_succ`), and a quantum over four clean bytes as the bulk path (R191, R192, R196, R228). -/

namespace Sys2Proof.Machine

/-! ## The slot loop -/

/-- A position within the input that is not its end is below it. -/
theorem toNat_lt_of_ne {p n : Len} (hle : p.toNat ≤ n.toNat) (hne : p ≠ n) : p.toNat < n.toNat :=
  Nat.lt_of_le_of_ne hle fun he => hne (BitVec.eq_of_toNat_eq he)

/-- Storing a symbol in a free slot counts it. -/
theorem storeSym_dSlot {w : Work} (hs : w.dSlot.toNat < 4) (v : Sym) (p : Len) :
    (storeSym w v p).dSlot.toNat = w.dSlot.toNat + 1 := by
  simp only [storeSym]
  bv_omega

/-- Induction over the slot loop (R201), started within the input and with passes enough: a full quantum, the end of the
input, and a byte of each class. -/
theorem slotLoop_induction {s : State} {P : Work → Except DecErr Work → Prop}
    (full : ∀ w, w.dSlot.toNat = 4 → w.dPos.toNat ≤ s.inlen.toNat → P w (.ok w))
    (exhausted : ∀ w, w.dSlot.toNat < 4 → w.dPos = s.inlen → P w (onExhausted s w))
    (sym : ∀ w v o, w.dSlot.toNat < 4 → w.dPos.toNat < s.inlen.toNat → s.classOf (s.inByte w.dPos) = .sym v →
      P (storeSym { w with dPos := w.dPos + 1 } v w.dPos) o → P w o)
    (lb : ∀ w o, w.dPos.toNat < s.inlen.toNat → s.classOf (s.inByte w.dPos) = .lb →
      P { w with dPos := w.dPos + 1 } o → P w o)
    (bad : ∀ w, w.dSlot.toNat < 4 → w.dPos.toNat < s.inlen.toNat → s.classOf (s.inByte w.dPos) = .bad →
      P w (.error (decErr s { w with dPos := w.dPos + 1 } .invalidByte w.dPos)))
    (pad : ∀ w, w.dSlot.toNat < 4 → w.dPos.toNat < s.inlen.toNat → s.classOf (s.inByte w.dPos) = .pad →
      P w (onPad s { w with dPos := w.dPos + 1 } w.dPos))
    {fuel : Nat} {w : Work} (hp : w.dPos.toNat ≤ s.inlen.toNat) (hs : w.dSlot.toNat ≤ 4)
    (hf : s.inlen.toNat - w.dPos.toNat < fuel) : P w (slotLoop s fuel w) := by
  induction fuel generalizing w with
  | zero => omega
  | succ fuel ih =>
    have hnext : w.dPos.toNat < s.inlen.toNat →
        (w.dPos + 1).toNat ≤ s.inlen.toNat ∧ s.inlen.toNat - (w.dPos + 1).toNat < fuel := by
      intro hlt
      have hsucc := toNat_succ_of_lt hlt
      omega
    rcases slotLoop_succ_cases s fuel w with ⟨hn, he⟩ | ⟨hl, hpe, he⟩ | ⟨hl, hpn, v, hc, he⟩ | ⟨-, hpn, hc, he⟩ |
      ⟨hl, hpn, hc, he⟩ | ⟨hl, hpn, hc, he⟩ <;> rw [he]
    · exact full w (by bv_omega) hp
    · exact exhausted w (BitVec.lt_def.1 hl) hpe
    · have hlt := toNat_lt_of_ne hp hpn
      have hslot := storeSym_dSlot (w := { w with dPos := w.dPos + 1 }) (BitVec.lt_def.1 hl) v w.dPos
      exact sym w v _ (BitVec.lt_def.1 hl) hlt hc
        (ih (hnext hlt).1 (hslot ▸ Nat.succ_le_of_lt (BitVec.lt_def.1 hl)) (hnext hlt).2)
    · have hlt := toNat_lt_of_ne hp hpn
      exact lb w _ hlt hc (ih (hnext hlt).1 hs (hnext hlt).2)
    · exact bad w (BitVec.lt_def.1 hl) (toNat_lt_of_ne hp hpn) hc
    · exact pad w (BitVec.lt_def.1 hl) (toNat_lt_of_ne hp hpn) hc

theorem decFuel_enough (s : State) (p : Len) : s.inlen.toNat - p.toNat < decFuel s :=
  Nat.lt_succ_of_le (Nat.sub_le _ _)

/-- Skipping line breaks stays within the input and never goes back. -/
theorem skipLb_bounds {s : State} {p : Len} (hp : p.toNat ≤ s.inlen.toNat) :
    p.toNat ≤ (skipLb s (decFuel s) p).toNat ∧ (skipLb s (decFuel s) p).toNat ≤ s.inlen.toNat := by
  obtain ⟨hge, hle, -⟩ := skipLb_spec s (decFuel s) p hp (decFuel_enough s p).le
  exact ⟨hge, hle⟩

/-! ## The positions at a failure -/

/-- A failure with D_OPOS at `o` and D_POS within the input. -/
structure DecErr.Within (s : State) (o : Len) (e : DecErr) : Prop where
  dOpos : e.trigger.dOpos = o
  dPos_le : e.trigger.dPos.toNat ≤ s.inlen.toNat

theorem padFinal_error {s : State} {w : Work} {e : DecErr} (hp : w.dPos.toNat ≤ s.inlen.toNat)
    (h : padFinal s w = .error e) : e.Within s w.dOpos := by
  rcases padFinal_cases s w with ⟨-, he⟩ | ⟨-, he⟩ <;> cases h.symm.trans he
  exact ⟨rfl, (skipLb_bounds hp).2⟩

theorem padSecond_error {s : State} {w : Work} {e : DecErr} (hp : w.dPos.toNat ≤ s.inlen.toNat)
    (h : padSecond s w = .error e) : e.Within s w.dOpos := by
  have hle := (skipLb_bounds hp).2
  rcases padSecond_cases s w with ⟨-, he⟩ | ⟨-, -, he⟩ | ⟨hne, -, he⟩ <;> rw [he] at h
  · cases h
    exact ⟨rfl, hle⟩
  · cases h
    exact ⟨rfl, hle⟩
  · have hlt := toNat_lt_of_ne hle hne
    exact padFinal_error (w := { w with dPos := skipLb s (decFuel s) w.dPos + 1 })
      (by rw [toNat_succ_of_lt hlt]; exact hlt) h

theorem onPad_error {s : State} {w : Work} {p : Len} {e : DecErr} (hp : w.dPos.toNat ≤ s.inlen.toNat)
    (h : onPad s w p = .error e) : e.Within s w.dOpos := by
  rcases onPad_cases s w p with ⟨-, he⟩ | ⟨-, he⟩ | ⟨-, he⟩ <;> rw [he] at h
  · cases h
    exact ⟨rfl, hp⟩
  · exact padSecond_error hp h
  · exact padFinal_error hp h

theorem onExhausted_error {s : State} {w : Work} {e : DecErr} (hp : w.dPos.toNat ≤ s.inlen.toNat)
    (h : onExhausted s w = .error e) : e.Within s w.dOpos := by
  rcases onExhausted_cases s w with ⟨-, he⟩ | ⟨-, -, he⟩ | ⟨-, -, -, he⟩ <;> cases h.symm.trans he
  exact ⟨rfl, hp⟩

theorem slotLoop_error {s : State} {fuel : Nat} {w : Work} {e : DecErr} (hp : w.dPos.toNat ≤ s.inlen.toNat)
    (hs : w.dSlot.toNat ≤ 4) (hf : s.inlen.toNat - w.dPos.toNat < fuel) (h : slotLoop s fuel w = .error e) :
    e.Within s w.dOpos := by
  refine slotLoop_induction (P := fun w o => o = .error e → e.Within s w.dOpos) ?full ?exhausted ?sym ?lb ?bad ?pad
    hp hs hf h
  case full => exact fun w _ _ h => nomatch h
  case exhausted => exact fun w _ hpe h => onExhausted_error (hpe ▸ Nat.le_refl _) h
  case sym => exact fun w v o _ _ _ ih h => ih h
  case lb => exact fun w o _ _ ih h => ih h
  case bad =>
    intro w _ hlt _ h
    cases h
    exact ⟨rfl, (toNat_succ_of_lt hlt).trans_le hlt⟩
  case pad =>
    exact fun w _ hlt _ h => onPad_error (w := { w with dPos := w.dPos + 1 }) ((toNat_succ_of_lt hlt).trans_le hlt) h

/-- A quantum emits nothing before it fails (R221), and fails within the input. -/
theorem quantum_error {s : State} {r : Run} {e : DecErr} (hp : r.work.dPos.toNat ≤ s.inlen.toNat)
    (h : quantum s r = .error e) : e.Within s r.work.dOpos := by
  have hslot : (openQuantum r.work).dSlot.toNat ≤ 4 := Nat.zero_le _
  rcases quantum_cases s r with ⟨e', hslots, he⟩ | ⟨w, hslots, hw⟩
  · cases h.symm.trans he
    exact slotLoop_error (w := openQuantum r.work) hp hslot (decFuel_enough s _) hslots
  · obtain ⟨-, hle, hopos, -⟩ := slotLoop_ok (w := openQuantum r.work) hp hslot (decFuel_enough s _) hslots
    rw [hw] at h
    rcases closeQuantum_cases s w r.obuf with ⟨-, hc⟩ | ⟨-, -, hc⟩ | ⟨-, -, hc⟩ <;> cases h.symm.trans hc
    exact ⟨hopos, hle⟩

/-! ## What a quantum consumes -/

/-- The pad bytes after the first one (R206, R207): with it they fill the quantum up to 4 bytes. -/
theorem onPad_consumed {s : State} {w w' : Work} {p : Len} (hp : w.dPos.toNat ≤ s.inlen.toNat)
    (h : onPad s w p = .ok w') : w.dPos.toNat + 3 ≤ w'.dPos.toNat + w.dSlot.toNat := by
  rcases onPad_cases s w p with ⟨-, he⟩ | ⟨h2, he⟩ | ⟨h3, he⟩ <;> rw [he] at h
  · cases h
  · obtain ⟨hge, hle⟩ := skipLb_bounds hp
    rcases padSecond_cases s w with ⟨-, hq⟩ | ⟨-, -, hq⟩ | ⟨hne, -, hq⟩ <;> rw [hq] at h
    · cases h
    · cases h
    · have hlt := toNat_lt_of_ne hle hne
      cases padFinal_ok (w := { w with dPos := skipLb s (decFuel s) w.dPos + 1 })
        (by rw [toNat_succ_of_lt hlt]; exact hlt) h
      have hslot : w.dSlot.toNat = 2 := congrArg BitVec.toNat h2
      dsimp only
      omega
  · cases padFinal_ok hp h
    have hslot : 2 < w.dSlot.toNat := BitVec.lt_def.1 h3
    dsimp only
    omega

/-- With padding enabled a quantum that holds a symbol has consumed 4 bytes (R192): 4 symbols, or symbols and pad bytes. -/
theorem slotLoop_consumed {s : State} {fuel : Nat} {w w' : Work} (hpad : s.padEnabled = true)
    (hp : w.dPos.toNat ≤ s.inlen.toNat) (hs : w.dSlot.toNat ≤ 4) (hf : s.inlen.toNat - w.dPos.toNat < fuel)
    (h : slotLoop s fuel w = .ok w') (hheld : w'.dSlot ≠ 0#3) :
    w.dPos.toNat + 4 ≤ w'.dPos.toNat + w.dSlot.toNat := by
  refine slotLoop_induction
    (P := fun w o => o = .ok w' → w.dPos.toNat + 4 ≤ w'.dPos.toNat + w.dSlot.toNat)
    ?full ?exhausted ?sym ?lb ?bad ?pad hp hs hf h
  case full =>
    intro w h4 _ h
    cases h
    omega
  case exhausted =>
    intro w _ _ h
    rcases onExhausted_cases s w with ⟨h0, he⟩ | ⟨-, -, he⟩ | ⟨-, -, hno, he⟩
    · cases h.symm.trans he
      exact absurd h0 hheld
    · cases h.symm.trans he
    · cases hno.symm.trans hpad
  case sym =>
    intro w v o hs hlt _ ih h
    have hslot := storeSym_dSlot (w := { w with dPos := w.dPos + 1 }) hs v w.dPos
    have hpos := toNat_succ_of_lt hlt
    have hih := ih h
    rw [hslot] at hih
    simp only [storeSym] at hih
    omega
  case lb =>
    intro w o hlt _ ih h
    have hpos := toNat_succ_of_lt hlt
    have hih := ih h
    dsimp only at hih
    omega
  case bad => exact fun w _ _ _ h => nomatch h
  case pad =>
    intro w _ hlt _ h
    have hpos := toNat_succ_of_lt hlt
    have hrest := onPad_consumed (w := { w with dPos := w.dPos + 1 }) (by dsimp only; omega) h
    dsimp only at hrest
    omega

/-- A quantum of 2 to 4 symbols emits one byte less (R221). -/
theorem length_emitted {dlen : BitVec 3} (h0 : dlen ≠ 0#3) (h1 : dlen ≠ 1#3) (h4 : dlen.toNat ≤ 4) (acc : Group) :
    (emitted dlen acc).length + 1 = dlen.toNat := by
  have hdlen : dlen = 2#3 ∨ dlen = 3#3 ∨ dlen = 4#3 := by bv_omega
  rcases hdlen with rfl | rfl | rfl <;> rfl

/-! ## One pass of the outer loop -/

/-- What one pass of the outer loop does (R191, R192, R228): it consumes at least one byte and more bytes than it emits, 4 of
them when it emits with padding enabled; it keeps the bound, and it ends the decode at the end of the input only. -/
structure Run.Advances (s : State) (r r' : Run) : Prop where
  dPos_lt : r.work.dPos.toNat < r'.work.dPos.toNat
  dPos_le : r'.work.dPos.toNat ≤ s.inlen.toNat
  dOlim : r'.work.dOlim = r.work.dOlim
  dEnd : r'.work.dEnd = true → r'.work.dPos = s.inlen
  emits : ∃ n ≤ 3, r'.work.dOpos = r.work.dOpos + BitVec.ofNat 32 n
    ∧ r.work.dPos.toNat + n < r'.work.dPos.toNat
    ∧ (s.padEnabled = true → n = 0 ∨ r.work.dPos.toNat + 4 ≤ r'.work.dPos.toNat)

/-- Where the bulk path is taken, 4 bytes are left (R194). -/
theorem bulkReady_left {s : State} {w : Work} (hp : w.dPos.toNat ≤ s.inlen.toNat) (h : bulkReady s w = true) :
    w.dPos.toNat + 4 ≤ s.inlen.toNat ∧ bulkClean s w.dPos = true := by
  simp only [bulkReady, Bool.and_eq_true, decide_eq_true_eq] at h
  obtain ⟨⟨hleft, -⟩, hclean⟩ := h
  rw [BitVec.toNat_sub_of_le (BitVec.le_def.2 hp)] at hleft
  exact ⟨by omega, hclean⟩

theorem bulkGroup_advances {s : State} {r : Run} (hp : r.work.dPos.toNat < s.inlen.toNat) (hend : r.work.dEnd = false)
    (h : bulkReady s r.work = true) : r.Advances s (bulkGroup s r) := by
  obtain ⟨hleft, -⟩ := bulkReady_left hp.le h
  have hinlen := s.inlen.isLt
  have hpos : (bulkGroup s r).work.dPos.toNat = r.work.dPos.toNat + 4 := toNat_add_of_lt (k := 4) (by omega)
  exact ⟨by omega, by omega, rfl, fun he => absurd (hend.symm.trans he) Bool.false_ne_true, 3, Nat.le_refl _, rfl, by omega,
    fun _ => .inr hpos.ge⟩

/-- What the slot loop of a quantum from `r` leaves (R201): it holds 4 symbols, or at the end of the input 0, 2 or 3, each of
them a byte consumed; D_DLEN is their number, and the output has not moved. -/
structure Run.Slots (s : State) (r : Run) (w : Work) : Prop where
  dDlen : w.dDlen = w.dSlot
  dSlot_le : w.dSlot.toNat ≤ 4
  dSlot_ne_one : w.dSlot ≠ 1#3
  dPos_le : w.dPos.toNat ≤ s.inlen.toNat
  dOpos : w.dOpos = r.work.dOpos
  dOlim : w.dOlim = r.work.dOlim
  consumed : r.work.dPos.toNat + w.dSlot.toNat ≤ w.dPos.toNat
  stop : (w.dSlot = 4#3 ∧ w.dEnd = r.work.dEnd) ∨ (w.dPos = s.inlen ∧ w.dEnd = true ∧ w.dSlot < 4#3)

theorem slotLoop_slots {s : State} {r : Run} {w : Work} (hp : r.work.dPos.toNat ≤ s.inlen.toNat)
    (h : slotLoop s (decFuel s) (openQuantum r.work) = .ok w) : r.Slots s w := by
  have hconsumed := slotLoop_dSlot_le (w := openQuantum r.work) hp (Nat.zero_le _) (decFuel_enough s _) h
  obtain ⟨-, hle, hopos, holim, ⟨h4, hend, hlen⟩ | ⟨hpos, hend, hlen, h1, h4⟩⟩ :=
    slotLoop_ok (w := openQuantum r.work) hp (Nat.zero_le _) (decFuel_enough s _) h
  · exact ⟨hlen.trans h4.symm, by rw [h4]; decide, by rw [h4]; decide, hle, hopos, holim, hconsumed, .inl ⟨h4, hend⟩⟩
  · exact ⟨hlen, (BitVec.lt_def.1 h4).le, h1, hle, hopos, holim, hconsumed, .inr ⟨hpos, hend, h4⟩⟩

/-- A quantum that starts within the input consumes a byte. -/
theorem Run.Slots.dPos_lt {s : State} {r : Run} {w : Work} (h : r.Slots s w) (hp : r.work.dPos.toNat < s.inlen.toNat) :
    r.work.dPos.toNat < w.dPos.toNat := by
  rcases h.stop with ⟨h4, -⟩ | ⟨hend, -, -⟩
  · have hconsumed := h.consumed
    rw [h4] at hconsumed
    exact Nat.lt_of_lt_of_le (Nat.lt_add_of_pos_right (by decide)) hconsumed
  · rwa [hend]

theorem quantum_advances {s : State} {r r' : Run} (hp : r.work.dPos.toNat < s.inlen.toNat) (hgo : r.work.dEnd = false)
    (h : quantum s r = .ok r') : r.Advances s r' := by
  rcases quantum_cases s r with ⟨e, -, he⟩ | ⟨w, hslots, hw⟩
  · cases h.symm.trans he
  rw [hw] at h
  have hs := slotLoop_slots hp.le hslots
  have hfour : s.padEnabled = true → w.dSlot ≠ 0#3 → r.work.dPos.toNat + 4 ≤ w.dPos.toNat := fun hpad =>
    slotLoop_consumed (w := openQuantum r.work) hpad hp.le (Nat.zero_le _) (decFuel_enough s _) hslots
  have hend : w.dEnd = true → w.dPos = s.inlen := by
    rcases hs.stop with ⟨-, he⟩ | ⟨hpos, -, -⟩
    · exact fun hc => absurd (hgo.symm.trans (he.symm.trans hc)) Bool.false_ne_true
    · exact fun _ => hpos
  rcases closeQuantum_cases s w r.obuf with ⟨h0, hc⟩ | ⟨-, -, hc⟩ | ⟨h0, -, hc⟩ <;> cases h.symm.trans hc
  · exact ⟨hs.dPos_lt hp, hs.dPos_le, hs.dOlim, hend, 0, Nat.zero_le _, hs.dOpos.trans (BitVec.add_zero _).symm,
      hs.dPos_lt hp, fun _ => .inl rfl⟩
  · have h1 := hs.dSlot_ne_one
    have h4 := hs.dSlot_le
    have hconsumed := hs.consumed
    rw [← hs.dDlen] at h1 h4 hconsumed
    have hlen := length_emitted h0 h1 h4 (reassemble w)
    exact ⟨hs.dPos_lt hp, hs.dPos_le, hs.dOlim, hend, (emitted w.dDlen (reassemble w)).length, by omega,
      congrArg (· + _) hs.dOpos, show _ < w.dPos.toNat by omega, fun hpad => .inr (hfour hpad (hs.dDlen ▸ h0))⟩

/-- The outer loop stops here (R190): the input is consumed, or the end is declared. -/
def Run.Stopped (s : State) (r : Run) : Prop := ¬(r.work.dPos.toNat < s.inlen.toNat ∧ r.work.dEnd = false)

theorem decLoop_of_stopped {bulk : Bool} {s : State} {r : Run} (h : r.Stopped s) (fuel : Nat) :
    decLoop bulk s fuel r = .ok r := by
  cases fuel with
  | zero => rfl
  | succ fuel => rw [decLoop, if_neg h]

/-- A run of the outer loop and one more pass. -/
theorem decLoop_succ (bulk : Bool) (s : State) (fuel : Nat) (r : Run) :
    decLoop bulk s (fuel + 1) r = (decLoop bulk s fuel r).bind (decLoop bulk s 1) := by
  induction fuel generalizing r with
  | zero => rfl
  | succ fuel ih =>
    rw [decLoop]
    conv_rhs => rw [decLoop]
    split
    · split
      · exact ih _
      · cases quantum s r with
        | error e => rfl
        | ok r' => exact ih r'
    · rename_i hstop
      exact (decLoop_of_stopped hstop 1).symm

/-- One pass: nothing where the loop stops, else an advance or the failure of a quantum. -/
theorem decLoop_one_cases (bulk : Bool) (s : State) (r : Run) :
    (r.Stopped s ∧ decLoop bulk s 1 r = .ok r)
      ∨ (∃ r', r.Advances s r' ∧ decLoop bulk s 1 r = .ok r')
      ∨ (∃ e, quantum s r = .error e ∧ decLoop bulk s 1 r = .error e) := by
  rcases decLoop_succ_cases bulk s 0 r with hstop | ⟨hp, hend, -, hready, he⟩ | ⟨-, -, -, e, hq, he⟩
    | ⟨hp, hend, -, r', hq, he⟩
  · exact .inl hstop
  · exact .inr (.inl ⟨_, bulkGroup_advances hp hend hready, he⟩)
  · exact .inr (.inr ⟨e, hq, he⟩)
  · exact .inr (.inl ⟨r', quantum_advances hp hend hq, he⟩)

/-! ## The passes from the start of DECODE -/

/-- How many bytes can have been emitted once `p` bytes are consumed (R191, R192). -/
def State.emittedAtMost (s : State) (p : Nat) : Nat := if s.padEnabled then p / 4 * 3 else p * 6 / 8

theorem emittedAtMost_mono (s : State) {p q : Nat} (h : p ≤ q) : s.emittedAtMost p ≤ s.emittedAtMost q := by
  unfold State.emittedAtMost
  split <;> omega

theorem outputBound_toNat (s : State) : (outputBound s).toNat = s.emittedAtMost s.inlen.toNat := by
  have hinlen := s.inlen.isLt
  rw [outputBound, BitVec.toNat_ofNat]
  refine Nat.mod_eq_of_lt ?_
  split <;> omega

/-- An advance keeps D_OPOS within what the bytes consumed can have emitted. -/
theorem Run.Advances.dOpos_le {s : State} {r r' : Run} (h : r.Advances s r')
    (hr : r.work.dOpos.toNat ≤ s.emittedAtMost r.work.dPos.toNat) :
    r'.work.dOpos.toNat ≤ s.emittedAtMost r'.work.dPos.toNat := by
  obtain ⟨n, hn, hopos, hpos, hpad⟩ := h.emits
  have hadd : r'.work.dOpos.toNat ≤ r.work.dOpos.toNat + n := by
    rw [hopos, BitVec.toNat_add, BitVec.toNat_ofNat]
    exact (Nat.mod_le _ _).trans (Nat.add_le_add_left (Nat.mod_le _ _) _)
  unfold State.emittedAtMost at hr ⊢
  cases hp : s.padEnabled with
  | true =>
    simp only [hp, if_true] at hr ⊢
    rcases hpad hp with h0 | h4 <;> omega
  | false =>
    simp only [hp, Bool.false_eq_true, if_false] at hr ⊢
    omega

/-- A run of the outer loop after `n` passes that did not fail. -/
structure Run.Reached (s : State) (n : Nat) (r : Run) : Prop where
  dPos_le : r.work.dPos.toNat ≤ s.inlen.toNat
  dOpos_le : r.work.dOpos.toNat ≤ s.emittedAtMost r.work.dPos.toNat
  dOlim : r.work.dOlim = outputBound s
  dEnd : r.work.dEnd = true → r.work.dPos = s.inlen
  passes : n ≤ r.work.dPos.toNat ∨ r.Stopped s

theorem Run.Reached.advance {s : State} {n : Nat} {r r' : Run} (hr : r.Reached s n) (h : r.Advances s r')
    (hgo : ¬r.Stopped s) : r'.Reached s (n + 1) :=
  ⟨h.dPos_le, h.dOpos_le hr.dOpos_le, h.dOlim.trans hr.dOlim, h.dEnd,
    .inl (Nat.succ_le_of_lt (Nat.lt_of_le_of_lt (hr.passes.resolve_right hgo) h.dPos_lt))⟩

theorem Run.Reached.dOpos_le_outputBound {s : State} {n : Nat} {r : Run} (hr : r.Reached s n) :
    r.work.dOpos.toNat ≤ (outputBound s).toNat :=
  hr.dOpos_le.trans (outputBound_toNat s ▸ emittedAtMost_mono s hr.dPos_le)

/-- Any number of passes of DECODE's outer loop: they reach a run, or a quantum fails from one reached. -/
theorem decLoop_start_cases (bulk : Bool) (s : State) (fuel : Nat) :
    (∃ r, r.Reached s fuel ∧ decLoop bulk s fuel (decStart s) = .ok r)
      ∨ (∃ r n e, r.Reached s n ∧ quantum s r = .error e ∧ decLoop bulk s fuel (decStart s) = .error e) := by
  induction fuel with
  | zero =>
    exact .inl ⟨_, ⟨Nat.zero_le _, Nat.zero_le _, rfl, fun h => absurd h Bool.false_ne_true, .inl (Nat.zero_le _)⟩, rfl⟩
  | succ fuel ih =>
    rcases ih with ⟨r, hr, he⟩ | ⟨r, n, e, hr, hq, he⟩ <;> rw [decLoop_succ, he]
    · rcases decLoop_one_cases bulk s r with ⟨hstop, h1⟩ | ⟨r', hadv, h1⟩ | ⟨e, hq, h1⟩
      · exact .inl ⟨r, { hr with passes := .inr hstop }, h1⟩
      · by_cases hstop : r.Stopped s
        · exact .inl ⟨r, { hr with passes := .inr hstop }, decLoop_of_stopped hstop 1⟩
        · exact .inl ⟨r', hr.advance hadv hstop, h1⟩
      · exact .inr ⟨r, fuel, e, hr, hq, h1⟩
    · exact .inr ⟨r, n, e, hr, hq, rfl⟩

/-- Within INLEN passes the loop stops (R228): further passes change nothing. -/
theorem decLoop_start_enough (bulk : Bool) (s : State) {fuel : Nat} (h : s.inlen.toNat ≤ fuel) :
    decLoop bulk s (fuel + 1) (decStart s) = decLoop bulk s fuel (decStart s) := by
  rw [decLoop_succ]
  rcases decLoop_start_cases bulk s fuel with ⟨r, hr, he⟩ | ⟨-, -, e, -, -, he⟩ <;> rw [he]
  · exact decLoop_of_stopped (hr.passes.elim (fun hn hgo => absurd (hn.trans_lt hgo.1) (by omega)) id) 1
  · rfl

theorem decLoop_start_eq_decodeRunWith (bulk : Bool) (s : State) {fuel : Nat} (h : s.inlen.toNat ≤ fuel) :
    decLoop bulk s fuel (decStart s) = decodeRunWith bulk s := by
  have hlimit : ∀ n, decLoop bulk s (s.inlen.toNat + n) (decStart s) = decLoop bulk s s.inlen.toNat (decStart s) := by
    intro n
    induction n with
    | zero => rfl
    | succ n ih => exact (decLoop_start_enough bulk s (Nat.le_add_right _ n)).trans ih
  obtain ⟨n, rfl⟩ := Nat.exists_eq_add_of_le h
  exact (hlimit n).trans (hlimit 1).symm

/-- DECODE's engine succeeds at the end of the input only (R228). -/
theorem decodeRunWith_dPos {bulk : Bool} {s : State} {r : Run} (h : decodeRunWith bulk s = .ok r) :
    r.work.dPos = s.inlen := by
  rcases decLoop_start_cases bulk s (decFuel s) with ⟨r', hr, he⟩ | ⟨-, -, e, -, -, he⟩ <;> cases h.symm.trans he
  by_contra hne
  have hlt := toNat_lt_of_ne hr.dPos_le hne
  have hgo : ¬r.Stopped s := fun hstop => hstop ⟨hlt, Bool.eq_false_iff.2 (mt hr.dEnd hne)⟩
  have hpasses := hr.passes.resolve_right hgo
  unfold decFuel at hpasses
  omega

/-! ## A clean quantum is the bulk path -/

theorem isSym_iff {c : ByteClass} : c.isSym = true ↔ ∃ v, c = .sym v := by
  cases c <;> simp [ByteClass.isSym]

theorem symValue_of_classOf {s : State} {b : Byte} {v : Sym} (h : s.classOf b = .sym v) : s.symValue b = v :=
  (classOf_eq_sym_iff.1 h).2

/-- A clean byte in the slot loop is stored (R202). -/
theorem slotLoop_of_isSym {s : State} {w : Work} (fuel : Nat) (hs : w.dSlot < 4#3) (hp : w.dPos.toNat < s.inlen.toNat)
    (hc : (s.classOf (s.inByte w.dPos)).isSym = true) :
    slotLoop s (fuel + 1) w
      = slotLoop s fuel (storeSym { w with dPos := w.dPos + 1 } (s.symValue (s.inByte w.dPos)) w.dPos) := by
  obtain ⟨v, hv⟩ := isSym_iff.1 hc
  have hne : w.dPos ≠ s.inlen := fun he => Nat.ne_of_lt hp (congrArg BitVec.toNat he)
  simp only [slotLoop, hs, not_true_eq_false, if_false, hne, hv, symValue_of_classOf hv]

/-- The slots of a quantum hold the symbols `vs`, and 0 beyond them (R200, R202). -/
structure Work.Holds (w : Work) (vs : List Sym) : Prop where
  dSlot : w.dSlot.toNat = vs.length
  dSym : w.dSym.toList = vs ++ List.replicate (4 - vs.length) 0

theorem openQuantum_holds (w : Work) : (openQuantum w).Holds [] := ⟨rfl, rfl⟩

theorem Work.Holds.store {w : Work} {vs : List Sym} (h : w.Holds vs) (hlen : vs.length < 4) (v : Sym) (p : Len) :
    (storeSym w v p).Holds (vs ++ [v]) where
  dSlot := by
    rw [storeSym_dSlot (h.dSlot.trans_lt hlen), List.length_append]
    exact congrArg (· + 1) h.dSlot
  dSym := by
    obtain ⟨n, hn⟩ : ∃ n, 4 - vs.length = n + 1 := ⟨3 - vs.length, by omega⟩
    have hn' : 4 - (vs ++ [v]).length = n := by
      rw [List.length_append, List.length_singleton]
      omega
    rw [storeSym, Vector.toList_setIfInBounds, h.dSym, h.dSlot, hn, hn', List.replicate_succ,
      List.set_append_right _ _ (Nat.le_refl _), Nat.sub_self, List.set_cons_zero, List.append_assoc]
    rfl

/-- The reassembled group (R220): the symbols held, a missing one as 0. -/
theorem Work.Holds.reassemble {w : Work} {vs : List Sym} (h : w.Holds vs) :
    reassemble w = packSyms (vs.getD 0 0) (vs.getD 1 0) (vs.getD 2 0) (vs.getD 3 0) := by
  have hsym : ∀ i, ∀ hi : i < 4, w.dSym[i] = vs.getD i 0 := by
    intro i hi
    have hget : w.dSym.toList[i]? = some w.dSym[i] := by simp [hi]
    rw [h.dSym] at hget
    rw [List.getD_eq_getElem?_getD]
    by_cases hlt : i < vs.length
    · rw [List.getElem?_append_left hlt] at hget
      rw [hget, Option.getD_some]
    · rw [List.getElem?_append_right (by omega), List.getElem?_replicate, if_pos (by omega)] at hget
      rw [List.getElem?_eq_none (by omega), Option.getD_none]
      exact (Option.some.inj hget).symm
  rw [Machine.reassemble, hsym 0, hsym 1, hsym 2, hsym 3]

/-- One pass of the slot loop over a clean byte. -/
theorem Work.Holds.slotLoop_clean {s : State} {w : Work} {p : Len} {vs : List Sym} (h : w.Holds vs) (hpos : w.dPos = p)
    (hlen : vs.length < 4) (hp : p.toNat < s.inlen.toNat) (hc : (s.classOf (s.inByte p)).isSym = true) (fuel : Nat) :
    ∃ w', slotLoop s (fuel + 1) w = slotLoop s fuel w' ∧ w'.Holds (vs ++ [s.symValue (s.inByte p)])
      ∧ w'.dPos = p + 1 := by
  obtain rfl := hpos
  have hslot : w.dSlot < 4#3 := BitVec.lt_def.2 (h.dSlot.trans_lt hlen)
  have hw : Work.Holds { w with dPos := w.dPos + 1 } vs := ⟨h.dSlot, h.dSym⟩
  exact ⟨_, slotLoop_of_isSym fuel hslot hp hc, hw.store hlen _ _, rfl⟩

/-- A quantum over four clean bytes leaves what the bulk path leaves (R196). -/
theorem quantum_of_bulkClean {s : State} {r : Run} (hleft : r.work.dPos.toNat + 4 ≤ s.inlen.toNat)
    (hclean : bulkClean s r.work.dPos = true) : ∃ r', quantum s r = .ok r' ∧ (bulkGroup s r).SameDec r' := by
  have hinlen := s.inlen.isLt
  have hlt : ∀ k, k < 4 → (r.work.dPos + BitVec.ofNat 32 k).toNat < s.inlen.toNat := by
    intro k hk
    rw [toNat_add_of_lt (by omega)]
    omega
  simp only [bulkClean, Bool.and_eq_true] at hclean
  obtain ⟨⟨⟨hc0, hc1⟩, hc2⟩, hc3⟩ := hclean
  obtain ⟨n, hn⟩ : ∃ n, decFuel s = n + 1 + 1 + 1 + 1 + 1 := ⟨s.inlen.toNat - 4, by unfold decFuel; omega⟩
  obtain ⟨w1, he1, h1, hp1⟩ :=
    (openQuantum_holds r.work).slotLoop_clean (p := r.work.dPos) rfl (by decide) (by omega) hc0 (n + 1 + 1 + 1 + 1)
  obtain ⟨w2, he2, h2, hp2⟩ := h1.slotLoop_clean hp1 (by simp) (hlt 1 (by decide)) hc1 (n + 1 + 1 + 1)
  obtain ⟨w3, he3, h3, hp3⟩ :=
    h2.slotLoop_clean (hp2.trans (BitVec.add_assoc _ _ _)) (by simp) (hlt 2 (by decide)) hc2 (n + 1 + 1)
  obtain ⟨w, he4, h4, hp4⟩ :=
    h3.slotLoop_clean (hp3.trans (BitVec.add_assoc _ _ _)) (by simp) (hlt 3 (by decide)) hc3 (n + 1)
  have hslot : w.dSlot = 4#3 := BitVec.eq_of_toNat_eq h4.dSlot
  have hslots : slotLoop s (decFuel s) (openQuantum r.work) = .ok w := by
    rw [hn, he1, he2, he3, he4, slotLoop, if_pos (by rw [hslot]; decide)]
  have hs := slotLoop_slots ((Nat.le_add_right _ 4).trans hleft) hslots
  have hdlen : w.dDlen = 4#3 := hs.dDlen.trans hslot
  have hend : w.dEnd = r.work.dEnd := by
    rcases hs.stop with ⟨-, hend⟩ | ⟨-, -, hlt⟩
    · exact hend
    · exact absurd (hslot ▸ hlt) (by decide)
  rcases closeQuantum_cases s w r.obuf with ⟨h0, -⟩ | ⟨-, hviol, -⟩ | ⟨-, -, hclose⟩
  · exact absurd (hdlen.symm.trans h0) (by decide)
  · simp [strictViolation, hdlen] at hviol
  · refine ⟨_, by rw [quantum, hslots]; exact hclose, hp4.trans (BitVec.add_assoc _ _ _), ?_, hs.dOlim, hend, ?_⟩ <;>
      simp only [hdlen, hs.dOpos, h4.reassemble] <;> rfl

theorem Run.SameDec.trans {r r' r'' : Run} (h : r.SameDec r') (h' : r'.SameDec r'') : r.SameDec r'' :=
  ⟨h'.dPos.trans h.dPos, h'.dOpos.trans h.dOpos, h'.dOlim.trans h.dOlim, h'.dEnd.trans h.dEnd, h'.obuf.trans h.obuf⟩

theorem SameSource.refl (s : State) : SameSource s s := ⟨⟨rfl, rfl, rfl, rfl, rfl⟩, rfl, fun _ _ => rfl⟩

/-- The decoder with the bulk path and the one without it, side by side (R196). -/
theorem decLoop_bulk_same {s : State} (fuel : Nat) {r r' : Run} (hr : r.SameDec r')
    (hp : r.work.dPos.toNat ≤ s.inlen.toNat) :
    SameOutcome Run.SameDec (decLoop true s fuel r) (decLoop false s fuel r') := by
  induction fuel generalizing r r' with
  | zero => exact .ok hr
  | succ fuel ih =>
    have hq := quantum_same (SameSource.refl s) hr hp
    simp only [decLoop, hr.dPos, hr.dEnd, Bool.true_and, Bool.false_and, Bool.false_eq_true, if_false]
    split
    · rename_i hgo
      cases hready : bulkReady s r.work with
      | true =>
        obtain ⟨hleft, hclean⟩ := bulkReady_left hp hready
        obtain ⟨r1, hr1, hsame⟩ := quantum_of_bulkClean hleft hclean
        rw [hr1] at hq
        generalize quantum s r' = o' at hq
        cases hq with
        | ok hr1' => exact ih (hsame.trans hr1') (bulkGroup_advances hgo.1 hgo.2 hready).dPos_le
      | false =>
        have hle := fun r1 => quantum_dPos_le (s := s) (r := r) (r' := r1) hp
        generalize quantum s r = o at hq hle
        generalize quantum s r' = o' at hq
        cases hq with
        | error e => exact .error e
        | ok hr1 => exact ih hr1 (hle _ rfl)
    · exact .ok hr

theorem decodeRunWith_bulk_same (s : State) : SameOutcome Run.SameDec (decodeRunWith true s) (decodeRunWith false s) :=
  decLoop_bulk_same _ ⟨rfl, rfl, rfl, rfl, rfl⟩ (Nat.zero_le _)

/-! ## The obligations -/

/-- Settles O38: the two engines run side by side (`decodeRunWith_bulk_same`), a bulk group against a quantum over four clean
bytes. -/
theorem bulkPathIsNotObservable : Obligations.BulkPathIsNotObservable := by
  intro s
  have hsame := decodeRunWith_bulk_same s
  generalize decodeRunWith true s = o at hsame
  generalize decodeRunWith false s = o' at hsame
  cases hsame with
  | error e => rfl
  | ok hr => simp only [Except.map, hr.dOpos, hr.obuf]

/-- Settles O39: every pass emits at most what the bytes it consumes allow (`Run.Advances.dOpos_le`), and a failing quantum
emits nothing. -/
theorem decodeKeepsWithinItsOutputBound : Obligations.DecodeKeepsWithinItsOutputBound := by
  intro s fuel
  refine ⟨outputBound_toNat s, fun r h => ?_, fun e h => ?_⟩ <;>
    rcases decLoop_start_cases true s fuel with ⟨r', hr, he⟩ | ⟨r', n, e', hr, hq, he⟩ <;> cases h.symm.trans he
  · exact ⟨hr.dOpos_le_outputBound, hr.dOlim⟩
  · rw [(quantum_error hr.dPos_le hq).dOpos]
    exact hr.dOpos_le_outputBound

/-- Settles O40: each pass advances within the input (`decLoop_one_cases`), so the passes from the start stop within INLEN of
them (`decLoop_start_cases`). -/
theorem decodeConsumesTheWholeInput : Obligations.DecodeConsumesTheWholeInput := by
  intro s
  refine ⟨fun fuel r h => ?_, fun fuel e h => ?_, fun fuel r r' h h' => ?_, fun r h => decodeRunWith_dPos h,
    fun fuel h => decLoop_start_eq_decodeRunWith true s h⟩
  · rcases decLoop_start_cases true s fuel with ⟨r', hr, he⟩ | ⟨-, -, e, -, -, he⟩ <;> cases h.symm.trans he
    exact hr.dPos_le
  · rcases decLoop_start_cases true s fuel with ⟨r, -, he⟩ | ⟨r, n, e', hr, hq, he⟩ <;> cases h.symm.trans he
    exact (quantum_error hr.dPos_le hq).dPos_le
  · rw [decLoop_succ, h] at h'
    rcases decLoop_one_cases true s r with ⟨-, he⟩ | ⟨r1, hadv, he⟩ | ⟨e, -, he⟩ <;> cases Eq.trans (Eq.symm h') he
    · exact Nat.le_refl _
    · exact hadv.dPos_lt.le

end Sys2Proof.Machine
end

section
/-! PROOFS. The decoder family (42_decoder.md), the state machine: the engine computes what the table of R227 computes. A run
that has consumed the symbols `vs` stands where the table stands after them (`afterSymbols`); the slot loop, the padding
and the end of a quantum each lead from one such place to the next. -/

namespace Sys2Proof.Machine

open Sys2Proof.Codec

/-! ## The table of R227 over the rest of the input -/

/-- The state machine over IBUF from index `p` to the end of the input. -/
def fsmFrom (s : State) (p : Nat) (f : Fsm) : Except (ErrCause × Nat) (List Byte) :=
  Fsm.run s p (s.inputFrom p (s.inlen.toNat - p)) f

theorem fsmFrom_zero (s : State) (f : Fsm) : fsmFrom s 0 f = Fsm.run s 0 s.input f := by
  rw [fsmFrom, State.input_eq_inputFrom, Nat.sub_zero]

theorem fsmFrom_end (s : State) (f : Fsm) : fsmFrom s s.inlen.toNat f = f.eoi s s.inlen.toNat := by
  rw [fsmFrom, Nat.sub_self, State.inputFrom_zero, Fsm.run]

/-- The state machine over one byte and the rest. -/
theorem run_cons (s : State) (p : Nat) (b : Byte) (bs : List Byte) (f : Fsm) :
    Fsm.run s p (b :: bs) f = (f.next p (s.classOf b)).bind (Fsm.run s (p + 1) bs) := by
  rw [Fsm.run]
  cases f.next p (s.classOf b) <;> rfl

theorem fsmFrom_of_lt {s : State} {p : Nat} (hp : p < s.inlen.toNat) (f : Fsm) :
    fsmFrom s p f = (f.next p (s.classOf (s.byteAt .ibuf p))).bind (fsmFrom s (p + 1)) := by
  obtain ⟨n, hn⟩ : ∃ n, s.inlen.toNat - p = n + 1 := ⟨s.inlen.toNat - p - 1, by omega⟩
  have hn' : s.inlen.toNat - (p + 1) = n := by omega
  unfold fsmFrom
  rw [hn, hn', State.inputFrom_succ, run_cons]

/-- A line break changes nothing (R203), in every row of the table. -/
theorem next_lb (p : Nat) (f : Fsm) : f.next p .lb = .ok f := by
  obtain ⟨ph, held, lp, out⟩ := f
  cases ph <;> rfl

/-- Skipping line breaks (R206, R208) is no move of the state machine. -/
theorem fsmFrom_skipLb {s : State} {p : Len} (hp : p.toNat ≤ s.inlen.toNat) (f : Fsm) :
    fsmFrom s p.toNat f = fsmFrom s (skipLb s (decFuel s) p).toNat f := by
  obtain ⟨hge, hle, hlb, -⟩ := skipLb_spec s (decFuel s) p hp (decFuel_enough s p).le
  have hskip : ∀ q, p.toNat ≤ q → q ≤ (skipLb s (decFuel s) p).toNat → fsmFrom s p.toNat f = fsmFrom s q f := by
    intro q hq
    induction q, hq using Nat.le_induction with
    | base => exact fun _ => rfl
    | succ q hq ih =>
      intro hqle
      rw [ih (by omega), fsmFrom_of_lt (by omega), hlb q hq (by omega), next_lb]
      rfl
  exact hskip _ hge (Nat.le_refl _)

/-! ## Where the table stands after the symbols -/

/-- Whole groups in front are decoded on their own (R221). -/
theorem bytesOf_append {xs : List Sym} (h : xs.length % 4 = 0) (ys : List Sym) :
    bytesOf (xs ++ ys) = bytesOf xs ++ bytesOf ys := by
  induction xs using bytesOf.induct with
  | case1 s0 s1 s2 s3 rest ih =>
    have hrest : rest.length % 4 = 0 := by
      simp only [List.length_cons] at h
      omega
    simp only [List.cons_append, bytesOf, ih hrest]
  | case2 s0 s1 s2 => simp at h
  | case3 s0 s1 => simp at h
  | case4 s0 => simp at h
  | case5 => rfl

/-- The state machine in row Q0 to Q3 once it has consumed the symbols `vs`, the last at index `lastpos`. -/
def afterSymbols (vs : List Sym) (lastpos : Nat) : Fsm :=
  ⟨.q, tailOf vs, lastpos, bytesOf (vs.take (vs.length / 4 * 4))⟩

/-- Every list of symbols is whole groups and a partial one. -/
theorem exists_groups (vs : List Sym) :
    ∃ xs ys, vs = xs ++ ys ∧ xs.length % 4 = 0 ∧ ys.length = vs.length % 4 := by
  refine ⟨vs.take (vs.length / 4 * 4), tailOf vs, (List.take_append_drop _ _).symm, ?_, ?_⟩
  · rw [List.length_take]
    omega
  · rw [tailOf, List.length_drop]
    omega

theorem tailOf_of_lt {ys : List Sym} (hy : ys.length < 4) : tailOf ys = ys := by
  rw [tailOf, Nat.div_eq_of_lt hy, Nat.zero_mul, List.drop_zero]

section
variable {xs ys : List Sym} (hx : xs.length % 4 = 0)
include hx

theorem tailOf_append (ys : List Sym) : tailOf (xs ++ ys) = tailOf ys := by
  have hlen : (xs ++ ys).length / 4 * 4 = xs.length + ys.length / 4 * 4 := by
    rw [List.length_append]
    omega
  rw [tailOf, hlen, List.drop_append, List.drop_eq_nil_of_le (Nat.le_add_right _ _), List.nil_append,
    Nat.add_sub_cancel_left, tailOf]

theorem afterSymbols_append (hy : ys.length < 4) (lastpos : Nat) :
    afterSymbols (xs ++ ys) lastpos = ⟨.q, ys, lastpos, bytesOf xs⟩ := by
  have hlen : (xs ++ ys).length / 4 * 4 = xs.length := by
    rw [List.length_append]
    omega
  rw [afterSymbols, tailOf_append hx, tailOf_of_lt hy, hlen, List.take_left]

theorem afterSymbols_groups (lastpos : Nat) : afterSymbols xs lastpos = ⟨.q, [], lastpos, bytesOf xs⟩ := by
  have h := afterSymbols_append (ys := []) hx (by decide) lastpos
  rwa [List.append_nil] at h

end

theorem start_eq_afterSymbols : Fsm.start = afterSymbols [] 0 := rfl

/-- One more symbol (R227): the fourth of a group emits it. -/
theorem next_sym (vs : List Sym) (lastpos p : Nat) (v : Sym) :
    (afterSymbols vs lastpos).next p (.sym v) = .ok (afterSymbols (vs ++ [v]) p) := by
  obtain ⟨xs, ys, rfl, hx, hy⟩ := exists_groups vs
  have hylt : ys.length < 4 := hy ▸ Nat.mod_lt _ (by decide)
  rw [afterSymbols_append hx hylt, List.append_assoc]
  by_cases h3 : ys.length = 3
  · have hgroups : (xs ++ (ys ++ [v])).length % 4 = 0 := by
      simp only [List.length_append, List.length_singleton]
      omega
    rw [afterSymbols_groups hgroups, bytesOf_append hx]
    simp only [Fsm.next, h3, if_true]
  · have hlt : (ys ++ [v]).length < 4 := by
      simp only [List.length_append, List.length_singleton]
      omega
    rw [afterSymbols_append hx hlt]
    simp only [Fsm.next, h3, if_false]

/-- The end of the input in rows Q0 to Q3 (R210 to R213). -/
theorem eoi_q (s : State) (n : Nat) (held : List Sym) (lastpos : Nat) (out : List Byte) :
    Fsm.eoi s n ⟨.q, held, lastpos, out⟩
      = if held.length = 1 ∨ (s.padEnabled = true ∧ held.length ≠ 0) then .error (.truncated, n)
        else Fsm.finish s ⟨.q, held, lastpos, out⟩ := by
  by_cases h0 : held.length = 0
  · obtain rfl := List.eq_nil_of_length_eq_zero h0
    simp [Fsm.eoi, Fsm.finish, unusedZero, bytesOf]
  · by_cases h1 : held.length = 1
    · simp [Fsm.eoi, h1]
    · simp only [Fsm.eoi, h0, h1, if_false, false_or, ne_eq, not_false_eq_true, and_true]

/-! ## The slot loop against the table -/

/-- How an outcome of the slot loop, in a quantum after the groups `xs`, stands to an outcome of the state machine: the same
failure, the machine to go on after a full group, or its end with the symbols held. -/
inductive SlotEnd (s : State) (xs : List Sym) : Except DecErr Work → Except (ErrCause × Nat) (List Byte) → Prop where
  | error (e : DecErr) : SlotEnd s xs (.error e) (.error (e.cause, e.trigger.pos.toNat))
  | full {w : Work} {vs : List Sym} (lastpos : Nat) (h : w.Holds vs) (hlen : vs.length = 4) :
      SlotEnd s xs (.ok w) (fsmFrom s w.dPos.toNat (afterSymbols (xs ++ vs) lastpos))
  | ended {w : Work} {vs : List Sym} {lastpos : Nat} (ph : Phase) (h : w.Holds vs) (hlen : vs.length < 4)
      (hlast : vs ≠ [] → lastpos = w.dLastpos.toNat) :
      SlotEnd s xs (.ok w) (Fsm.finish s ⟨ph, vs, lastpos, bytesOf xs⟩)

section
variable {s : State} {xs vs : List Sym} {w : Work} {lastpos : Nat} (hp : w.dPos.toNat ≤ s.inlen.toNat) (hw : w.Holds vs)
  (hlen : vs.length < 4) (hlast : vs ≠ [] → lastpos = w.dLastpos.toNat)
include hp hw hlen hlast

/-- After the final pad byte the machine is in row T (R208). -/
theorem padFinal_slotEnd : SlotEnd s xs (padFinal s w) (fsmFrom s w.dPos.toNat ⟨.t, vs, lastpos, bytesOf xs⟩) := by
  obtain ⟨-, hle, -, hnlb⟩ := skipLb_spec s (decFuel s) w.dPos hp (decFuel_enough s _).le
  rw [fsmFrom_skipLb hp]
  rcases padFinal_cases s w with ⟨hlt, he⟩ | ⟨hge, he⟩ <;> rw [he]
  · rw [fsmFrom_of_lt hlt]
    cases hc : s.classOf (s.byteAt .ibuf (skipLb s (decFuel s) w.dPos).toNat) with
    | lb => exact absurd hc (hnlb hlt)
    | sym v => exact .error _
    | pad => exact .error _
    | bad => exact .error _
  · rw [Nat.le_antisymm hle (Nat.le_of_not_lt hge), fsmFrom_end]
    exact .ended .t ⟨hw.dSlot, hw.dSym⟩ hlen hlast

/-- After the first pad byte of a slot-2 padding the machine is in row P2 (R206). -/
theorem padSecond_slotEnd : SlotEnd s xs (padSecond s w) (fsmFrom s w.dPos.toNat ⟨.p2, vs, lastpos, bytesOf xs⟩) := by
  obtain ⟨-, hle, -, hnlb⟩ := skipLb_spec s (decFuel s) w.dPos hp (decFuel_enough s _).le
  rw [fsmFrom_skipLb hp]
  rcases padSecond_cases s w with ⟨hend, he⟩ | ⟨hne, hnpad, he⟩ | ⟨hne, hpad, he⟩ <;> rw [he]
  · rw [hend, fsmFrom_end]
    exact .error _
  · have hlt := toNat_lt_of_ne hle hne
    rw [fsmFrom_of_lt hlt]
    cases hc : s.classOf (s.byteAt .ibuf (skipLb s (decFuel s) w.dPos).toNat) with
    | lb => exact absurd hc (hnlb hlt)
    | sym v => exact .error _
    | pad => exact absurd hc hnpad
    | bad => exact .error _
  · have hlt := toNat_lt_of_ne hle hne
    have hsucc := toNat_succ_of_lt hlt
    have hc : s.classOf (s.byteAt .ibuf (skipLb s (decFuel s) w.dPos).toNat) = .pad := hpad
    rw [fsmFrom_of_lt hlt, hc, ← hsucc]
    exact padFinal_slotEnd (w := { w with dPos := skipLb s (decFuel s) w.dPos + 1 }) (hsucc.trans_le hlt)
      ⟨hw.dSlot, hw.dSym⟩ hlen hlast

/-- A pad byte at index `p`, already consumed (R205 to R207). -/
theorem onPad_slotEnd (p : Len) :
    SlotEnd s xs (onPad s w p)
      ((Fsm.next p.toNat .pad ⟨.q, vs, lastpos, bytesOf xs⟩).bind (fsmFrom s w.dPos.toNat)) := by
  have hslot := hw.dSlot
  rcases onPad_cases s w p with ⟨hlt, he⟩ | ⟨h2, he⟩ | ⟨h3, he⟩ <;> rw [he]
  · have hheld : vs.length < 2 := hslot ▸ BitVec.lt_def.1 hlt
    simp only [Fsm.next, hheld, if_true]
    exact .error _
  · have hheld : vs.length = 2 := hslot ▸ congrArg BitVec.toNat h2
    simp only [Fsm.next, hheld, Nat.lt_irrefl, if_false, if_true]
    exact padSecond_slotEnd hp hw hlen hlast
  · have hheld : 2 < vs.length := hslot ▸ BitVec.lt_def.1 h3
    simp only [Fsm.next, Nat.not_lt.2 hheld.le, hheld.ne', if_false]
    exact padFinal_slotEnd hp hw hlen hlast

omit hp in
/-- The end of the input inside a quantum (R210 to R213). -/
theorem onExhausted_slotEnd :
    SlotEnd s xs (onExhausted s w) (Fsm.eoi s s.inlen.toNat ⟨.q, vs, lastpos, bytesOf xs⟩) := by
  have hslot : ∀ k : BitVec 3, w.dSlot = k ↔ vs.length = k.toNat := by
    intro k
    rw [← hw.dSlot, BitVec.toNat_inj]
  have h0 := hslot 0#3
  have h1 := hslot 1#3
  simp only [BitVec.toNat_ofNat] at h0 h1
  rw [eoi_q]
  rcases onExhausted_cases s w with ⟨hs, he⟩ | ⟨hs, hcause, he⟩ | ⟨hs, hs1, hpad, he⟩ <;> rw [he]
  · rw [if_neg (by simp [h0.1 hs])]
    exact .ended .q ⟨hw.dSlot, hw.dSym⟩ hlen hlast
  · rw [if_pos (hcause.imp h1.1 fun hpad => ⟨hpad, mt h0.2 hs⟩)]
    exact .error _
  · rw [if_neg (by simp [mt h1.2 hs1, hpad])]
    exact .ended .q ⟨hw.dSlot, hw.dSym⟩ hlen hlast

end

/-- The slot loop does what the table does (R201, R227). -/
theorem slotLoop_slotEnd {s : State} {xs vs : List Sym} (hx : xs.length % 4 = 0) {fuel : Nat} {w : Work} {lastpos : Nat}
    (hp : w.dPos.toNat ≤ s.inlen.toNat) (hf : s.inlen.toNat - w.dPos.toNat < fuel) (hw : w.Holds vs)
    (hlen : vs.length ≤ 4) (hlast : vs ≠ [] → lastpos = w.dLastpos.toNat) :
    SlotEnd s xs (slotLoop s fuel w) (fsmFrom s w.dPos.toNat (afterSymbols (xs ++ vs) lastpos)) := by
  refine slotLoop_induction
    (P := fun w o => ∀ vs lastpos, w.Holds vs → (vs ≠ [] → lastpos = w.dLastpos.toNat) →
      SlotEnd s xs o (fsmFrom s w.dPos.toNat (afterSymbols (xs ++ vs) lastpos)))
    ?full ?exhausted ?sym ?lb ?bad ?pad hp (hw.dSlot.trans_le hlen) hf vs lastpos hw hlast
  case full => exact fun w h4 _ vs lastpos hw _ => .full lastpos hw (hw.dSlot.symm.trans h4)
  case exhausted =>
    intro w hs hpe vs lastpos hw hlast
    have hlen := hw.dSlot.symm.trans_lt hs
    rw [hpe, fsmFrom_end, afterSymbols_append hx hlen]
    exact onExhausted_slotEnd hw hlen hlast
  case sym =>
    intro w v o hs hlt hc ih vs lastpos hw _
    have hc' : s.classOf (s.byteAt .ibuf w.dPos.toNat) = .sym v := hc
    have hw' : Work.Holds { w with dPos := w.dPos + 1 } vs := ⟨hw.dSlot, hw.dSym⟩
    rw [fsmFrom_of_lt hlt, hc', next_sym, List.append_assoc, ← toNat_succ_of_lt hlt]
    exact ih _ _ (hw'.store (hw.dSlot.symm.trans_lt hs) v w.dPos) fun _ => rfl
  case lb =>
    intro w o hlt hc ih vs lastpos hw hlast
    have hc' : s.classOf (s.byteAt .ibuf w.dPos.toNat) = .lb := hc
    rw [fsmFrom_of_lt hlt, hc', next_lb, ← toNat_succ_of_lt hlt]
    exact ih vs lastpos ⟨hw.dSlot, hw.dSym⟩ hlast
  case bad =>
    intro w hs hlt hc vs lastpos hw _
    have hc' : s.classOf (s.byteAt .ibuf w.dPos.toNat) = .bad := hc
    rw [fsmFrom_of_lt hlt, hc', afterSymbols]
    exact .error _
  case pad =>
    intro w hs hlt hc vs lastpos hw hlast
    have hc' : s.classOf (s.byteAt .ibuf w.dPos.toNat) = .pad := hc
    have hlen := hw.dSlot.symm.trans_lt hs
    have hsucc := toNat_succ_of_lt hlt
    rw [fsmFrom_of_lt hlt, hc', afterSymbols_append hx hlen, ← hsucc]
    exact onPad_slotEnd (w := { w with dPos := w.dPos + 1 }) (hsucc.trans_le hlt) ⟨hw.dSlot, hw.dSym⟩ hlen hlast w.dPos

/-! ## The end of a quantum against the table -/

/-- The emitted bytes and the strict check of a quantum of 2 to 4 symbols, as R227 has them (R220 to R222). -/
theorem emitted_of_holds {s : State} {w : Work} {vs : List Sym} (h : w.Holds vs) (hdlen : w.dDlen = w.dSlot)
    (h2 : 2 ≤ vs.length) (h4 : vs.length ≤ 4) :
    emitted w.dDlen (reassemble w) = bytesOf vs
      ∧ (strictViolation s w.dDlen (reassemble w) = true ↔ s.strict = true ∧ unusedZero vs = false) := by
  have hlen : w.dDlen.toNat = vs.length := hdlen ▸ h.dSlot
  rw [h.reassemble]
  match vs, h2, h4 with
  | [s0, s1], _, _ =>
    have hd : w.dDlen = 2#3 := BitVec.eq_of_toNat_eq hlen
    simpa [hd, emitted, bytesOf, groupByte_packSyms_0, strictViolation, unusedZero]
      using fun _ : s.strict = true => not_congr (packSyms_low16 s0 s1)
  | [s0, s1, s2], _, _ =>
    have hd : w.dDlen = 3#3 := BitVec.eq_of_toNat_eq hlen
    simpa [hd, emitted, bytesOf, groupByte_packSyms_0, groupByte_packSyms_1, strictViolation, unusedZero]
      using fun _ : s.strict = true => not_congr (packSyms_low8 s0 s1 s2)
  | [s0, s1, s2, s3], _, _ =>
    have hd : w.dDlen = 4#3 := BitVec.eq_of_toNat_eq hlen
    simp [hd, emitted, bytesOf, groupByte_packSyms_0, groupByte_packSyms_1, groupByte_packSyms_2, strictViolation,
      unusedZero]

/-- The end of a quantum in the terms of R227: a strict violation, or the bytes of the symbols held written at D_OPOS. -/
theorem closeQuantum_of_holds {s : State} {w : Work} {vs : List Sym} (h : w.Holds vs) (hdlen : w.dDlen = w.dSlot)
    (h1 : w.dSlot ≠ 1#3) (h4 : vs.length ≤ 4) (m : Mem) :
    ((s.strict = true ∧ unusedZero vs = false)
        ∧ closeQuantum s w m = .error (decErr s { w with dAcc := reassemble w } .noncanonical w.dLastpos))
      ∨ (¬(s.strict = true ∧ unusedZero vs = false) ∧ ∃ r', closeQuantum s w m = .ok r'
        ∧ r'.obuf = Mem.writeBytes m w.dOpos.toNat (bytesOf vs)
        ∧ r'.work.dOpos = w.dOpos + BitVec.ofNat 32 (bytesOf vs).length
        ∧ r'.work.dPos = w.dPos ∧ r'.work.dEnd = w.dEnd) := by
  have hslot := h.dSlot
  have htwo : w.dDlen ≠ 0#3 → 2 ≤ vs.length := by
    rw [hdlen]
    bv_omega
  rcases closeQuantum_cases s w m with ⟨h0, hc⟩ | ⟨h0, hv, hc⟩ | ⟨h0, hv, hc⟩
  · obtain rfl : vs = [] := List.eq_nil_of_length_eq_zero (by rw [← hslot, ← hdlen, h0]; rfl)
    exact .inr ⟨by simp [unusedZero], _, hc, rfl, (BitVec.add_zero _).symm, rfl, rfl⟩
  · obtain ⟨-, hviol⟩ := emitted_of_holds (s := s) h hdlen (htwo h0) h4
    exact .inl ⟨hviol.1 hv, hc⟩
  · obtain ⟨hbytes, hviol⟩ := emitted_of_holds (s := s) h hdlen (htwo h0) h4
    rw [hbytes] at hc
    exact .inr ⟨fun hs => absurd (hv.symm.trans (hviol.2 hs)) Bool.false_ne_true, _, hc, rfl, rfl, rfl, rfl⟩

/-- ⌊n × 6 / 8⌋ bytes from `n` symbols (R221). -/
theorem length_bytesOf (vs : List Sym) : (bytesOf vs).length = vs.length * 6 / 8 := by
  induction vs using bytesOf.induct with
  | case1 s0 s1 s2 s3 rest ih =>
    simp only [bytesOf, List.length_cons, ih]
    omega
  | case2 s0 s1 s2 => simp [bytesOf]
  | case3 s0 s1 => simp [bytesOf]
  | case4 s0 => simp [bytesOf]
  | case5 => rfl

/-- A full group has no unused bits (R222). -/
theorem unusedZero_of_length_eq_four {vs : List Sym} (h : vs.length = 4) : unusedZero vs = true := by
  match vs, h with
  | [_, _, _, _], _ => rfl

/-- A run that has written the bytes `bs` and nothing else. -/
structure Run.Wrote (r : Run) (bs : List Byte) : Prop where
  obuf : r.obuf = Mem.writeBytes [] 0 bs
  dOpos : r.work.dOpos.toNat = bs.length

/-- More bytes written at D_OPOS, where that does not wrap. -/
theorem Run.Wrote.emit {r r' : Run} {bs cs : List Byte} (hr : r.Wrote bs)
    (hobuf : r'.obuf = Mem.writeBytes r.obuf r.work.dOpos.toNat cs)
    (hopos : r'.work.dOpos = r.work.dOpos + BitVec.ofNat 32 cs.length) (hfit : bs.length + cs.length < 2 ^ 32) :
    r'.Wrote (bs ++ cs) where
  obuf := by rw [hobuf, hr.dOpos, hr.obuf, Mem.writeBytes_append, Nat.zero_add]
  dOpos := by
    rw [hopos, toNat_add_of_lt (by rwa [hr.dOpos]), hr.dOpos, List.length_append]

/-- How an outcome of a quantum stands to an outcome of the state machine: the same failure, the machine to go on after whole
groups, or its end with the bytes written. -/
inductive QuantumEnd (s : State) : Except DecErr Run → Except (ErrCause × Nat) (List Byte) → Prop where
  | error (e : DecErr) : QuantumEnd s (.error e) (.error (e.cause, e.trigger.pos.toNat))
  | next {r : Run} {xs : List Sym} (lastpos : Nat) (hx : xs.length % 4 = 0) (hr : r.Wrote (bytesOf xs))
      (hend : r.work.dEnd = false) :
      QuantumEnd s (.ok r) (fsmFrom s r.work.dPos.toNat (afterSymbols xs lastpos))
  | ended {r : Run} {bs : List Byte} (hr : r.Wrote bs) (hend : r.work.dEnd = true) : QuantumEnd s (.ok r) (.ok bs)

/-- The bytes of the symbols that a quantum holds, written after those of the groups before it. -/
theorem Run.Slots.wrote {s : State} {r r' : Run} {w : Work} {xs vs : List Sym} (hs : r.Slots s w)
    (hx : xs.length % 4 = 0) (hr : r.Wrote (bytesOf xs)) (hin : r.WithinInput s) (hw : w.Holds vs)
    (hobuf : r'.obuf = Mem.writeBytes r.obuf w.dOpos.toNat (bytesOf vs))
    (hopos : r'.work.dOpos = w.dOpos + BitVec.ofNat 32 (bytesOf vs).length) : r'.Wrote (bytesOf (xs ++ vs)) := by
  rw [hs.dOpos] at hobuf hopos
  rw [bytesOf_append hx]
  refine hr.emit hobuf hopos ?_
  have hwritten := hr.dOpos
  have hbound := hin.dOpos_le
  have hheld := hw.dSlot
  have hconsumed := hs.consumed
  have hle := hs.dPos_le
  have hinlen := s.inlen.isLt
  rw [length_bytesOf vs]
  omega

/-- A quantum does what the table does (R201, R227). -/
theorem quantum_quantumEnd {s : State} {r : Run} {xs : List Sym} (hx : xs.length % 4 = 0) (hr : r.Wrote (bytesOf xs))
    (hin : r.WithinInput s) (hgo : r.work.dEnd = false) (lastpos : Nat) :
    QuantumEnd s (quantum s r) (fsmFrom s r.work.dPos.toNat (afterSymbols xs lastpos)) := by
  have hslots := slotLoop_slotEnd (w := openQuantum r.work) (vs := []) (lastpos := lastpos) hx hin.dPos_le
    (decFuel_enough s _) (openQuantum_holds _) (Nat.zero_le _) (fun hne => absurd rfl hne)
  rw [List.append_nil] at hslots
  change SlotEnd s xs _ (fsmFrom s r.work.dPos.toNat _) at hslots
  rcases quantum_cases s r with ⟨e, hloop, he⟩ | ⟨w, hloop, he⟩ <;> rw [he] <;> rw [hloop] at hslots
  · generalize fsmFrom s r.work.dPos.toNat (afterSymbols xs lastpos) = m at hslots
    cases hslots
    exact .error e
  have hs := slotLoop_slots hin.dPos_le hloop
  generalize fsmFrom s r.work.dPos.toNat (afterSymbols xs lastpos) = m at hslots
  cases hslots with
  | @full _ vs last hw hlen =>
    have hzero := unusedZero_of_length_eq_four hlen
    have hfull : w.dEnd = false := by
      rcases hs.stop with ⟨-, hsame⟩ | ⟨-, -, hlt⟩
      · exact hsame.trans hgo
      · exact absurd (hlen ▸ hw.dSlot ▸ BitVec.lt_def.1 hlt) (by decide)
    rcases closeQuantum_of_holds (s := s) hw hs.dDlen hs.dSlot_ne_one hlen.le r.obuf
      with ⟨⟨-, hviol⟩, -⟩ | ⟨-, r', hc, hobuf, hopos, hpos, hend⟩
    · exact absurd (hzero.symm.trans hviol) Bool.false_ne_true.symm
    · rw [hc, ← hpos]
      exact .next last (by rw [List.length_append]; omega) (hs.wrote hx hr hin hw hobuf hopos) (hend.trans hfull)
  | @ended _ vs last ph hw hlen hlast =>
    have hended : w.dEnd = true := by
      rcases hs.stop with ⟨h4, -⟩ | ⟨-, he, -⟩
      · exact absurd (hw.dSlot ▸ congrArg BitVec.toNat h4) hlen.ne
      · exact he
    rcases closeQuantum_of_holds (s := s) hw hs.dDlen hs.dSlot_ne_one hlen.le r.obuf
      with ⟨hviol, hc⟩ | ⟨hviol, r', hc, hobuf, hopos, -, hend⟩
    · have hne : vs ≠ [] := fun hnil => by simp [hnil, unusedZero] at hviol
      rw [hc, Fsm.finish, if_pos hviol, hlast hne]
      exact .error _
    · rw [hc, Fsm.finish, if_neg hviol, ← bytesOf_append hx]
      exact .ended (hs.wrote hx hr hin hw hobuf hopos) (hend.trans hended)

/-! ## The engine against the table -/

/-- How an outcome of the engine stands to an outcome of the state machine: the same failure, or the bytes written. -/
inductive Agrees : Except DecErr Run → Except (ErrCause × Nat) (List Byte) → Prop where
  | error (e : DecErr) : Agrees (.error e) (.error (e.cause, e.trigger.pos.toNat))
  | ok {r : Run} {bs : List Byte} (h : r.Wrote bs) : Agrees (.ok r) (.ok bs)

/-- Where the loop has consumed the input, the table ends in row Q0. -/
theorem agrees_of_stopped {s : State} {r : Run} {xs : List Sym} (hx : xs.length % 4 = 0) (hr : r.Wrote (bytesOf xs))
    (hin : r.WithinInput s) (hgo : r.work.dEnd = false) (hstop : r.Stopped s) (fuel lastpos : Nat) :
    Agrees (decLoop false s fuel r) (fsmFrom s r.work.dPos.toNat (afterSymbols xs lastpos)) := by
  have hpos : r.work.dPos.toNat = s.inlen.toNat :=
    Nat.le_antisymm hin.dPos_le (Nat.le_of_not_lt fun hlt => hstop ⟨hlt, hgo⟩)
  rw [decLoop_of_stopped hstop, hpos, fsmFrom_end, afterSymbols_groups hx]
  exact .ok hr

/-- The quantum path does what the table does, with passes enough. -/
theorem decLoop_agrees {s : State} {fuel : Nat} {r : Run} {xs : List Sym} (hx : xs.length % 4 = 0)
    (hr : r.Wrote (bytesOf xs)) (hin : r.WithinInput s) (hgo : r.work.dEnd = false)
    (hf : s.inlen.toNat - r.work.dPos.toNat ≤ fuel) (lastpos : Nat) :
    Agrees (decLoop false s fuel r) (fsmFrom s r.work.dPos.toNat (afterSymbols xs lastpos)) := by
  induction fuel generalizing r xs lastpos with
  | zero => exact agrees_of_stopped hx hr hin hgo (fun hc => by omega) 0 lastpos
  | succ fuel ih =>
    have hquantum := quantum_quantumEnd hx hr hin hgo lastpos
    rcases decLoop_succ_cases false s fuel r with ⟨hstop, -⟩ | ⟨-, -, hb, -⟩ | ⟨-, -, -, e, hq, he⟩
      | ⟨hp, -, -, r', hq, he⟩
    · exact agrees_of_stopped hx hr hin hgo hstop _ lastpos
    · exact absurd hb Bool.false_ne_true
    · rw [he]
      rw [hq] at hquantum
      generalize fsmFrom s r.work.dPos.toNat (afterSymbols xs lastpos) = m at hquantum
      cases hquantum
      exact .error e
    · rw [he]
      rw [hq] at hquantum
      generalize fsmFrom s r.work.dPos.toNat (afterSymbols xs lastpos) = m at hquantum
      cases hquantum with
      | next last hx' hr' hgo' =>
        have hlt := (quantum_advances hp hgo hq).dPos_lt
        exact ih hx' hr' (quantum_withinInput hin hq) hgo' (by omega) last
      | ended hr' hend =>
        rw [decLoop_of_stopped fun hc => Bool.false_ne_true (hc.2.symm.trans hend)]
        exact .ok hr'

/-- DECODE's engine, bulk path and all, computes what the state machine computes (R196, R227). -/
theorem decodeRun_agrees (s : State) : Agrees (decodeRun s) (Fsm.run s 0 s.input Fsm.start) := by
  have hquantum : Agrees (decodeRunWith false s) (Fsm.run s 0 s.input Fsm.start) := by
    rw [start_eq_afterSymbols, ← fsmFrom_zero]
    exact decLoop_agrees (r := decStart s) (xs := []) rfl ⟨rfl, rfl⟩
      ⟨Nat.zero_le _, Nat.le_refl _, fun _ hc => absurd hc List.not_mem_nil⟩ rfl (decFuel_enough s _).le 0
  have hbulk := decodeRunWith_bulk_same s
  rw [decodeRun]
  generalize decodeRunWith true s = o at hbulk
  generalize decodeRunWith false s = o' at hbulk hquantum
  generalize Fsm.run s 0 s.input Fsm.start = m at hquantum
  cases hbulk with
  | error e =>
    cases hquantum
    exact .error e
  | ok hsame =>
    cases hquantum with
    | ok hr => exact .ok ⟨hsame.obuf.symm.trans hr.obuf, hsame.dOpos ▸ hr.dOpos⟩

/-- Settles O37: the quantum path follows the table (`decLoop_agrees`), and the bulk path is a quantum. -/
theorem decodeIsTheStateMachine : Obligations.DecodeIsTheStateMachine := by
  intro s
  have h := decodeRun_agrees s
  generalize decodeRun s = o at h
  generalize Fsm.run s 0 s.input Fsm.start = m at h
  cases h with
  | error e => rfl
  | ok hr => exact congrArg Except.ok hr.obuf

end Sys2Proof.Machine
end

section
/-! PROOFS. The decoder family (42_decoder.md), the outcomes of DECODE: what the state machine decides from the classes of the
input alone, line breaks left out (`decodeVerdict`), worked out for each form of input, and what DECODE leaves for it. -/

namespace Sys2Proof.Machine

open Sys2Proof.Codec

/-! ## The state machine over the significant classes -/

/-- The table of R227 over classes alone: the cause without its position, or the output bytes. -/
def classRun (s : State) : List ByteClass → Fsm → Except ErrCause (List Byte)
  | [], f => (f.eoi s 0).mapError Prod.fst
  | c :: cs, f => ((f.next 0 c).mapError Prod.fst).bind (classRun s cs)

/-- What the table decides for the input: its cause, or its output bytes. -/
def decodeVerdict (s : State) : Except ErrCause (List Byte) := classRun s (significant s s.input) Fsm.start

/-- The row, the symbols held and the output of the state machine, without the last symbol's index. -/
def unplaced (f : Fsm) : Fsm := { f with lastpos := 0 }

/-- The index of a byte decides nothing but a position (R227). -/
theorem next_unplaced (p : Nat) (c : ByteClass) (f : Fsm) :
    (Fsm.next 0 c (unplaced f)).mapError Prod.fst = ((f.next p c).mapError Prod.fst).map unplaced := by
  obtain ⟨ph, held, lp, out⟩ := f
  cases ph with
  | q =>
    cases c with
    | sym v => by_cases h3 : held.length = 3 <;> simp [Fsm.next, unplaced, h3, Except.map, Except.mapError]
    | lb => rfl
    | pad =>
      by_cases h2 : held.length < 2
      · simp [Fsm.next, unplaced, h2, Except.map, Except.mapError]
      · by_cases he : held.length = 2 <;> simp [Fsm.next, unplaced, h2, he, Except.map, Except.mapError]
    | bad => rfl
  | p2 => cases c <;> rfl
  | t => cases c <;> rfl

theorem eoi_unplaced (s : State) (n : Nat) (f : Fsm) :
    (Fsm.eoi s 0 (unplaced f)).mapError Prod.fst = (f.eoi s n).mapError Prod.fst := by
  obtain ⟨ph, held, lp, out⟩ := f
  have hfinish : ∀ ph, (Fsm.finish s ⟨ph, held, 0, out⟩).mapError Prod.fst
      = (Fsm.finish s ⟨ph, held, lp, out⟩).mapError Prod.fst := by
    intro ph
    unfold Fsm.finish
    split <;> rfl
  cases ph with
  | q =>
    rw [unplaced, eoi_q, eoi_q]
    split
    · rfl
    · exact hfinish .q
  | p2 => rfl
  | t => exact hfinish .t

theorem significant_cons (s : State) (b : Byte) (bs : List Byte) :
    significant s (b :: bs)
      = if s.classOf b = .lb then significant s bs else s.classOf b :: significant s bs := by
  simp only [significant, List.map_cons, List.filter_cons]
  split <;> simp_all

theorem lb_notMem_significant (s : State) (bs : List Byte) : ByteClass.lb ∉ significant s bs := by
  simp [significant]

/-- The state machine sees the significant classes only, its positions aside (R203). -/
theorem run_mapError (s : State) (p : Nat) (bs : List Byte) (f : Fsm) :
    (Fsm.run s p bs f).mapError Prod.fst = classRun s (significant s bs) (unplaced f) := by
  induction bs generalizing p f with
  | nil => exact (eoi_unplaced s p f).symm
  | cons b bs ih =>
    rw [run_cons, significant_cons]
    split
    · rename_i hlb
      rw [hlb, next_lb]
      exact ih (p + 1) f
    · rw [classRun, next_unplaced p]
      cases f.next p (s.classOf b) with
      | error e => rfl
      | ok f' => exact ih (p + 1) f'

theorem run_start_mapError (s : State) :
    (Fsm.run s 0 s.input Fsm.start).mapError Prod.fst = decodeVerdict s := run_mapError s 0 s.input Fsm.start

/-! ## The verdict on each form of input -/

theorem length_tailOf (vs : List Sym) : (tailOf vs).length = vs.length % 4 := by
  rw [tailOf, List.length_drop]
  omega

theorem bytesOf_groups_append_tailOf (vs : List Sym) :
    bytesOf (vs.take (vs.length / 4 * 4)) ++ bytesOf (tailOf vs) = bytesOf vs := by
  have hgroups : (vs.take (vs.length / 4 * 4)).length % 4 = 0 := by
    rw [List.length_take]
    omega
  rw [← bytesOf_append hgroups, tailOf, List.take_append_drop]

/-- The end of a DECODE with the symbols `vs` (R222): the strict check, then the bytes. -/
def finishVerdict (s : State) (vs : List Sym) : Except ErrCause (List Byte) :=
  if s.strict = true ∧ unusedZero (tailOf vs) = false then .error .noncanonical else .ok (bytesOf vs)

/-- Finishing in any row, once the symbols `vs` are consumed. -/
theorem finish_afterSymbols (s : State) (vs : List Sym) (ph : Phase) :
    (Fsm.finish s { afterSymbols vs 0 with phase := ph }).mapError Prod.fst = finishVerdict s vs := by
  simp only [Fsm.finish, finishVerdict, afterSymbols, bytesOf_groups_append_tailOf]
  split <;> rfl

/-- The end of the input in rows Q0 to Q3 (R210 to R213). -/
theorem classRun_nil (s : State) (vs : List Sym) :
    classRun s [] (afterSymbols vs 0)
      = if vs.length % 4 = 1 ∨ (s.padEnabled = true ∧ vs.length % 4 ≠ 0) then .error .truncated
        else finishVerdict s vs := by
  rw [classRun, ← finish_afterSymbols s vs .q, afterSymbols, eoi_q, length_tailOf]
  split <;> rfl

/-- A pad byte in rows Q0 to Q3 (R205 to R207). -/
theorem classRun_pad (s : State) (vs : List Sym) (cs : List ByteClass) :
    classRun s (.pad :: cs) (afterSymbols vs 0)
      = if vs.length % 4 < 2 then .error .padEarly
        else if vs.length % 4 = 2 then classRun s cs { afterSymbols vs 0 with phase := .p2 }
        else classRun s cs { afterSymbols vs 0 with phase := .t } := by
  simp only [classRun, Fsm.next, afterSymbols, length_tailOf]
  split_ifs <;> rfl

/-- The symbols at the front of the input (R202). -/
theorem classRun_symbols (s : State) (ws vs : List Sym) (cs : List ByteClass) :
    classRun s (vs.map ByteClass.sym ++ cs) (afterSymbols ws 0) = classRun s cs (afterSymbols (ws ++ vs) 0) := by
  induction vs generalizing ws with
  | nil => rw [List.map_nil, List.nil_append, List.append_nil]
  | cons v vs ih =>
    rw [List.map_cons, List.cons_append, classRun, next_sym]
    exact (ih (ws ++ [v])).trans (by rw [List.append_assoc, List.singleton_append])

/-- The verdict on an input whose significant classes start with the symbols `vs`. -/
theorem decodeVerdict_of_symbols {s : State} {vs : List Sym} {cs : List ByteClass}
    (h : significant s s.input = vs.map ByteClass.sym ++ cs) : decodeVerdict s = classRun s cs (afterSymbols vs 0) := by
  rw [decodeVerdict, h, start_eq_afterSymbols, classRun_symbols, List.nil_append]

/-! ### After a pad byte -/

/-- Row P2 (R206): without a second pad byte next the padding is incomplete. -/
theorem classRun_p2_of_no_pad (s : State) (vs : List Sym) {cs : List ByteClass} (hlb : ByteClass.lb ∉ cs)
    (hpad : cs.head? ≠ some .pad) :
    classRun s cs { afterSymbols vs 0 with phase := .p2 } = .error .padIncomplete := by
  cases cs with
  | nil => rfl
  | cons c cs =>
    cases c with
    | lb => exact absurd List.mem_cons_self hlb
    | pad => exact absurd rfl hpad
    | sym v => rfl
    | bad => rfl

theorem classRun_p2_pad (s : State) (vs : List Sym) (cs : List ByteClass) :
    classRun s (.pad :: cs) { afterSymbols vs 0 with phase := .p2 }
      = classRun s cs { afterSymbols vs 0 with phase := .t } := rfl

theorem classRun_t_nil (s : State) (vs : List Sym) :
    classRun s [] { afterSymbols vs 0 with phase := .t } = finishVerdict s vs := finish_afterSymbols s vs .t

/-- Row T (R208): whatever follows that is no line break is trailing data. -/
theorem classRun_t_cons (s : State) (vs : List Sym) {c : ByteClass} (hc : c ≠ .lb) (cs : List ByteClass) :
    classRun s (c :: cs) { afterSymbols vs 0 with phase := .t } = .error .trailingData := by
  cases c with
  | lb => exact absurd rfl hc
  | sym v => rfl
  | pad => rfl
  | bad => rfl

/-! ### The forms of the input -/

section
variable {s : State} {vs : List Sym}

theorem decodeVerdict_of_pad_early {cs : List ByteClass}
    (h : significant s s.input = vs.map ByteClass.sym ++ .pad :: cs) (hlen : vs.length % 4 < 2) :
    decodeVerdict s = .error .padEarly := by
  rw [decodeVerdict_of_symbols h, classRun_pad, if_pos hlen]

theorem decodeVerdict_of_pad_at_two {cs : List ByteClass}
    (h : significant s s.input = vs.map ByteClass.sym ++ .pad :: cs) (hlen : vs.length % 4 = 2) :
    decodeVerdict s = classRun s cs { afterSymbols vs 0 with phase := .p2 } := by
  rw [decodeVerdict_of_symbols h, classRun_pad, if_neg (by omega), if_pos hlen]

theorem decodeVerdict_of_pad_at_three {cs : List ByteClass}
    (h : significant s s.input = vs.map ByteClass.sym ++ .pad :: cs) (hlen : vs.length % 4 = 3) :
    decodeVerdict s = classRun s cs { afterSymbols vs 0 with phase := .t } := by
  rw [decodeVerdict_of_symbols h, classRun_pad, if_neg (by omega), if_neg (by omega)]

theorem decodeVerdict_of_no_pad (h : significant s s.input = vs.map ByteClass.sym) :
    decodeVerdict s
      = if vs.length % 4 = 1 ∨ (s.padEnabled = true ∧ vs.length % 4 ≠ 0) then .error .truncated
        else finishVerdict s vs := by
  rw [decodeVerdict_of_symbols (h.trans (List.append_nil _).symm), classRun_nil]

/-- An input of a form R229 allows is read to its end. -/
theorem decodeVerdict_of_hasForm (h : HasForm s s.input vs) : decodeVerdict s = finishVerdict s vs := by
  obtain ⟨k, hsig, ⟨hmod, rfl⟩ | ⟨-, ⟨hmod, rfl⟩ | ⟨hmod, rfl⟩⟩ | ⟨hpad, hmod, rfl⟩⟩ := h
  · rw [decodeVerdict_of_no_pad (by simpa using hsig), if_neg (by omega)]
  · rw [decodeVerdict_of_pad_at_two hsig hmod]
    exact classRun_t_nil s vs
  · rw [decodeVerdict_of_pad_at_three hsig hmod]
    exact classRun_t_nil s vs
  · rw [decodeVerdict_of_no_pad (by simpa using hsig), if_neg (by simp [hpad]; omega)]

end

theorem finishVerdict_eq_ok {s : State} {vs : List Sym} {bs : List Byte} (h : finishVerdict s vs = .ok bs) :
    s.strict = true → unusedZero (tailOf vs) = true := by
  unfold finishVerdict at h
  split at h
  · cases h
  · rename_i hviol
    exact fun hstrict => Bool.eq_true_of_not_eq_false fun hc => hviol ⟨hstrict, hc⟩

/-- In row T the table accepts at the end of the input only. -/
theorem eq_nil_of_classRun_t_eq_ok {s : State} {vs : List Sym} {cs : List ByteClass} (hlb : ByteClass.lb ∉ cs)
    {bs : List Byte} (h : classRun s cs { afterSymbols vs 0 with phase := .t } = .ok bs) :
    cs = [] ∧ finishVerdict s vs = .ok bs := by
  cases cs with
  | nil => exact ⟨rfl, (classRun_t_nil s vs).symm.trans h⟩
  | cons c cs =>
    rw [classRun_t_cons s vs (fun hc => hlb (hc ▸ List.mem_cons_self))] at h
    cases h

/-- Only a form of R229 is read to its end: what must follow the symbols `ws` when the table accepts. -/
theorem form_of_classRun_eq_ok {s : State} {cs : List ByteClass} (hlb : ByteClass.lb ∉ cs)
    (hpad : ByteClass.pad ∈ cs → s.padEnabled = true) {ws : List Sym} {bs : List Byte}
    (h : classRun s cs (afterSymbols ws 0) = .ok bs) :
    ∃ vs k, cs = vs.map ByteClass.sym ++ List.replicate k ByteClass.pad
      ∧ tailAllowed s.padEnabled (ws ++ vs).length k
      ∧ (s.strict = true → unusedZero (tailOf (ws ++ vs)) = true) := by
  induction cs generalizing ws with
  | nil =>
    rw [classRun_nil] at h
    split at h
    · cases h
    · rename_i hcause
      refine ⟨[], 0, rfl, ?_, by rw [List.append_nil]; exact finishVerdict_eq_ok h⟩
      rw [List.append_nil]
      cases hp : s.padEnabled with
      | true =>
        simp only [hp, true_and] at hcause
        exact .inl ⟨by omega, rfl⟩
      | false =>
        by_cases h0 : ws.length % 4 = 0
        · exact .inl ⟨h0, rfl⟩
        · exact .inr (.inr ⟨rfl, by omega, rfl⟩)
  | cons c cs ih =>
    have hlb' : ByteClass.lb ∉ cs := fun hc => hlb (List.mem_cons_of_mem _ hc)
    cases c with
    | sym v =>
      have h' : classRun s cs (afterSymbols (ws ++ [v]) 0) = .ok bs := (classRun_symbols s ws [v] cs).symm.trans h
      obtain ⟨vs, k, rfl, hform⟩ := ih hlb' (fun hc => hpad (List.mem_cons_of_mem _ hc)) h'
      rw [List.append_assoc] at hform
      exact ⟨v :: vs, k, rfl, hform⟩
    | lb => exact absurd List.mem_cons_self hlb
    | bad => cases h
    | pad =>
      have hp := hpad List.mem_cons_self
      rw [classRun_pad] at h
      split_ifs at h with hlt h2
      · by_cases hnext : cs.head? = some .pad
        · obtain ⟨cs, rfl⟩ := List.head?_eq_some_iff.1 hnext
          obtain ⟨rfl, hfinish⟩ := eq_nil_of_classRun_t_eq_ok (fun hc => hlb' (List.mem_cons_of_mem _ hc)) h
          refine ⟨[], 2, rfl, ?_, ?_⟩ <;> rw [List.append_nil]
          · exact .inr (.inl ⟨hp, .inl ⟨h2, rfl⟩⟩)
          · exact finishVerdict_eq_ok hfinish
        · rw [classRun_p2_of_no_pad s ws hlb' hnext] at h
          cases h
      · obtain ⟨rfl, hfinish⟩ := eq_nil_of_classRun_t_eq_ok hlb' h
        refine ⟨[], 1, rfl, ?_, ?_⟩ <;> rw [List.append_nil]
        · exact .inr (.inl ⟨hp, .inr ⟨by omega, rfl⟩⟩)
        · exact finishVerdict_eq_ok hfinish

theorem padEnabled_of_pad_mem_significant {s : State} {bs : List Byte} (h : ByteClass.pad ∈ significant s bs) :
    s.padEnabled = true := by
  obtain ⟨b, -, hb⟩ := List.mem_map.1 (List.mem_filter.1 h).1
  obtain ⟨-, -, hpad, -⟩ := classOf_eq_pad_iff.1 hb
  exact (padEnabled_iff s).2 hpad

/-- The table accepts nothing outside the language (R229). -/
theorem accepted_of_decodeVerdict_eq_ok {s : State} {bs : List Byte} (h : decodeVerdict s = .ok bs) :
    ∃ vs, Accepted s s.input vs := by
  obtain ⟨vs, k, hsig, hallowed, hstrict⟩ :=
    form_of_classRun_eq_ok (ws := []) (lb_notMem_significant s s.input) padEnabled_of_pad_mem_significant h
  exact ⟨vs, ⟨k, hsig, hallowed⟩, hstrict⟩

/-! ## What DECODE leaves for a verdict -/

section
variable {s : State} (hadm : s.Admitted)
include hadm

/-- An admitted DECODE (R190): the failure of the state machine, or its bytes written. -/
theorem exec_decode_of_admitted :
    (∃ e : DecErr, decodeRun s = .error e ∧ Fsm.run s 0 s.input Fsm.start = .error (e.cause, e.trigger.pos.toNat)
        ∧ exec .decode s = .next (s.raiseDecode e.cause (errPosOf e)))
      ∨ (∃ (r : Run) (bs : List Byte), Fsm.run s 0 s.input Fsm.start = .ok bs ∧ r.Wrote bs
        ∧ exec .decode s = .next (s.finishCodec r.work.dOpos r.obuf)) := by
  have hagrees := decodeRun_agrees s
  rcases execDecode_cases s with ⟨r, hr, -⟩ | ⟨-, e, hd, he⟩ | ⟨-, r, hd, he⟩
  · cases (s.admission_eq_none_iff.2 hadm).symm.trans hr
  · rw [hd] at hagrees
    generalize Fsm.run s 0 s.input Fsm.start = m at hagrees ⊢
    cases hagrees
    exact .inl ⟨e, hd, rfl, he⟩
  · rw [hd] at hagrees
    generalize Fsm.run s 0 s.input Fsm.start = m at hagrees ⊢
    cases hagrees with
    | ok hw => exact .inr ⟨r, _, rfl, hw, he⟩

theorem exec_decode_of_verdict_error {c : ErrCause} (h : decodeVerdict s = .error c) :
    ∃ t, exec .decode s = .next t ∧ t.result = .decodeError ∧ t.errcause = c ∧ s.CodecFrame t := by
  rw [← run_start_mapError] at h
  rcases exec_decode_of_admitted hadm with ⟨e, -, hrun, he⟩ | ⟨r, bs, hrun, -, -⟩ <;> rw [hrun] at h <;> cases h
  exact ⟨_, he, by simp, by simp, by simp [State.CodecFrame]⟩

theorem exec_decode_of_verdict_ok {bs : List Byte} (h : decodeVerdict s = .ok bs) :
    ∃ t, exec .decode s = .next t
      ∧ t.result = .ok ∧ t.busy = false ∧ t.errpos = 0 ∧ t.errcause = .none
      ∧ t.outlen.toNat = bs.length ∧ t.output = bs
      ∧ (∀ i, t.outlen.toNat ≤ i → Mem.read t.obuf i = none) ∧ s.CodecFrame t := by
  rw [← run_start_mapError] at h
  rcases exec_decode_of_admitted hadm with ⟨e, -, hrun, -⟩ | ⟨r, bs', hrun, hw, he⟩ <;> rw [hrun] at h <;> cases h
  have hlen : (s.finishCodec r.work.dOpos r.obuf).outlen.toNat = bs.length := hw.dOpos
  refine ⟨_, he, by simp, by simp, by simp, by simp, hlen, State.output_eq_of_writeBytes hw.obuf hlen, fun i hi => ?_,
    by simp [State.CodecFrame]⟩
  rw [State.finishCodec_obuf, hw.obuf, Mem.read_writeBytes, dif_neg (by omega)]
  rfl

end

/-! ## The first BAD byte -/

/-- Over symbols and line breaks the table stays in rows Q0 to Q3. -/
theorem fsmFrom_of_sym_or_lb {s : State} {i : Nat} (hi : i ≤ s.inlen.toNat)
    (h : ∀ j, j < i → s.classOf (s.byteAt .ibuf j) = .lb ∨ ∃ v, s.classOf (s.byteAt .ibuf j) = .sym v) :
    ∃ vs lastpos, fsmFrom s 0 Fsm.start = fsmFrom s i (afterSymbols vs lastpos) := by
  induction i with
  | zero => exact ⟨[], 0, rfl⟩
  | succ i ih =>
    obtain ⟨vs, lastpos, he⟩ := ih (by omega) fun j hj => h j (by omega)
    rw [he, fsmFrom_of_lt (by omega)]
    rcases h i (by omega) with hlb | ⟨v, hv⟩
    · rw [hlb, next_lb]
      exact ⟨vs, lastpos, rfl⟩
    · rw [hv, next_sym]
      exact ⟨vs ++ [v], i, rfl⟩

theorem run_of_bad {s : State} {i : Nat} (hi : i < s.inlen.toNat) (hbad : s.classOf (s.byteAt .ibuf i) = .bad)
    (h : ∀ j, j < i → s.classOf (s.byteAt .ibuf j) = .lb ∨ ∃ v, s.classOf (s.byteAt .ibuf j) = .sym v) :
    Fsm.run s 0 s.input Fsm.start = .error (.invalidByte, i) := by
  obtain ⟨vs, lastpos, he⟩ := fsmFrom_of_sym_or_lb hi.le h
  rw [← fsmFrom_zero, he, fsmFrom_of_lt hi, hbad]
  rfl

/-- INVALID_BYTE is reported at its own index (R256). -/
theorem errPosOf_of_invalidByte {e : DecErr} (h : e.cause = .invalidByte) : errPosOf e = e.trigger.pos := by
  rw [errPosOf, if_pos h]

/-! ## The round trip -/

/-- The unused bits of what ENCODE writes are 0 (R169). -/
theorem unusedZero_tailOf_symbolsOf (bs : List Byte) : unusedZero (tailOf (symbolsOf bs)) = true := by
  induction bs using symbolsOf.induct with
  | case1 => rfl
  | case2 b0 =>
    have hbits := groupSym_one_unused b0
    rw [groupSym_packBytes_1] at hbits
    simpa [symbolsOf, tailOf_of_lt, unusedZero] using hbits
  | case3 b0 b1 =>
    have hbits := groupSym_two_unused b0 b1
    rw [groupSym_packBytes_2] at hbits
    simpa [symbolsOf, tailOf_of_lt, unusedZero] using hbits
  | case4 b0 b1 b2 rest ih =>
    rw [symbolsOf_full, tailOf_append (by simp)]
    exact ih

/-- The number of symbols and of pad bytes that ENCODE writes is one R229 allows (R169). -/
theorem tailAllowed_symbolsOf (padEnabled : Bool) (bs : List Byte) :
    tailAllowed padEnabled (symbolsOf bs).length (if padEnabled then padCount bs.length else 0) := by
  rw [length_symbolsOf]
  cases padEnabled with
  | true =>
    simp only [tailAllowed, padCount, if_true, true_and, Bool.true_eq_false, false_and, or_false]
    split_ifs <;> omega
  | false =>
    simp only [tailAllowed, Bool.false_eq_true, if_false, false_and, false_or, true_and, and_true]
    omega

/-- Two states with the same configuration state, the input of the first given to the second. -/
theorem sameSource_of_sameConfig {s s' : State} (h : s.SameConfig s') :
    SameSource s { s' with inlen := s.inlen, ibuf := s.ibuf, draws := s.draws } := ⟨h, rfl, fun _ _ => rfl⟩

/-- The class of a byte is a function of the configuration state (R113). -/
theorem classOf_of_sameConfig {s s' : State} (h : s.SameConfig s') : s'.classOf = s.classOf :=
  funext (sameSource_of_sameConfig h).classOf

theorem padEnabled_of_sameConfig {s s' : State} (h : s.SameConfig s') : s'.padEnabled = s.padEnabled :=
  (sameSource_of_sameConfig h).padEnabled

/-- Under a valid instance the encoded bytes are in the accepted language (R169, R229). -/
theorem accepted_encodedBytes {s s' : State} (hs : s.InstanceOk) (hconfig : s.SameConfig s') (bs : List Byte) :
    Accepted s' (encodedBytes s bs) (symbolsOf bs) := by
  refine ⟨⟨_, ?_, tailAllowed_symbolsOf s'.padEnabled bs⟩, fun _ => unusedZero_tailOf_symbolsOf bs⟩
  rw [significant, classOf_of_sameConfig hconfig, hs.map_classOf_encodedBytes, padEnabled_of_sameConfig hconfig,
    List.filter_eq_self]
  intro c hc
  rcases List.mem_append.1 hc with hc | hc
  · obtain ⟨v, -, rfl⟩ := List.mem_map.1 hc
    rfl
  · rw [(List.mem_replicate.1 hc).2]
    rfl

/-- OUT2IN (R99) makes the output the input. -/
theorem outToIn_input (t : State) : t.outToIn.input = t.output := by
  have hlen : t.output.length = t.outlen.toNat := by simp [State.output]
  refine List.ext_getElem (by simp [State.outToIn, hlen]) fun i hi hi' => ?_
  have hread : Mem.read (t.outToIn.buf .ibuf) i = some t.output[i] := by
    show Mem.read (Mem.writeBytes t.ibuf 0 t.output) i = _
    rw [Mem.read_writeBytes, dif_pos (by omega)]
    rfl
  simp [State.input, State.byteAt_of_read hread]

/-! ## Line breaks -/

theorem significant_eq_map_filter (s : State) (bs : List Byte) :
    significant s bs = (bs.filter fun b => s.classOf b ≠ .lb).map s.classOf := by
  rw [significant, List.filter_map]
  rfl

/-- The table reads nothing of a state but PAD and STRICT. -/
theorem classRun_of_sameConfig {s s' : State} (h : s.SameConfig s') (cs : List ByteClass) (f : Fsm) :
    classRun s' cs f = classRun s cs f := by
  obtain ⟨-, -, -, hstrict, -⟩ := id h
  induction cs generalizing f with
  | nil => simp only [classRun, Fsm.eoi, Fsm.finish, hstrict, padEnabled_of_sameConfig h]
  | cons c cs ih =>
    rw [classRun, classRun, funext ih]

/-! ## The obligations -/

/-- Settles O36: on the language the verdict is the end of the decode (`decodeVerdict_of_hasForm`), and it is a success on
nothing else (`accepted_of_decodeVerdict_eq_ok`). -/
theorem decodeAcceptsExactlyTheLanguage : Obligations.DecodeAcceptsExactlyTheLanguage := by
  intro s hadm
  refine ⟨fun vs hacc => ?_, fun t ht hok => ?_⟩
  · obtain ⟨hform, hstrict⟩ := hacc
    refine exec_decode_of_verdict_ok hadm ((decodeVerdict_of_hasForm hform).trans (if_neg ?_))
    exact fun hviol => absurd ((hstrict hviol.1).symm.trans hviol.2) Bool.false_ne_true.symm
  · cases hv : decodeVerdict s with
    | ok bs => exact accepted_of_decodeVerdict_eq_ok hv
    | error c =>
      obtain ⟨t', ht', hres, -⟩ := exec_decode_of_verdict_error hadm hv
      cases ht.symm.trans ht'
      cases hok.symm.trans hres

/-- Settles O41, by the effect of `raiseDecode`. -/
theorem failedDecodeLeavesOutputUnspecified : Obligations.FailedDecodeLeavesOutputUnspecified := by
  intro s e hadm he
  rcases exec_decode_of_admitted hadm with ⟨e', hd, -, hexec⟩ | ⟨r, bs, hrun, -, -⟩
  · cases he.symm.trans hd
    exact ⟨_, hexec, by simp, by simp, by simp, by simp, by simp, fun i => by simp [State.byteAt, Mem.read],
      by simp [State.CodecFrame]⟩
  · have hagrees := decodeRun_agrees s
    rw [he, hrun] at hagrees
    cases hagrees

/-- Settles O42: up to the BAD byte the table stays in rows Q0 to Q3 (`run_of_bad`), and ERRPOS is its index. -/
theorem badByteIsInvalidByte : Obligations.BadByteIsInvalidByte := by
  intro s i hadm hi hbad hbefore
  have hrun := run_of_bad hi hbad hbefore
  rcases exec_decode_of_admitted hadm with ⟨e, -, he, hexec⟩ | ⟨r, bs, he, -, -⟩
  · obtain ⟨hcause, hpos⟩ := Prod.mk.inj (Except.error.inj (hrun.symm.trans he))
    refine ⟨_, hexec, by simp, by simp [hcause], ?_, by simp [State.CodecFrame]⟩
    rw [State.raiseDecode_errpos, errPosOf_of_invalidByte hcause.symm, hpos]
  · cases hrun.symm.trans he

/-- Settles O43, in rows Q0 and Q1 of the table. -/
theorem padBeforeSlotTwoIsEarly : Obligations.PadBeforeSlotTwoIsEarly :=
  fun _ _ _ hadm hsig hlen => exec_decode_of_verdict_error hadm (decodeVerdict_of_pad_early hsig hlen)

/-- Settles O44, in row P2 of the table: no line break is a significant class, so the next one is no line break. -/
theorem missingSecondPadIsIncomplete : Obligations.MissingSecondPadIsIncomplete := by
  intro s vs rest hadm hsig hlen hnext
  have hlb : ByteClass.lb ∉ rest := fun hc => lb_notMem_significant s s.input (by simp [hsig, hc])
  refine exec_decode_of_verdict_error hadm ?_
  rw [decodeVerdict_of_pad_at_two hsig hlen, classRun_p2_of_no_pad s vs hlb hnext]

/-- Settles O45: both paths lead to row T of the table. -/
theorem dataAfterPaddingIsTrailing : Obligations.DataAfterPaddingIsTrailing := by
  intro s vs c rest hadm h
  have hc : c ≠ .lb := by
    rintro rfl
    refine lb_notMem_significant s s.input ?_
    rcases h with ⟨-, hsig⟩ | ⟨-, hsig⟩ <;> simp [hsig]
  refine exec_decode_of_verdict_error hadm ?_
  rcases h with ⟨hlen, hsig⟩ | ⟨hlen, hsig⟩
  · rw [decodeVerdict_of_pad_at_two hsig hlen, classRun_p2_pad, classRun_t_cons s vs hc]
  · rw [decodeVerdict_of_pad_at_three hsig hlen, classRun_t_cons s vs hc]

/-- Settles O46: the end of the input in rows Q1 to Q3 of the table. -/
theorem unfinishedQuantumIsTruncated : Obligations.UnfinishedQuantumIsTruncated := by
  intro s vs hadm hsig hlen
  refine exec_decode_of_verdict_error hadm ?_
  rw [decodeVerdict_of_no_pad hsig, if_pos (hlen.imp id fun hp => ⟨hp.1, by omega⟩)]

/-- Settles O47: the verdict on a form R229 allows is the strict check's (`finishVerdict`). -/
theorem strictModeRejectsNonCanonicalInput : Obligations.StrictModeRejectsNonCanonicalInput := by
  intro s vs hadm hform
  have hverdict := decodeVerdict_of_hasForm hform
  by_cases hviol : s.strict = true ∧ unusedZero (tailOf vs) = false
  · obtain ⟨t, ht, hres, hcause, hframe⟩ :=
      exec_decode_of_verdict_error hadm (hverdict.trans (if_pos hviol))
    exact ⟨t, ht, hframe, fun _ => ⟨hres, hcause⟩, fun hno => absurd hviol hno⟩
  · obtain ⟨t, ht, hres, -, -, -, -, hout, -, hframe⟩ :=
      exec_decode_of_verdict_ok hadm (hverdict.trans (if_neg hviol))
    exact ⟨t, ht, hframe, fun hyes => absurd hyes hviol, fun _ => ⟨hres, hout⟩⟩

/-- Settles O48: the encoded bytes are in the accepted language (`accepted_encodedBytes`), and their symbols decode to the
input (`bytesOf_symbolsOf`). -/
theorem decodeOfEncodeIsTheInput : Obligations.DecodeOfEncodeIsTheInput := by
  intro s t hparams hadm hs ht hfit
  have hout := exec_encode_output hparams hadm ht
  have hconfig : s.SameConfig t := exec_codec_sameConfig (.inl rfl) ht
  have hadm' : t.outToIn.Admitted := by
    obtain ⟨-, -, -, -, hvalid⟩ := hconfig
    obtain ⟨t', ht', -, hmax⟩ := exec_completes .encode s
    cases ht.symm.trans ht'
    exact ⟨hvalid.trans hadm.1, hmax ▸ hfit⟩
  have hacc : Accepted t.outToIn t.outToIn.input (symbolsOf s.input) := by
    rw [outToIn_input, hout]
    exact accepted_encodedBytes hs hconfig s.input
  obtain ⟨hdecoded, -⟩ := decodeAcceptsExactlyTheLanguage t.outToIn hadm'
  obtain ⟨u, hu, hres, -, -, -, hlen, houtput, -⟩ := hdecoded _ hacc
  rw [bytesOf_symbolsOf] at hlen houtput
  exact ⟨u, hu, hres, BitVec.eq_of_toNat_eq (hlen.trans s.length_input), houtput⟩

/-- Settles O49: the significant classes of the two inputs are the same, and the verdict is theirs. -/
theorem lineBreaksDoNotChangeTheResult : Obligations.LineBreaksDoNotChangeTheResult := by
  intro s s' t t' hadm hadm' hconfig hfilter ht ht'
  have hsig : significant s' s'.input = significant s s.input := by
    rw [significant_eq_map_filter, significant_eq_map_filter, ← hfilter, classOf_of_sameConfig hconfig]
  have hverdict : decodeVerdict s' = decodeVerdict s := by
    rw [decodeVerdict, decodeVerdict, hsig, classRun_of_sameConfig hconfig]
  cases hv : decodeVerdict s with
  | error c =>
    obtain ⟨u, hu, hres, hcause, -⟩ := exec_decode_of_verdict_error hadm hv
    obtain ⟨u', hu', hres', hcause', -⟩ := exec_decode_of_verdict_error hadm' (hverdict.trans hv)
    cases ht.symm.trans hu
    cases ht'.symm.trans hu'
    exact ⟨hres.trans hres'.symm, hcause.trans hcause'.symm, fun hok => nomatch hok.symm.trans hres⟩
  | ok bs =>
    obtain ⟨u, hu, hres, -, -, hcause, -, hout, -⟩ := exec_decode_of_verdict_ok hadm hv
    obtain ⟨u', hu', hres', -, -, hcause', -, hout', -⟩ := exec_decode_of_verdict_ok hadm' (hverdict.trans hv)
    cases ht.symm.trans hu
    cases ht'.symm.trans hu'
    exact ⟨hres.trans hres'.symm, hcause.trans hcause'.symm, fun _ => hout.trans hout'.symm⟩

end Sys2Proof.Machine
end

section
/-! PROOFS. The exceptions family (60_exceptions.md): the outcome of each command (R250), the refusals (R260 to R263), and
where an error of DECODE points (R256, R257). -/

namespace Sys2Proof.Machine

/-! ## The outcomes of a command -/

/-- What admission refuses, it refuses for ENCODE and for DECODE alike: RESULT is written and nothing else (R260, R262). -/
theorem exec_codec_of_refused {i : Instr} {s : State} {r : ResultCode} (hi : i = .encode ∨ i = .decode)
    (h : s.admission = some r) : exec i s = .next (s.complete r) := by
  rcases hi with rfl | rfl
  · simp only [exec, execEncode, h]
  · simp only [exec, execDecode, h]

/-- Admission refuses with one of two outcomes (R263). -/
theorem State.admission_refusal {s : State} {r : ResultCode} (h : s.admission = some r) :
    r = .notConfigured ∨ r = .lengthRange :=
  (State.admission_eq_some h).imp And.right fun ⟨_, _, hr⟩ => hr

/-- R250's table: the outcome of a command, and the commands that raise it. -/
theorem exec_outcome (i : Instr) (s : State) :
    ∃ t, exec i s = .next t ∧ t.busy = false
      ∧ (t.result = .ok
        ∨ (t.result = .constructionError ∧ ∃ st p, i = .configure st p)
        ∨ (t.result = .decodeError ∧ i = .decode)
        ∨ ((t.result = .notConfigured ∨ t.result = .lengthRange) ∧ (i = .encode ∨ i = .decode))) := by
  cases i with
  | configure st p =>
    by_cases hm : invariantMask s.alphabet p = 0
    · exact ⟨_, exec_configure_of_invariants hm st, by simp, .inl (by simp)⟩
    · exact ⟨_, exec_configure_of_violation hm st, by simp, .inr (.inl ⟨by simp, st, p, rfl⟩)⟩
  | preset id => exact ⟨_, exec_preset id s, by simp, .inl (by simp)⟩
  | encode =>
    rcases execEncode_cases s with ⟨r, hr, he⟩ | ⟨-, he⟩
    · exact ⟨_, he, by simp, .inr (.inr (.inr ⟨by simpa using State.admission_refusal hr, .inl rfl⟩))⟩
    · exact ⟨_, he, by simp, .inl (by simp)⟩
  | decode =>
    rcases execDecode_cases s with ⟨r, hr, hd⟩ | ⟨-, e, -, hd⟩ | ⟨-, r, -, hd⟩
    · exact ⟨_, hd, by simp, .inr (.inr (.inr ⟨by simpa using State.admission_refusal hr, .inr rfl⟩))⟩
    · exact ⟨_, hd, by simp, .inr (.inr (.inl ⟨by simp, rfl⟩))⟩
    · exact ⟨_, hd, by simp, .inl (by simp)⟩

/-! ## Where an error of DECODE points -/

/-- An error that DECODE raises on the input of `s`: a cause of R255 other than NONE, at a BAD byte of the input when the
cause is INVALID_BYTE (R256). -/
structure DecErr.RaisedOn (s : State) (e : DecErr) : Prop where
  inlen : e.trigger.inlen = s.inlen
  cause_ne_none : e.cause ≠ .none
  bad : e.cause = .invalidByte →
    e.trigger.pos.toNat < s.inlen.toNat ∧ s.classOf (s.byteAt .ibuf e.trigger.pos.toNat) = .bad

/-- Of the causes 2 to 6 nothing is asked about the byte. -/
theorem raisedOn_decErr (s : State) (w : Work) {c : ErrCause} (hnone : c ≠ .none) (hbad : c ≠ .invalidByte) (p : Len) :
    (decErr s w c p).RaisedOn s :=
  ⟨rfl, hnone, fun h => absurd h hbad⟩

section
variable {s : State} {w : Work} {e : DecErr}

theorem padFinal_raisedOn (h : padFinal s w = .error e) : e.RaisedOn s := by
  rcases padFinal_cases s w with ⟨-, he⟩ | ⟨-, he⟩ <;> cases h.symm.trans he
  exact raisedOn_decErr s _ (by decide) (by decide) _

theorem padSecond_raisedOn (h : padSecond s w = .error e) : e.RaisedOn s := by
  rcases padSecond_cases s w with ⟨-, he⟩ | ⟨-, -, he⟩ | ⟨-, -, he⟩ <;> rw [he] at h
  · cases h
    exact raisedOn_decErr s _ (by decide) (by decide) _
  · cases h
    exact raisedOn_decErr s _ (by decide) (by decide) _
  · exact padFinal_raisedOn h

theorem onPad_raisedOn {p : Len} (h : onPad s w p = .error e) : e.RaisedOn s := by
  rcases onPad_cases s w p with ⟨-, he⟩ | ⟨-, he⟩ | ⟨-, he⟩ <;> rw [he] at h
  · cases h
    exact raisedOn_decErr s _ (by decide) (by decide) _
  · exact padSecond_raisedOn h
  · exact padFinal_raisedOn h

theorem onExhausted_raisedOn (h : onExhausted s w = .error e) : e.RaisedOn s := by
  rcases onExhausted_cases s w with ⟨-, he⟩ | ⟨-, -, he⟩ | ⟨-, -, -, he⟩ <;> cases h.symm.trans he
  exact raisedOn_decErr s _ (by decide) (by decide) _

theorem closeQuantum_raisedOn {m : Mem} (h : closeQuantum s w m = .error e) : e.RaisedOn s := by
  rcases closeQuantum_cases s w m with ⟨-, he⟩ | ⟨-, -, he⟩ | ⟨-, -, he⟩ <;> cases h.symm.trans he
  exact raisedOn_decErr s _ (by decide) (by decide) _

/-- In the slot loop INVALID_BYTE is raised at the byte just read (R204). -/
theorem slotLoop_raisedOn {fuel : Nat} (hp : w.dPos.toNat ≤ s.inlen.toNat) (hs : w.dSlot.toNat ≤ 4)
    (hf : s.inlen.toNat - w.dPos.toNat < fuel) (h : slotLoop s fuel w = .error e) : e.RaisedOn s := by
  refine slotLoop_induction (P := fun _ o => o = .error e → e.RaisedOn s) ?full ?exhausted ?sym ?lb ?bad ?pad hp hs hf h
  case full => exact fun _ _ _ h => nomatch h
  case exhausted => exact fun _ _ _ h => onExhausted_raisedOn h
  case sym => exact fun _ _ _ _ _ _ ih h => ih h
  case lb => exact fun _ _ _ _ ih h => ih h
  case bad =>
    intro w _ hlt hbad h
    cases h
    exact ⟨rfl, nofun, fun _ => ⟨hlt, hbad⟩⟩
  case pad => exact fun _ _ _ _ h => onPad_raisedOn h

theorem quantum_raisedOn {r : Run} (hp : r.work.dPos.toNat ≤ s.inlen.toNat) (h : quantum s r = .error e) :
    e.RaisedOn s := by
  rcases quantum_cases s r with ⟨e', hslots, he⟩ | ⟨w, -, hw⟩
  · cases h.symm.trans he
    exact slotLoop_raisedOn (w := openQuantum r.work) hp (Nat.zero_le _) (decFuel_enough s _) hslots
  · exact closeQuantum_raisedOn (hw.symm.trans h)

/-- Only a quantum raises an error, and the outer loop starts each one within the input. -/
theorem decodeRun_raisedOn (h : decodeRun s = .error e) : e.RaisedOn s := by
  rcases decLoop_start_cases true s (decFuel s) with ⟨r, -, he⟩ | ⟨r, n, e', hr, hq, he⟩ <;> cases h.symm.trans he
  exact quantum_raisedOn hr.dPos_le hq

/-- ERRPOS is an index into the input, or INLEN (R32). -/
theorem DecErr.RaisedOn.errPosOf_le (h : e.RaisedOn s) : (errPosOf e).toNat ≤ s.inlen.toNat := by
  unfold errPosOf
  split
  · rename_i hcause
    exact (h.bad hcause).1.le
  · rw [h.inlen]
    split
    · rename_i hle
      exact hle
    · exact Nat.le_refl _

end

/-! ## The obligations -/

/-- Settles O20: the engine's errors carry a cause and point into the input (`decodeRun_raisedOn`), and `errPosOf` keeps
the position of INVALID_BYTE. -/
theorem errorPositionLiesWithinTheInput : Obligations.ErrorPositionLiesWithinTheInput := by
  intro s t hadm ht hres
  rcases exec_decode_of_admitted hadm with ⟨e, hrun, -, he⟩ | ⟨r, bs, -, -, he⟩ <;> cases ht.symm.trans he
  · have hraised := decodeRun_raisedOn hrun
    rw [State.raiseDecode_errpos, State.raiseDecode_errcause]
    refine ⟨hraised.errPosOf_le, hraised.cause_ne_none, fun hcause => ?_⟩
    rw [errPosOf_of_invalidByte hcause]
    exact hraised.bad hcause
  · simp at hres

/-- Settles O17: each of the outcomes of R250's table (`exec_outcome`) is one code, so the others are excluded. -/
theorem everyCommandEndsInOneOutcome : Obligations.EveryCommandEndsInOneOutcome := by
  intro i s
  obtain ⟨t, ht, hbusy, hout⟩ := exec_outcome i s
  refine ⟨t, ht, hbusy, ?_⟩
  rcases hout with hok | ⟨hcode, hi⟩ | ⟨hcode, hi⟩ | ⟨hcode | hcode, hi⟩
  · simp [hok]
  all_goals simpa [hcode] using hi

/-- Settles O6: the write of CMD is served at once, and the decoder rejects the word (`issueCommand_of_illegal`). -/
theorem illegalCommandIsRefused : Obligations.IllegalCommandIsRefused := by
  intro s w rest hb hh hl
  rw [step_of_idle hb hh]
  exact issueCommand_of_illegal (s := { s with host := rest }) hl hb

/-- Settles O7, by the step with no access to serve. -/
theorem idleBlockHoldsItsState : Obligations.IdleBlockHoldsItsState := by
  intro s hh
  simp only [step, hh]

/-- Settles O18: the first check of admission, before any look at INLEN. -/
theorem notConfiguredIsRefused : Obligations.NotConfiguredIsRefused :=
  fun _ _ hi hv => exec_codec_of_refused hi (if_pos hv)

/-- Settles O19: the second check of admission. -/
theorem lengthRangeIsRefused : Obligations.LengthRangeIsRefused := by
  intro s i hi hv hlen
  refine exec_codec_of_refused hi ?_
  simp only [State.admission, hv, Bool.true_eq_false, if_false, hlen, if_true]

end Sys2Proof.Machine
end

section
/-! PROOFS. The reset family (70_reset_and_hazards.md): what the reset input leaves (R290), and which step of a block with no
command running stops. -/

namespace Sys2Proof.Machine

/-! ## The reset input -/

/-- The reset input is served whatever the block is doing, a running command included (R290). -/
theorem step_reset {s : State} {rest : List HostOp} (hh : s.host = .reset :: rest) :
    step s = .next (State.hardReset { s with host := rest }) := by
  rcases Bool.eq_false_or_eq_true s.busy with hb | hb
  · rw [step_of_busy hb hh, busyAccess]
  · rw [step_of_idle hb hh, idleAccess]

/-- After the reset input STATUS reads 0 (R45). -/
theorem State.hardReset_statusRead (s : State) : s.hardReset.statusRead = 0x00#8 := by
  rw [statusRead_of_idle s.hardReset_busy, State.statusIdle, State.hardReset_result, State.hardReset_cfgValid]
  rfl

/-- After the reset input ERRCAUSE reads 0 (R45). -/
theorem State.hardReset_errcauseRead (s : State) : s.hardReset.errcauseRead = 0x00#8 := by
  rw [State.errcauseRead, State.hardReset_errcause]
  rfl

/-- After the reset input CFGERR reads 0 (R45). -/
theorem State.hardReset_cfgerrRead (s : State) : s.hardReset.cfgerrRead = 0x00#8 := by
  rw [State.cfgerrRead, State.hardReset_cfgerr]
  rfl

/-- With no instance a read of CFGINFO is unspecified (R32). -/
theorem cfginfoRead_of_no_instance {s : State} (hv : s.cfgValid = false) :
    s.cfginfoRead = Config.free 16 s.draws .cfginfo := by
  simp [State.cfginfoRead, hv]

/-- A byte that a buffer does not list is unspecified (R45, R62). -/
theorem State.byteAt_of_unlisted {s : State} {b : BufId} {i : Nat} (h : Mem.read (s.buf b) i = none) :
    s.byteAt b i = Config.free 8 s.draws (.bufByte b i) := by
  simp [State.byteAt, h]

/-- The reset input leaves no byte of a buffer listed (R45). -/
theorem State.read_hardReset_buf (s : State) (b : BufId) (i : Nat) : Mem.read (s.hardReset.buf b) i = none := by
  rw [State.hardReset_buf, Mem.read]

/-! ## Accesses with no command running -/

/-- A host write of a register never stops: a write of CMD is served to its command's end (R293), the others write at most
one register (R28). -/
theorem writeRegister_answers (r : RegWrite) (s : State) : ∃ t, writeRegister r s = .next t := by
  cases r with
  | cmd w =>
    obtain ⟨t, ht, -, -⟩ := issueCommand_completes w s
    exact ⟨t, ht⟩
  | status | inlen | outlen | errpos | errcause | cfgerr | alen | cfginfo => exact ⟨_, rfl⟩

/-! ## The obligations -/

/-- Settles O9: the step is `State.hardReset`, whose buffers list nothing and which holds no instance. -/
theorem resetInputLeavesTheResetState : Obligations.ResetInputLeavesTheResetState := by
  intro s rest hh
  exact ⟨_, step_reset hh, State.hardReset_statusRead _, State.hardReset_busy _, State.hardReset_cfgValid _,
    State.hardReset_result _, State.hardReset_inlen _, State.hardReset_outlen _, State.hardReset_errpos _,
    State.hardReset_errcauseRead _, State.hardReset_cfgerrRead _, State.hardReset_alen _,
    cfginfoRead_of_no_instance (State.hardReset_cfgValid _),
    fun b i => State.byteAt_of_unlisted (State.read_hardReset_buf _ b i), State.hardReset_inMax _, State.hardReset_host _⟩

/-- Settles O59, by the host's next access: only the two accesses to a buffer can stop, and they do so at or beyond its
capacity. -/
theorem onlyAnIndexBeyondCapacityStopsAStep : Obligations.OnlyAnIndexBeyondCapacityStopsAStep := by
  intro s hb
  cases hh : s.host with
  | nil => exact .inl ⟨s, idleBlockHoldsItsState s hh⟩
  | cons op rest =>
    cases op with
    | writeReg r =>
      obtain ⟨t, ht⟩ := writeRegister_answers r { s with host := rest }
      exact .inl ⟨t, (step_of_idle hb hh).trans ht⟩
    | readReg r => exact .inl ⟨_, step_readReg hb hh⟩
    | writeBuf b i v =>
      rcases Nat.lt_or_ge i (s.capacity b) with hi | hi
      · exact .inl ⟨_, step_writeBuf hb hh hi⟩
      · exact .inr ⟨step_beyond_capacity hb (.inr ⟨v, rfl⟩) hh hi, b, i, rest, hi, .inr ⟨v, rfl⟩⟩
    | readBuf b i =>
      rcases Nat.lt_or_ge i (s.capacity b) with hi | hi
      · exact .inl ⟨_, step_readBuf hb hh hi⟩
      · exact .inr ⟨step_beyond_capacity hb (.inl rfl) hh hi, b, i, rest, hi, .inl rfl⟩
    | reset => exact .inl ⟨_, step_reset hh⟩

end Sys2Proof.Machine
end
